-- ==== Sys2Proof/Word.lean ====
section
/-! DEFINITION. The word of the host port and its address (spec/20_memory.md R62, spec/00_scope.md R11).

A word is 64 bits, bit 0 least significant; a host-port address is 24 bits and names one whole word.
There are no bytes inside the engine (R63), so no byte type is declared here. -/

namespace Sys2Proof

/-- One 64-bit word of the host port, of a command, of a limb (R11, R62, R90). -/
abbrev Word := BitVec 64

/-- A host-port word address: 24 bits, so no transaction can name an address outside the map (R62). -/
abbrev HostAddr := BitVec 24

end Sys2Proof
end

