-- ==== Sys2Proof/Config.lean ====
section
/-! DEFINITION. What one engine fixes for good (its instance parameters, spec/00_scope.md R4, R9) and the
free values, which the spec leaves open (spec/93_implementation_defined.md U1, U2).  A free value is an
opaque constant: nothing can be proved about which value it is, so a theorem holds for every one. -/

namespace Sys2Proof.Config

/-- The raw instance parameters of R4: the prime `P`, the state width `m`, the generator element `G`
and the number of constants slots `RC_DEPTH`. -/
structure Params where
  P : Nat
  m : Nat
  G : Nat
  rcDepth : Nat
  deriving DecidableEq, Repr

/-- `W`, the bit length of `P` (R4). -/
def Params.W (p : Params) : Nat := p.P.log2 + 1

/-- `L = ceil(W / 64)`, the limbs of one element (R4). -/
def Params.L (p : Params) : Nat := (p.W + 63) / 64

/-- The instance constraints of R9. -/
abbrev Params.Valid (p : Params) : Prop :=
  p.P.Prime ∧ 3 ≤ p.P ∧ p.W ≤ 512 ∧ 1 ≤ p.m ∧ p.m ≤ 32 ∧
    2 * p.m ≤ p.rcDepth ∧ p.rcDepth ≤ 131072 ∧ p.G < p.P

/-- One engine: parameters together with the proof that they keep R9.  A set of parameters that breaks a
constraint is not an RPE and cannot be built (R9, U9). -/
structure Instance extends Params where
  valid : toParams.Valid
  deriving DecidableEq, Repr

/-- The constructor that refuses parameters which break R9 (U9). -/
def Instance.ofParams? (p : Params) : Option Instance :=
  if h : p.Valid then some ⟨p, h⟩ else none

/-- `TOY11` of R6 with state width 2. -/
def toy11 : Instance := ⟨⟨11, 2, 2, 64⟩,
  ⟨by norm_num, by decide, by decide, by decide, by decide, by decide, by decide, by decide⟩⟩

/-- `TOY11` of R6 with state width 3. -/
def toy11Wide : Instance := ⟨⟨11, 3, 2, 64⟩,
  ⟨by norm_num, by decide, by decide, by decide, by decide, by decide, by decide, by decide⟩⟩

/-- The instance that `State.reset` describes.  DESIGN CHOICE (notes/assumptions/1.md): the spec makes the
instance an argument; `step` reads it from the state, and this is the one the fixed name `State.reset`
is written for. -/
def resetInstance : Instance := toy11

/-- FREE VALUE (U1; notes/assumptions/4.md).  The word that a limb of `x`, `MDS` or `RC` holds while
nothing has written it: it depends on the reset it dates from and on its host-port address. -/
opaque unwrittenWord : (resets address : Nat) → Word

/-- FREE VALUE (U2; notes/assumptions/5.md).  The word that the n-th read of the `x` or `MDS` region
while `BUSY = 1` returns. -/
opaque busyReadWord : (n : Nat) → Word

end Sys2Proof.Config
end

