-- ==== Sys2Proof/Syntax.lean ====
section
/-! DEFINITION. The nine commands of the engine, one constructor per row of spec/opcode_table.json
(spec/30_encoding.md R93).  An immediate is the natural number R92 says it is; that it is below 2^32 is
the check of WellFormed.lean. -/

namespace Sys2Proof

/-- A command (R93).  Every other operand of a command is implicit (R92). -/
inductive Instr where
  /-- `NOP` (R181). -/
  | nop
  /-- `SBOX.F`, the forward S-box layer alone (R112). -/
  | sboxF
  /-- `SBOX.I`, the inverse S-box layer alone (R113). -/
  | sboxI
  /-- `MDSMUL`, one linear layer alone (R122). -/
  | mdsmul
  /-- `ADDRC k`, one constant injection alone; `k` is the chunk base (R133). -/
  | addrc (k : Nat)
  /-- `ROUND i`, one round with round index `i` (R141). -/
  | round (i : Nat)
  /-- `PERMUTE`, all `NROUNDS` rounds (R147). -/
  | permute
  /-- `MDSGEN`, the matrix generator (R162). -/
  | mdsgen
  /-- `CLRSTAT`, clear status and acknowledge an error (R183). -/
  | clrstat
  deriving DecidableEq, Repr

end Sys2Proof
end

