-- ==== Sys2Proof/WellFormed.lean ====
section
/-! DEFINITION. Which commands are well formed (spec/30_encoding.md R92, R104) and, beside it, which
parameters make an engine (spec/00_scope.md R9, as `Config.Params.Valid`). -/

namespace Sys2Proof

/-- An immediate is a natural number in `[0, 2^32)` (R92); no other command has an operand to check. -/
def Instr.immOk (k : Nat) : Bool := decide (k < 2 ^ 32)

/-- A command that format `C` can carry (R91, R92). -/
def Instr.wellFormed : Instr → Bool
  | .nop => true
  | .sboxF => true
  | .sboxI => true
  | .mdsmul => true
  | .addrc k => Instr.immOk k
  | .round i => Instr.immOk i
  | .permute => true
  | .mdsgen => true
  | .clrstat => true

end Sys2Proof
end

