-- ==== Sys2Proof/Decode.lean ====
section
/-! DEFINITION. From a 64-bit word to a command and back (spec/30_encoding.md R90 to R94). -/

namespace Sys2Proof

/-- `op`, bits 7..0 (R91). -/
def opField (w : Word) : BitVec 8 := w.extractLsb' 0 8

/-- `inv`, bit 8 (R91). -/
def invField (w : Word) : BitVec 1 := w.extractLsb' 8 1

/-- `rsv0`, bits 15..9 (R91). -/
def rsv0Field (w : Word) : BitVec 7 := w.extractLsb' 9 7

/-- `imm`, bits 47..16 (R91). -/
def immField (w : Word) : BitVec 32 := w.extractLsb' 16 32

/-- `rsv1`, bits 63..48 (R91). -/
def rsv1Field (w : Word) : BitVec 16 := w.extractLsb' 48 16

/-- Why a word is `Illegal`, one name per case of R94. -/
inductive IllegalWord where
  /-- `op` is in `0x08..0xFF`. -/
  | reservedOpcode
  /-- `rsv1 ≠ 0`. -/
  | rsv1NotZero
  /-- `rsv0 ≠ 0`. -/
  | rsv0NotZero
  /-- `inv = 1` and `op ≠ 0x01`. -/
  | invNotAllowed
  /-- `imm ≠ 0` and `op` is neither `0x03` nor `0x04`. -/
  | immNotAllowed
  deriving DecidableEq, Repr

/-- A command with neither selector nor immediate: both fields must be 0 (R91). -/
def decodePlain (i : Instr) (w : Word) : Except IllegalWord Instr :=
  if invField w ≠ 0 then .error .invNotAllowed
  else if immField w ≠ 0 then .error .immNotAllowed
  else .ok i

/-- Opcode `0x01`: the selector bit tells `SBOX.F` from `SBOX.I` (R93). -/
def decodeSbox (w : Word) : Except IllegalWord Instr :=
  if immField w ≠ 0 then .error .immNotAllowed
  else if invField w = 0 then .ok .sboxF
  else .ok .sboxI

/-- A command that takes the immediate; the selector bit must be 0 (R91, R92). -/
def decodeImm (mk : Nat → Instr) (w : Word) : Except IllegalWord Instr :=
  if invField w ≠ 0 then .error .invNotAllowed
  else .ok (mk (immField w).toNat)

/-- The opcode map (R93): total on every word, an illegal one rejected by the name of its case (R94). -/
def decode (w : Word) : Except IllegalWord Instr :=
  if rsv1Field w ≠ 0 then .error .rsv1NotZero
  else if rsv0Field w ≠ 0 then .error .rsv0NotZero
  else match (opField w).toNat with
    | 0 => decodePlain .nop w
    | 1 => decodeSbox w
    | 2 => decodePlain .mdsmul w
    | 3 => decodeImm .addrc w
    | 4 => decodeImm .round w
    | 5 => decodePlain .permute w
    | 6 => decodePlain .mdsgen w
    | 7 => decodePlain .clrstat w
    | _ => .error .reservedOpcode

/-- Format `C` with the reserved fields 0 (R91). -/
def formatC (imm : Nat) (inv : BitVec 1) (op : BitVec 8) : Word :=
  (0 : BitVec 16) ++ BitVec.ofNat 32 imm ++ (0 : BitVec 7) ++ inv ++ op

/-- The word of a command (R93, R104). -/
def encode : Instr → Word
  | .nop => formatC 0 0 0x00
  | .sboxF => formatC 0 0 0x01
  | .sboxI => formatC 0 1 0x01
  | .mdsmul => formatC 0 0 0x02
  | .addrc k => formatC k 0 0x03
  | .round i => formatC i 0 0x04
  | .permute => formatC 0 0 0x05
  | .mdsgen => formatC 0 0 0x06
  | .clrstat => formatC 0 0 0x07

/-- The command a table word stands for: the word's low `nbits` bits, every bit above them 0, given to
`decode` as the 64-bit word the host writes to `CMD` (R90). -/
def decodeTableWord (nbits w : Nat) : Option Instr :=
  (decode (BitVec.ofNat 64 (w % 2 ^ nbits))).toOption

end Sys2Proof
end

