-- ==== Sys2Proof/Machine/State.lean ====
section
/-! DEFINITION. The machine's state as plain data, its reset, and the reasons a step can stop
(spec/10_state.md R20 to R49, spec/70_reset_and_hazards.md R260).

One field per item of R20's tuple, then the model's own fields (marked so): the instance parameters, the
micro-position of the sequencer, the events the outside world still has for the machine, and the counters
of the free values. -/

namespace Sys2Proof.Machine

open Sys2Proof.Config

/-- `PHASE`: the step of the round to perform next (R44).  Values 6 and 7 of the 3-bit field never occur. -/
inductive Phase where
  | sboxF | mdsA | injA | sboxI | mdsB | injB
  deriving DecidableEq, Repr

/-- `ERRCODE`: none, or one of the eight errors of R223 (U6: no other code exists). -/
inductive ErrCode where
  | noError | illcmd | nrounds | rclen | index | alpha | range | gdist | pivot
  deriving DecidableEq, Repr

/-- One store as the words written to it since reset: pairs of a word offset in the store's region
(`8 * slot + limb`, R67, R68) and the word there, offsets strictly rising.  A word not listed has not been
written (notes/assumptions/3.md, notes/assumptions/4.md). -/
abbrev Store := List (Nat × Word)

/-- What the interleaving of R45, R76 brings next, seen from the engine.  `tick` is a turn in which the
host does nothing and the sequencer, if busy, takes one step (notes/assumptions/2.md). -/
inductive Input where
  /-- The host is silent for this turn. -/
  | tick
  /-- `MemRead(a, 1)` (R60). -/
  | read (a : HostAddr)
  /-- `MemWrite(a, 1, v)` (R60). -/
  | write (a : HostAddr) (v : Word)
  /-- The reset input (R260). -/
  | reset
  deriving DecidableEq, Repr

/-- Why a step faults. -/
inductive Fault where
  /-- Raised by the sequencer when `BUSY = 1` and `OPL` does not hold an executing command.  SAFE: R46 and
  R96 say this never happens, and no run reaches such a state (notes/assumptions/11.md). -/
  | oplHoldsNoExecutingCommand
  deriving DecidableEq, Repr

/-- Why a step is refused. -/
inductive Refusal where
  /-- Raised by an arm of `exec` that has no meaning yet.  SAFE; no arm of this model raises it. -/
  | notModelled (mnemonic : String)
  deriving DecidableEq, Repr

/-- The state of one engine (R20). -/
structure State where
  /-- MODEL: the instance parameters `P`, `m`, `G`, `RC_DEPTH` (R4); no step changes them
  (notes/assumptions/1.md). -/
  inst : Instance
  /-- `x`, the state vector (R21). -/
  x : Store
  /-- `MDS`, the matrix store (R24). -/
  mds : Store
  /-- `RC`, the constants store (R25). -/
  rc : Store
  /-- `ALPHA` (R35). -/
  alpha : Nat
  /-- `ALPHA_INV` (R35). -/
  alphaInv : Nat
  /-- `NROUNDS` (R32). -/
  nrounds : BitVec 32
  /-- `RCLEN` (R33). -/
  rclen : BitVec 32
  /-- `BUSY` (R36). -/
  busy : Bool
  /-- `DONE` (R37). -/
  done : Bool
  /-- `ERR` (R38). -/
  err : Bool
  /-- `DROP` (R39). -/
  drop : Bool
  /-- `ERRCODE` (R31, R223). -/
  errcode : ErrCode
  /-- `ERRINFO` (R31, R223). -/
  errinfo : Word
  /-- `ROUND` (R44). -/
  round : BitVec 32
  /-- `PHASE` (R44). -/
  phase : Phase
  /-- `OPL`, the command being executed; hidden (R46). -/
  opl : Word
  /-- `V`, the scratch matrix of `MDSGEN`, row by row; hidden (R26). -/
  v : List (List Nat)
  /-- MODEL: the command in `OPL` has passed its check step (R142; notes/assumptions/8.md). -/
  checked : Bool
  /-- MODEL: the events still to come, next first; when the list is empty the host is silent for good
  (notes/assumptions/2.md). -/
  inputs : List Input
  /-- MODEL: the word the last read transaction returned (R60; notes/assumptions/7.md). -/
  readData : Word
  /-- MODEL: how many free words busy reads have used (U2; notes/assumptions/5.md). -/
  busyReads : Nat
  /-- MODEL: how many resets the reset input has made, so that unwritten words may differ between resets
  (R48; notes/assumptions/4.md). -/
  resets : Nat
  deriving DecidableEq, Repr

/-- The engine right after reset (R48, R260): every register 0, no word of `x`, `MDS`, `RC` written.
`OPL` and `V` are unspecified and dead; the model clears them (notes/assumptions/6.md). -/
def State.resetOf (I : Instance) (resets : Nat) : State where
  inst := I
  x := []
  mds := []
  rc := []
  alpha := 0
  alphaInv := 0
  nrounds := 0
  rclen := 0
  busy := false
  done := false
  err := false
  drop := false
  errcode := .noError
  errinfo := 0
  round := 0
  phase := .sboxF
  opl := 0
  v := List.replicate I.m (List.replicate (2 * I.m) 0)
  checked := false
  inputs := []
  readData := 0
  busyReads := 0
  resets := resets

/-- The state after reset of the instance the model names (notes/assumptions/1.md). -/
def State.reset : State := State.resetOf resetInstance 0

end Sys2Proof.Machine
end

