-- ==== Sys2Proof/Machine/Ops.lean ====
section
/-! DEFINITION. The named operations over the stores and the registers, error entry and its acknowledgement
(spec/10_state.md, spec/20_memory.md R67 to R74, spec/60_exceptions.md R222, R235). -/

namespace Sys2Proof.Machine

/-! ### A store as a list of written words -/

/-- The word written at an offset, if one has been. -/
def readCell : Store → Nat → Option Word
  | [], _ => none
  | (k, w) :: rest, a => if k = a then some w else readCell rest a

/-- Write one word, keeping the offsets strictly rising. -/
def writeCell : Store → Nat → Word → Store
  | [], a, v => [(a, v)]
  | (k, w) :: rest, a, v =>
    if a < k then (a, v) :: (k, w) :: rest
    else if a = k then (a, v) :: rest
    else (k, w) :: writeCell rest a v

/-- The canonical form: offsets strictly rising, so that equal contents are equal data. -/
def storeSorted : Store → Bool
  | [] => true
  | [_] => true
  | (a, _) :: (b, w) :: rest => decide (a < b) && storeSorted ((b, w) :: rest)

/-- Every listed offset is a limb of one of the first `slots` element slots (R67, R73). -/
def storeWithin (slots limbs : Nat) (st : Store) : Bool :=
  st.all fun e => decide (e.1 / 8 < slots) && decide (e.1 % 8 < limbs)

/-- The store is in its canonical form and lists only words that exist (R73: reserved words store nothing). -/
def storeWf (slots limbs : Nat) (st : Store) : Bool := storeSorted st && storeWithin slots limbs st

/-! ### Limbs -/

/-- `limb(v, l)` (R11). -/
def limb (v l : Nat) : Word := BitVec.ofNat 64 (v / 2 ^ (64 * l))

/-- The number whose limbs are `f 0` to `f (n - 1)`, least significant first (R11, R67). -/
def limbsValue (f : Nat → Word) : Nat → Nat
  | 0 => 0
  | n + 1 => limbsValue f n + (f n).toNat * 2 ^ (64 * n)

/-- `v` with limb `l` replaced by `w` (R35, R69). -/
def setLimb (v l : Nat) (w : Word) : Nat :=
  v % 2 ^ (64 * l) + w.toNat * 2 ^ (64 * l) + v / 2 ^ (64 * (l + 1)) * 2 ^ (64 * (l + 1))

/-- Write the low `n` limbs of `v` at offsets `base`, `base + 1`, ... (R67). -/
def writeLimbs (st : Store) (base v : Nat) : (n : Nat) → Store
  | 0 => st
  | n + 1 => writeCell (writeLimbs st base v n) (base + n) (limb v n)

/-- Write `f k` into slot `k` for every `k < n`, each slot with `limbs` limbs (R67, R68). -/
def writeSlots (st : Store) (limbs : Nat) (f : Nat → Nat) : (n : Nat) → Store
  | 0 => st
  | n + 1 => writeLimbs (writeSlots st limbs f n) (8 * n) (f n) limbs

/-! ### The three stores (R21, R24, R25).  An unwritten word is a free value (U1). -/

/-- First word address of the `x` region (R66). -/
def xBase : Nat := 0x000100

/-- First word address of the `MDS` region (R66). -/
def mdsBase : Nat := 0x002000

/-- First word address of the `RC` region (R66). -/
def rcBase : Nat := 0x100000

/-- The word a store holds at an offset: the written one, or the free value of the word's address. -/
def storeWord (st : Store) (resets base off : Nat) : Word :=
  (readCell st off).getD (Config.unwrittenWord resets (base + off))

/-- A word of the `x` region by its offset. -/
def State.xWord (s : State) (off : Nat) : Word := storeWord s.x s.resets xBase off

/-- A word of the `MDS` region by its offset. -/
def State.mdsWord (s : State) (off : Nat) : Word := storeWord s.mds s.resets mdsBase off

/-- A word of the `RC` region by its offset. -/
def State.rcWord (s : State) (off : Nat) : Word := storeWord s.rc s.resets rcBase off

/-- The value in slot `k` of a store whose words are `f` (R67). -/
def slotValue (f : Nat → Word) (limbs k : Nat) : Nat := limbsValue (fun l => f (8 * k + l)) limbs

/-- `x[j]` (R21). -/
def State.xVal (s : State) (j : Nat) : Nat := slotValue s.xWord s.inst.L j

/-- The `e`-th slot of the matrix store, row by row (R68). -/
def State.mdsSlot (s : State) (e : Nat) : Nat := slotValue s.mdsWord s.inst.L e

/-- `MDS[i][j]` (R24, R68). -/
def State.mdsVal (s : State) (i j : Nat) : Nat := s.mdsSlot (i * s.inst.m + j)

/-- `RC[k]` (R25). -/
def State.rcVal (s : State) (k : Nat) : Nat := slotValue s.rcWord s.inst.L k

/-- `x <- f`, all elements together: `f` has been given the state from before (R18). -/
def State.setX (s : State) (f : Nat → Nat) : State :=
  { s with x := writeSlots s.x s.inst.L f s.inst.m }

/-- All `m * m` entries of the matrix store, `f e` into slot `e` (R168). -/
def State.setMds (s : State) (f : Nat → Nat) : State :=
  { s with mds := writeSlots s.mds s.inst.L f (s.inst.m * s.inst.m) }

/-! ### Errors: entry and acknowledgement -/

/-- What an error records: its code and its detail value (R223). -/
abbrev ErrRecord := ErrCode × Word

/-- `raise <Error>(info)`, the error entry (R222): taking the engine's one kind of exception. -/
def State.raise (s : State) (e : ErrRecord) : State :=
  { s with errcode := e.1, errinfo := e.2, err := true, done := false, busy := false }

/-- The acknowledgement of an error, which also clears the other status bits (R183, R235). -/
def State.acknowledge (s : State) : State :=
  { s with done := false, err := false, drop := false, errcode := .noError, errinfo := 0 }

/-- Take the first error of a list of tests, in the list's order (R232). -/
def firstError : List (Option ErrRecord) → Option ErrRecord
  | [] => none
  | some e :: _ => some e
  | none :: rest => firstError rest

/-- A step that makes all its tests before its first change (R233): error entry if a test fails, else `ok`. -/
def State.checkedStep (s : State) (test : Option ErrRecord) (ok : State) : State :=
  match test with
  | some e => s.raise e
  | none => ok

/-! ### Acceptance and completion -/

/-- Acceptance of an executing command (R96).  `checked` is the model's: the check step is still to come. -/
def State.accept (s : State) (w : Word) : State :=
  { s with opl := w, done := false, busy := true, checked := false }

/-- The step that ends a command without error (R36, R37). -/
def State.complete (s : State) : State := { s with done := true, busy := false, checked := false }

/-- `pc <- (r, ph)` (R18, R44). -/
def State.setPosition (s : State) (r : BitVec 32) (ph : Phase) : State :=
  { s with round := r, phase := ph }

/-- The phase after a phase of the same round (R44). -/
def Phase.next : Phase → Phase
  | .sboxF => .mdsA
  | .mdsA => .injA
  | .injA => .sboxI
  | .sboxI => .mdsB
  | .mdsB => .injB
  | .injB => .sboxF

end Sys2Proof.Machine
end

