-- ==== Sys2Proof/Machine/Flags.lean ====
section
/-! DEFINITION. The status flags and the words through which a host reads them (spec/10_state.md R30, R31,
R36 to R39).  The engine has no arithmetic condition codes. -/

namespace Sys2Proof.Machine

/-- `PHASE` as its 3 bits (R44). -/
def Phase.code : Phase → BitVec 3
  | .sboxF => 0
  | .mdsA => 1
  | .injA => 2
  | .sboxI => 3
  | .mdsB => 4
  | .injB => 5

/-- `ERRCODE` as its 8 bits (R223). -/
def ErrCode.code : ErrCode → BitVec 8
  | .noError => 0
  | .illcmd => 1
  | .nrounds => 2
  | .rclen => 3
  | .index => 4
  | .alpha => 5
  | .range => 6
  | .gdist => 7
  | .pivot => 8

/-- The `STATUS` word (R30): `ROUND`, 21 reserved bits, `PHASE`, 4 reserved bits, `DROP`, `ERR`, `DONE`, `BUSY`. -/
def State.statusWord (s : State) : Word :=
  s.round ++ (0 : BitVec 21) ++ s.phase.code ++ (0 : BitVec 4) ++
    BitVec.ofBool s.drop ++ BitVec.ofBool s.err ++ BitVec.ofBool s.done ++ BitVec.ofBool s.busy

/-- The `ERRCODE` word (R31). -/
def State.errcodeWord (s : State) : Word := s.errcode.code.setWidth 64

/-- A host write is dropped: nothing changes but `DROP` (R39, R71, R98). -/
def State.dropWrite (s : State) : State := { s with drop := true }

end Sys2Proof.Machine
end

