-- ==== Sys2Proof/Machine/AddressMap.lean ====
section
/-! DEFINITION. The address map (spec/20_memory.md R66 to R68, R73) and the words it shows
(spec/10_state.md R27 to R35). -/

namespace Sys2Proof.Machine

open Sys2Proof.Config

/-- What a word address names (R66).  A limb number counts within its slot; an offset counts words within
the region of its store. -/
inductive Loc where
  | id | param0 | param1 | cmd | status | errcode | errinfo | nrounds | rclen
  | p (l : Nat) | g (l : Nat) | alpha (l : Nat) | alphaInv (l : Nat)
  | x (off : Nat) | mds (off : Nat) | rc (off : Nat)
  /-- Reserved: reads as 0 and ignores writes (R73). -/
  | reserved
  deriving DecidableEq, Repr

/-- The word address of `CMD` (R29). -/
def cmdAddr : HostAddr := 0x000003

/-- The word address of `STATUS` (R30). -/
def statusAddr : HostAddr := 0x000004

/-- Word `l` of a register that is one element slot: a limb, or reserved from word `L` on (R67, R73). -/
def slotWord (I : Instance) (loc : Nat → Loc) (l : Nat) : Loc := if l < I.L then loc l else .reserved

/-- Word `off` of a store region of which `slots` slots exist (R68, R73). -/
def regionWord (I : Instance) (slots : Nat) (loc : Nat → Loc) (off : Nat) : Loc :=
  if off / 8 < slots ∧ off % 8 < I.L then loc off else .reserved

/-- The registers below the store regions (R66). -/
def locateRegister (I : Instance) (a : Nat) : Loc :=
  if a = 0x00 then .id
  else if a = 0x01 then .param0
  else if a = 0x02 then .param1
  else if a = 0x03 then .cmd
  else if a = 0x04 then .status
  else if a = 0x05 then .errcode
  else if a = 0x06 then .errinfo
  else if a = 0x07 then .nrounds
  else if a = 0x08 then .rclen
  else if 0x10 ≤ a ∧ a < 0x18 then slotWord I .p (a - 0x10)
  else if 0x18 ≤ a ∧ a < 0x20 then slotWord I .g (a - 0x18)
  else if 0x20 ≤ a ∧ a < 0x28 then slotWord I .alpha (a - 0x20)
  else if 0x28 ≤ a ∧ a < 0x30 then slotWord I .alphaInv (a - 0x28)
  else .reserved

/-- The address lies in the `x` region (R66). -/
def inXRegion (a : Nat) : Bool := decide (0x000100 ≤ a) && decide (a < 0x000200)

/-- The address lies in the `MDS` region (R66). -/
def inMdsRegion (a : Nat) : Bool := decide (0x002000 ≤ a) && decide (a < 0x004000)

/-- The address lies in the `RC` region (R66). -/
def inRcRegion (a : Nat) : Bool := decide (0x100000 ≤ a) && decide (a < 0x200000)

/-- The address map (R66). -/
def locate (I : Instance) (a : Nat) : Loc :=
  if inXRegion a then regionWord I I.m .x (a - xBase)
  else if inMdsRegion a then regionWord I (I.m * I.m) .mds (a - mdsBase)
  else if inRcRegion a then regionWord I I.rcDepth .rc (a - rcBase)
  else locateRegister I a

/-- `ID` (R27). -/
def idWord : Word := 0x0000000152504531

/-- `PARAM0` (R28): 24 reserved bits, `L`, `W`, `m`. -/
def param0Word (I : Instance) : Word :=
  (0 : BitVec 24) ++ BitVec.ofNat 8 I.L ++ BitVec.ofNat 16 I.W ++ BitVec.ofNat 16 I.m

/-- `PARAM1` (R28): 32 reserved bits, `RC_DEPTH`. -/
def param1Word (I : Instance) : Word := (0 : BitVec 32) ++ BitVec.ofNat 32 I.rcDepth

/-- The word a location holds while the engine is idle (R27 to R35, R72, R73). -/
def State.locWord (s : State) : Loc → Word
  | .id => idWord
  | .param0 => param0Word s.inst
  | .param1 => param1Word s.inst
  | .cmd => 0
  | .status => s.statusWord
  | .errcode => s.errcodeWord
  | .errinfo => s.errinfo
  | .nrounds => s.nrounds.setWidth 64
  | .rclen => s.rclen.setWidth 64
  | .p l => limb s.inst.P l
  | .g l => limb s.inst.G l
  | .alpha l => limb s.alpha l
  | .alphaInv l => limb s.alphaInv l
  | .x off => s.xWord off
  | .mds off => s.mdsWord off
  | .rc off => s.rcWord off
  | .reserved => 0

/-- A data write to a location while the engine is idle: stores the word where the location is RW, changes
nothing where it is RO or reserved (R70, R73).  `CMD` is not a data location: its writes issue (R95). -/
def State.storeLoc (s : State) (loc : Loc) (v : Word) : State :=
  match loc with
  | .nrounds => { s with nrounds := v.setWidth 32 }
  | .rclen => { s with rclen := v.setWidth 32 }
  | .alpha l => { s with alpha := setLimb s.alpha l v }
  | .alphaInv l => { s with alphaInv := setLimb s.alphaInv l v }
  | .x off => { s with x := writeCell s.x off v }
  | .mds off => { s with mds := writeCell s.mds off v }
  | .rc off => { s with rc := writeCell s.rc off v }
  | .id | .param0 | .param1 | .cmd | .status | .errcode | .errinfo | .p _ | .g _ | .reserved => s

end Sys2Proof.Machine
end

