-- ==== Sys2Proof/Machine/Control.lean ====
section
/-! DEFINITION. The two commands that compute nothing (spec/45_control.md).  Both take effect inside the
write transaction that issues them (spec/30_encoding.md R99). -/

namespace Sys2Proof.Machine

/-- `NOP` (R181). -/
def execNop (s : State) : Host.Outcome State Fault Refusal := .next s

/-- `CLRSTAT` (R183). -/
def execClrstat (s : State) : Host.Outcome State Fault Refusal := .next s.acknowledge

end Sys2Proof.Machine
end

