-- ==== Sys2Proof/Machine/Field.lean ====
section
/-! DEFINITION. Arithmetic modulo the prime (spec/00_scope.md R12 to R16, R19), over the naturals with the
modulus as first argument.  How hardware computes these results is not architectural (R14); the powers here
are computed by squaring so that the model runs on 255-bit exponents. -/

namespace Sys2Proof.Machine

/-- `fadd(a, b)` (R12). -/
def fadd (P a b : Nat) : Nat := (a + b) % P

/-- `fsub(a, b)` (R13). -/
def fsub (P a b : Nat) : Nat := (a + P - b) % P

/-- `fmul(a, b)` (R14). -/
def fmul (P a b : Nat) : Nat := (a * b) % P

/-- One bit of the exponent: the power so far squared, and multiplied by `a` where the bit is 1. -/
def powBit (P a bit h : Nat) : Nat :=
  if bit = 1 then fmul P (fmul P h h) a else fmul P h h

/-- The power by the low `n` bits of `e`, most significant bit first. -/
def powBits (P a : Nat) : (n e : Nat) → Nat
  | 0, _ => 1 % P
  | n + 1, e => powBit P a (e % 2) (powBits P a n (e / 2))

/-- `fpow(a, e)` (R15), by repeated squaring over the bits of `e` (notes/assumptions/14.md). -/
def fpow (P a e : Nat) : Nat := powBits P a (e.log2 + 1) e

/-- `finv(a)`, which R16 says equals `fpow(a, P - 2)`; its only user tests for 0 first (R166). -/
def finv (P a : Nat) : Nat := fpow P a (P - 2)

/-- The sum of `f 0` to `f (n - 1)` over the naturals (R19). -/
def sumTo (f : Nat → Nat) : Nat → Nat
  | 0 => 0
  | n + 1 => sumTo f n + f n

end Sys2Proof.Machine
end

