-- ==== Sys2Proof/Machine/Operands.lean ====
section
/-! DEFINITION. What a command reads besides its word: the exponent the selector picks, the chunk base of an
injection, and the detail words of the errors (spec/30_encoding.md R92, spec/40_sbox.md R111,
spec/42_addrc.md R132, spec/60_exceptions.md R223). -/

namespace Sys2Proof.Machine

/-- The forward/inverse selector: 0 picks `ALPHA`, 1 picks `ALPHA_INV` (R111). -/
def State.exponent (s : State) (sel : Bool) : Nat := if sel then s.alphaInv else s.alpha

/-- `InjBase(i, half) = 2*i*m + half*m` over the naturals (R132). -/
def injBase (m i half : Nat) : Nat := 2 * i * m + half * m

/-- An immediate or a 32-bit register as a detail word, zero-extended (R223). -/
def infoNat (n : Nat) : Word := BitVec.ofNat 64 n

/-- `{region, index}`, 32 bits each (R223, R229). -/
def rangeInfo (region index : Nat) : Word := BitVec.ofNat 32 region ++ BitVec.ofNat 32 index

end Sys2Proof.Machine
end

