-- ==== Sys2Proof/Machine/MdsGen.lean ====
section
/-! DEFINITION. The MDS matrix generator (spec/44_mdsgen.md). -/

namespace Sys2Proof.Machine

/-- A matrix, row by row. -/
abbrev Matrix := List (List Nat)

/-- The entry in row `r`, column `c`. -/
def entry (V : Matrix) (r c : Nat) : Nat := (V.getD r []).getD c 0

/-- The matrix of `rows` rows and `cols` columns whose entries are `f r c`. -/
def buildMatrix (rows cols : Nat) (f : Nat → Nat → Nat) : Matrix :=
  (List.range rows).map fun r => (List.range cols).map fun c => f r c

/-- The evaluation point `pts[j] = G^j` (R163). -/
def point (P G j : Nat) : Nat := fpow P G j

/-- The point of index `b` is zero or repeats an earlier one (R163). -/
def badPoint (P G b : Nat) : Bool :=
  point P G b == 0 || (List.range b).any fun a => point P G a == point P G b

/-- The first bad one of the indices `b`, ..., `b + n - 1`. -/
def firstBadPoint (P G : Nat) : (n b : Nat) → Option Nat
  | 0, _ => none
  | n + 1, b => if badPoint P G b then some b else firstBadPoint P G n (b + 1)

/-- `CheckPoints()`: the indices `1` to `2m - 1` in ascending order (R163). -/
def checkPoints (P G m : Nat) : Option Nat := firstBadPoint P G (2 * m - 1) 1

/-- `FillV()` (R164). -/
def fillV (P G m : Nat) : Matrix := buildMatrix m (2 * m) fun i j => fpow P G (i * j)

/-- The pivot row of column `k`, scaled so that the pivot becomes 1 (R165). -/
def pivotRow (P k : Nat) (V : Matrix) (j : Nat) : Nat := fmul P (entry V k j) (finv P (entry V k k))

/-- One iteration of `Eliminate()`: scale row `k`, subtract it from every other row (R165). -/
def eliminateColumn (P m k : Nat) (V : Matrix) : Matrix :=
  buildMatrix m (2 * m) fun r j =>
    if r = k then pivotRow P k V j
    else fsub P (entry V r j) (fmul P (entry V r k) (pivotRow P k V j))

/-- `Eliminate()` for `n` columns from column `k`: the matrix reached, and the column of a zero pivot if one
stopped it (R165, R166). -/
def eliminateFrom (P m : Nat) : (n k : Nat) → Matrix → Matrix × Option Nat
  | 0, _, V => (V, none)
  | n + 1, k, V =>
    if entry V k k = 0 then (V, some k) else eliminateFrom P m n (k + 1) (eliminateColumn P m k V)

/-- `Eliminate()` on the matrix of `FillV()` (R165). -/
def eliminate (P G m : Nat) : Matrix × Option Nat := eliminateFrom P m m 0 (fillV P G m)

/-- `WriteMds()`: `MDS[i][j] <- V[j][m + i]`, the transpose of the right-hand block (R168). -/
def State.writeMds (s : State) (V : Matrix) : State :=
  s.setMds fun e => entry V (e % s.inst.m) (s.inst.m + e / s.inst.m)

/-- The part of `MDSGEN` after its points have passed: fill, eliminate, and write or raise `E_PIVOT`
(R162, R166, R169). -/
def State.mdsgenMatrix (s : State) (r : Matrix × Option Nat) : State :=
  match r.2 with
  | some k => State.raise { s with v := r.1 } (.pivot, infoNat k)
  | none => (State.writeMds { s with v := r.1 } r.1).complete

/-- `MDSGEN` (R162). -/
def execMdsgen (s : State) : Host.Outcome State Fault Refusal :=
  .next (match checkPoints s.inst.P s.inst.G s.inst.m with
    | some b => s.raise (.gdist, infoNat b)
    | none => s.mdsgenMatrix (eliminate s.inst.P s.inst.G s.inst.m))

end Sys2Proof.Machine
end

