-- ==== Sys2Proof/Machine/Checks.lean ====
section
/-! DEFINITION. The tests of the check steps, one definition per error (spec/60_exceptions.md R225 to R229).
Each answers the error it finds, if any; the commands list them in the order of R232. -/

namespace Sys2Proof.Machine

/-- An error record if the condition holds. -/
def errIf (cond : Bool) (e : ErrCode) (info : Word) : Option ErrRecord :=
  if cond then some (e, info) else none

/-- `E_NROUNDS` (R225), for `PERMUTE`. -/
def State.checkNrounds (s : State) : Option ErrRecord :=
  errIf (s.nrounds == 0 || decide (s.inst.rcDepth < 2 * s.inst.m * s.nrounds.toNat)) .nrounds
    (infoNat s.nrounds.toNat)

/-- `E_RCLEN` as `PERMUTE` tests it: the declared length is not exactly `2*m*N` (R226). -/
def State.checkRclenExact (s : State) : Option ErrRecord :=
  errIf (s.rclen.toNat != 2 * s.inst.m * s.nrounds.toNat) .rclen (infoNat s.rclen.toNat)

/-- `E_RCLEN` as `ADDRC` and `ROUND` test it: the declared length exceeds the store (R226). -/
def State.checkRclenFits (s : State) : Option ErrRecord :=
  errIf (decide (s.inst.rcDepth < s.rclen.toNat)) .rclen (infoNat s.rclen.toNat)

/-- `E_INDEX` (R227): constants up to, not including, `last` are asked for and fewer are declared. -/
def State.checkIndex (s : State) (last imm : Nat) : Option ErrRecord :=
  errIf (decide (s.rclen.toNat < last)) .index (infoNat imm)

/-- `E_ALPHA`, the product test (R228). -/
def State.checkAlpha (s : State) : Option ErrRecord :=
  errIf ((s.alpha * s.alphaInv) % (s.inst.P - 1) != 1 % (s.inst.P - 1)) .alpha 0

/-- The lowest of the indices `k`, ..., `k + n - 1` whose value is not below `P` (R229). -/
def firstUnreduced (P : Nat) (f : Nat → Nat) : (n k : Nat) → Option Nat
  | 0, _ => none
  | n + 1, k => if P ≤ f k then some k else firstUnreduced P f n (k + 1)

/-- `E_RANGE` over `n` slots of a region from index `k` (R229). -/
def checkRange (P region : Nat) (f : Nat → Nat) (n k : Nat) : Option ErrRecord :=
  (firstUnreduced P f n k).map fun bad => (.range, rangeInfo region bad)

/-- `E_RANGE`, region 0: all of `x` (R229). -/
def State.checkX (s : State) : Option ErrRecord := checkRange s.inst.P 0 s.xVal s.inst.m 0

/-- `E_RANGE`, region 1: all of `MDS` (R229). -/
def State.checkMds (s : State) : Option ErrRecord :=
  checkRange s.inst.P 1 s.mdsSlot (s.inst.m * s.inst.m) 0

/-- `E_RANGE`, region 2: `n` constants from slot `k` (R229). -/
def State.checkRc (s : State) (n k : Nat) : Option ErrRecord := checkRange s.inst.P 2 s.rcVal n k

end Sys2Proof.Machine
end

