-- ==== Sys2Proof/Machine/AddRc.lean ====
section
/-! DEFINITION. The round-constant injector, the constant adder and their command (spec/42_addrc.md). -/

namespace Sys2Proof.Machine

/-- `InjStep(b)` (R134): constant `b + j` added to element `j`. -/
def State.injStep (s : State) (b : Nat) : State :=
  s.setX fun j => fadd s.inst.P (s.xVal j) (s.rcVal (b + j))

/-- The tests of `ADDRC k`, in order (R133, R232). -/
def State.addrcChecks (s : State) (k : Nat) : Option ErrRecord :=
  firstError [s.checkRclenFits, s.checkIndex (k + s.inst.m) k, s.checkX, s.checkRc s.inst.m k]

/-- `ADDRC k` (R133). -/
def execAddrc (k : Nat) (s : State) : Host.Outcome State Fault Refusal :=
  .next (s.checkedStep (s.addrcChecks k) (s.injStep k).complete)

end Sys2Proof.Machine
end

