-- ==== Sys2Proof/Machine/MdsMul.lean ====
section
/-! DEFINITION. The MDS multiplier and its command (spec/41_mdsmul.md). -/

namespace Sys2Proof.Machine

/-- `MdsStep()` (R121): `x <- MDS * x`, the sum over the naturals reduced once. -/
def State.mdsStep (s : State) : State :=
  s.setX fun i => sumTo (fun j => s.mdsVal i j * s.xVal j) s.inst.m % s.inst.P

/-- The tests of `MDSMUL`, in order (R122, R232). -/
def State.mdsmulChecks (s : State) : Option ErrRecord := firstError [s.checkX, s.checkMds]

/-- `MDSMUL` (R122). -/
def execMdsmul (s : State) : Host.Outcome State Fault Refusal :=
  .next (s.checkedStep s.mdsmulChecks s.mdsStep.complete)

end Sys2Proof.Machine
end

