-- ==== Sys2Proof/Machine/Sbox.lean ====
section
/-! DEFINITION. The S-box layer and its two commands (spec/40_sbox.md). -/

namespace Sys2Proof.Machine

/-- `SboxStep(sel)` (R114): every element raised to the selected exponent. -/
def State.sboxStep (s : State) (sel : Bool) : State :=
  s.setX fun j => fpow s.inst.P (s.xVal j) (s.exponent sel)

/-- The tests of `SBOX.F` and `SBOX.I`, in order (R112, R232). -/
def State.sboxChecks (s : State) : Option ErrRecord := firstError [s.checkAlpha, s.checkX]

/-- The one sequencer step of a lone S-box layer (R112, R113). -/
def State.sboxCommand (s : State) (sel : Bool) : State :=
  s.checkedStep s.sboxChecks (s.sboxStep sel).complete

/-- `SBOX.F` (R112). -/
def execSboxF (s : State) : Host.Outcome State Fault Refusal := .next (s.sboxCommand false)

/-- `SBOX.I` (R113). -/
def execSboxI (s : State) : Host.Outcome State Fault Refusal := .next (s.sboxCommand true)

end Sys2Proof.Machine
end

