-- ==== Sys2Proof/Machine/Round.lean ====
section
/-! DEFINITION. The round and the permutation (spec/43_round_permute.md).  A meaning here is ONE sequencer
step of the command (R45): the check step while `checked` is false, one phase step after it. -/

namespace Sys2Proof.Machine

/-- The work of the phase at which the position stands (R142). -/
def State.phaseWork (s : State) : State :=
  match s.phase with
  | .sboxF => s.sboxStep false
  | .mdsA => s.mdsStep
  | .injA => s.injStep (injBase s.inst.m s.round.toNat 0)
  | .sboxI => s.sboxStep true
  | .mdsB => s.mdsStep
  | .injB => s.injStep (injBase s.inst.m s.round.toNat 1)

/-- Advance and completion (R143); `last` says whether the round at the position is the command's last. -/
def State.advance (s : State) (last : Bool) : State :=
  match s.phase with
  | .injB =>
    let t := s.setPosition (s.round + 1) .sboxF
    if last then t.complete else t
  | ph => s.setPosition s.round ph.next

/-- `PhaseStep()`: the phase's work and the advance, one sequencer step (R142, R143). -/
def State.phaseStep (s : State) (last : Bool) : State := s.phaseWork.advance last

/-- A check step that has passed: the position is set and the phase steps follow (R141, R147). -/
def State.startAt (s : State) (r : BitVec 32) : State :=
  { s.setPosition r .sboxF with checked := true }

/-- The tests of `ROUND i`, in order (R141, R232). -/
def State.roundChecks (s : State) (i : Nat) : Option ErrRecord :=
  firstError [s.checkRclenFits, s.checkIndex (2 * s.inst.m * (i + 1)) i, s.checkAlpha, s.checkX,
    s.checkMds, s.checkRc (2 * s.inst.m) (injBase s.inst.m i 0)]

/-- `ROUND i` (R141): the check step, then the six phase steps of one round. -/
def execRound (i : Nat) (s : State) : Host.Outcome State Fault Refusal :=
  .next (if s.checked then s.phaseStep true
    else s.checkedStep (s.roundChecks i) (s.startAt (BitVec.ofNat 32 i)))

/-- The tests of `PERMUTE`, in order (R147, R232). -/
def State.permuteChecks (s : State) : Option ErrRecord :=
  firstError [s.checkNrounds, s.checkRclenExact, s.checkAlpha, s.checkX, s.checkMds,
    s.checkRc (2 * s.inst.m * s.nrounds.toNat) 0]

/-- The round at the position is round `NROUNDS - 1` (R143). -/
def State.atLastRound (s : State) : Bool := s.round.toNat + 1 == s.nrounds.toNat

/-- `PERMUTE` (R147): the check step, then `6 * NROUNDS` phase steps. -/
def execPermute (s : State) : Host.Outcome State Fault Refusal :=
  .next (if s.checked then s.phaseStep s.atLastRound
    else s.checkedStep s.permuteChecks (s.startAt 0))

end Sys2Proof.Machine
end

