-- ==== Sys2Proof/Machine/Dispatch.lean ====
section
/-! DEFINITION. One arm per command: what the engine does when it performs that command.  For `NOP` and
`CLRSTAT` this is the effect inside the write transaction (spec/30_encoding.md R99); for an executing
command it is its next sequencer step (spec/10_state.md R45; notes/assumptions/10.md). -/

namespace Sys2Proof.Machine

def exec (i : Instr) (s : State) : Host.Outcome State Fault Refusal :=
  match i with
  | .nop => Sys2Proof.Machine.execNop s
  | .sboxF => Sys2Proof.Machine.execSboxF s
  | .sboxI => Sys2Proof.Machine.execSboxI s
  | .mdsmul => Sys2Proof.Machine.execMdsmul s
  | .addrc k => Sys2Proof.Machine.execAddrc k s
  | .round r => Sys2Proof.Machine.execRound r s
  | .permute => Sys2Proof.Machine.execPermute s
  | .mdsgen => Sys2Proof.Machine.execMdsgen s
  | .clrstat => Sys2Proof.Machine.execClrstat s

end Sys2Proof.Machine
end

