-- ==== Sys2Proof/Machine/HostPort.lean ====
section
/-! DEFINITION. Host-port transactions and the issue of commands (spec/20_memory.md R60 to R73,
spec/30_encoding.md R95 to R99).  Each transaction is one atomic step. -/

namespace Sys2Proof.Machine

/-- A command the sequencer performs, not one that acts inside its write transaction (R96, R99). -/
def executing : Instr → Bool
  | .nop | .clrstat => false
  | .sboxF | .sboxI | .mdsmul | .addrc _ | .round _ | .permute | .mdsgen => true

/-- R72 leaves this read open: any word of the `x` or `MDS` region while `BUSY = 1` (U2). -/
def State.readIsFree (s : State) (a : Nat) : Bool := s.busy && (inXRegion a || inMdsRegion a)

/-- The word `MemRead(a, 1)` returns (R72). -/
def State.portWord (s : State) (a : Nat) : Word :=
  if s.readIsFree a then Config.busyReadWord s.busyReads else s.locWord (locate s.inst a)

/-- `MemRead(a, 1)`: no side effect on the engine (R65); the word returned stands in `readData`, and a free
word is used up. -/
def State.hostRead (s : State) (a : HostAddr) : State :=
  { s with
    readData := s.portWord a.toNat
    busyReads := if s.readIsFree a.toNat then s.busyReads + 1 else s.busyReads }

/-- A write of `w` to `CMD` with `BUSY = 0` (R95): R96 and R98 for an executing command, R97 and R98 for an
illegal word, R99 for `NOP` and `CLRSTAT`. -/
def issue (w : Word) (s : State) : Host.Outcome State Fault Refusal :=
  match decode w with
  | .ok i =>
    if executing i then .next (if s.err then s.dropWrite else s.accept w)
    else exec i s
  | .error _ => .next (if s.err then s.dropWrite else s.raise (.illcmd, w))

/-- `MemWrite(a, 1, v)` (R70, R71, R95). -/
def hostWrite (a : HostAddr) (v : Word) (s : State) : Host.Outcome State Fault Refusal :=
  if s.busy then .next s.dropWrite
  else if a = cmdAddr then issue v s
  else .next (s.storeLoc (locate s.inst a.toNat) v)

/-- The reset input (R260, R261): the registers and stores of R48, whatever the engine was doing; the
instance and the outside world go on. -/
def State.hostReset (s : State) : State :=
  { State.resetOf s.inst (s.resets + 1) with
    inputs := s.inputs, readData := s.readData, busyReads := s.busyReads }

/-- A state in which the next step runs the word `w` (notes/assumptions/10.md).  An executing command
stands in `OPL`, accepted, and the host is silent for the next turn; any other word is the data of a
pending write to `CMD` that the engine can take. -/
def State.withCommand (s : State) (w : Word) : State :=
  match (decode w).toOption.map executing with
  | some true => { s.accept w with inputs := .tick :: s.inputs }
  | _ => { s with busy := false, inputs := .write cmdAddr w :: s.inputs }

end Sys2Proof.Machine
end

