-- ==== Sys2Proof/Machine/Sequencer.lean ====
section
/-! DEFINITION. The sequencer's turn (spec/10_state.md R45, R46). -/

namespace Sys2Proof.Machine

/-- One turn of the sequencer: nothing while `BUSY = 0`; otherwise the next step of the command in `OPL`. -/
def sequencer (s : State) : Host.Outcome State Fault Refusal :=
  if s.busy then
    match decode s.opl with
    | .ok i => if executing i then exec i s else .fault .oplHoldsNoExecutingCommand
    | .error _ => .fault .oplHoldsNoExecutingCommand
  else .next s

/-- The event the interleaving brings next, performed as one atomic step (R45, R76). -/
def perform (e : Input) (s : State) : Host.Outcome State Fault Refusal :=
  match e with
  | .tick => sequencer s
  | .read a => .next (s.hostRead a)
  | .write a v => hostWrite a v s
  | .reset => .next s.hostReset

end Sys2Proof.Machine
end

