-- ==== Sys2Proof/Machine/Step.lean ====
section
/-! DEFINITION. One step of the system (spec/10_state.md R45, spec/20_memory.md R76): the next event of the
interleaving, or the sequencer's turn once the host has gone silent. -/

namespace Sys2Proof.Machine

/-- One step: the head of `inputs` is taken off and performed. -/
def step (s : State) : Host.Outcome State Fault Refusal :=
  match s.inputs with
  | [] => perform .tick s
  | e :: rest => perform e { s with inputs := rest }

/-- `s` with the word of an instruction placed where the next step takes its command from. -/
def State.withFetchWord (s : State) (nbits w : Nat) : State :=
  s.withCommand (BitVec.ofNat 64 (w % 2 ^ nbits))

end Sys2Proof.Machine
end

