-- ==== Sys2Proof/Machine/HostProcedures.lean ====
section
/-! DEFINITION. The procedures the host runs before it loads the engine (spec/46_host_procedures.md): the
round-count estimator, the round-constant generator, the exponent inverse, and the one configuration value
derived from them (R207).  They are no commands and have
no hardware state; their errors are the host's (R221).  The extendable-output function and the seed encoding
are arguments, as the spec leaves them open (R197, R198; notes/assumptions/16.md). -/

namespace Sys2Proof.Machine

/-- The host-side configuration errors (R191, R194, R206). -/
inductive HostError where
  | unsupportedSecurityLevel | badRate | roundSearchExhausted | alphaNotCoprime
  deriving DecidableEq, Repr

/-- The supported security levels (R191, R199). -/
def levelSupported (level : Nat) : Bool := level == 128 || level == 160

/-- `dcon(i)` (R192). -/
def dcon (m alpha i : Nat) : Nat := (alpha - 1) * m * (i - 1) / 2 + 2

/-- `v(i)` (R192). -/
def vbound (m rate i : Nat) : Nat := m * (i - 1) + rate

/-- `C(n, k) = n! / (k! (n - k)!)` (R193). -/
def binomial (n k : Nat) : Nat := n.factorial / (k.factorial * (n - k).factorial)

/-- The security inequality for `i` rounds (R193). -/
def roundsSuffice (m rate level alpha i : Nat) : Bool :=
  decide (2 ^ level < binomial (vbound m rate i + dcon m alpha i) (vbound m rate i) ^ 2)

/-- `ROUND_SEARCH_BOUND` (R193). -/
def roundSearchBound : Nat := 24

/-- The first of the candidates `i`, ..., `i + n - 1` that satisfies the inequality (R193). -/
def searchRounds (m rate level alpha : Nat) : (n i : Nat) → Option Nat
  | 0, _ => none
  | n + 1, i => if roundsSuffice m rate level alpha i then some i else searchRounds m rate level alpha n (i + 1)

/-- `N = ceil(1.5 * max(5, i0))` (R195). -/
def roundCount (i0 : Nat) : Nat := (3 * max 5 i0 + 1) / 2

/-- `estimate_rounds` (R190 to R195).  The field size `p` is an argument no formula reads (R190); the level is
tested before the rate, and `alpha = 0` is refused as not coprime (U12; notes/assumptions/13.md). -/
def estimateRounds (_p m capacity level alpha : Nat) : Except HostError Nat :=
  if !levelSupported level then .error .unsupportedSecurityLevel
  else if m < capacity + 1 then .error .badRate
  else if alpha = 0 then .error .alphaNotCoprime
  else match searchRounds m (m - capacity) level alpha roundSearchBound 1 with
    | some i0 => .ok (roundCount i0)
    | none => .error .roundSearchExhausted

/-- A byte of the generator's stream. -/
abbrev Byte := BitVec 8

/-- `bytes_per_int` (R200). -/
def bytesPerInt (p : Nat) : Nat := (p.log2 + 1 + 7) / 8 + 1

/-- A chunk of `n` bytes as a little-endian base-256 integer (R202). -/
def rawChunk (chunk : Nat → Byte) (n : Nat) : Nat := sumTo (fun t => (chunk t).toNat * 256 ^ t) n

/-- Constant `k` of a stream (R201). -/
def constantAt (stream : Nat → Byte) (p k : Nat) : Nat :=
  rawChunk (fun t => stream (k * bytesPerInt p + t)) (bytesPerInt p) % p

/-- `generate_constants` (R197 to R201): the level is checked before the seed is made (R199). -/
def generateConstants (xof : List Byte → Nat → Byte) (seedEncode : Nat → Nat → Nat → Nat → List Byte)
    (level p m capacity N : Nat) : Except HostError (List Nat) :=
  if !levelSupported level then .error .unsupportedSecurityLevel
  else .ok ((List.range (2 * m * N)).map (constantAt (xof (seedEncode p m capacity level)) p))

/-- Euclid's algorithm on `(r0, r1)`, carrying the coefficients of the second starting number. -/
def euclid : (fuel : Nat) → (r0 r1 : Nat) → (t0 t1 : Int) → Int
  | 0, _, _, t0, _ => t0
  | n + 1, r0, r1, t0, t1 =>
    if r1 = 0 then t0 else euclid n r1 (r0 % r1) t1 (t0 - (r0 / r1 : Nat) * t1)

/-- The inverse of `a` modulo `n`, for `a` coprime to `n`. -/
def modInverse (a n : Nat) : Nat := (euclid (n + 1) n (a % n) 0 1 % n).toNat

/-- The derivation of `alpha_inv` (R206): the coprimality check, then the inverse modulo `p - 1` (R17).
DESIGN CHOICE: `alpha` has no upper bound here, as the spec names none (notes/assumptions/24.md). -/
def deriveAlphaInv (p alpha : Nat) : Except HostError Nat :=
  if Nat.gcd alpha (p - 1) ≠ 1 then .error .alphaNotCoprime else .ok (modInverse alpha (p - 1))

/-! ### The configuration as a whole (R207) -/

/-- The one tuple `(p, m, capacity, security_level, alpha)` from which everything is derived (R207). -/
structure ParameterSet where
  p : Nat
  m : Nat
  capacity : Nat
  level : Nat
  alpha : Nat
  deriving DecidableEq, Repr

/-- The immutable configuration value: the tuple with what the host derives from it (R207). -/
structure Configuration extends ParameterSet where
  alphaInv : Nat
  N : Nat
  constants : List Nat
  deriving DecidableEq, Repr

/-- The configuration of one tuple (R207): the exponent inverse, whose coprimality check the host makes
first (R192, R206), then the round count (R190), then the constants for that round count (R197).  The first
step that fails is the configuration error. -/
def configure (xof : List Byte → Nat → Byte) (seedEncode : Nat → Nat → Nat → Nat → List Byte)
    (t : ParameterSet) : Except HostError Configuration :=
  match deriveAlphaInv t.p t.alpha with
  | .error e => .error e
  | .ok alphaInv =>
    match estimateRounds t.p t.m t.capacity t.level t.alpha with
    | .error e => .error e
    | .ok N =>
      match generateConstants xof seedEncode t.level t.p t.m t.capacity N with
      | .error e => .error e
      | .ok constants => .ok ⟨t, alphaInv, N, constants⟩

end Sys2Proof.Machine
end

