-- ==== Sys2Proof/Machine/Permutation.lean ====
section
/-! DEFINITION. The permutation as a function on vectors (spec/43_round_permute.md R149), written with the
naturals' own powers and sums.  No step calls these: the statements compare the machine with them. -/

namespace Sys2Proof.Machine

/-- `Sbox(e, s)[j] = fpow(s[j], e)` (R149). -/
def sboxVec (P e : Nat) (s : Nat → Nat) (j : Nat) : Nat := s j ^ e % P

/-- `Mds(s) = MDS * s` (R149, R19). -/
def mdsVec (P m : Nat) (M : Nat → Nat → Nat) (s : Nat → Nat) (i : Nat) : Nat :=
  (∑ j ∈ Finset.range m, M i j * s j) % P

/-- `Inj(b, s)[j] = fadd(s[j], RC[b + j])` (R149). -/
def injVec (P : Nat) (rc : Nat → Nat) (b : Nat) (s : Nat → Nat) (j : Nat) : Nat := (s j + rc (b + j)) % P

/-- What a permutation is a function of besides its state (R149). -/
structure PermArgs where
  P : Nat
  m : Nat
  M : Nat → Nat → Nat
  rc : Nat → Nat
  alpha : Nat
  alphaInv : Nat

/-- `Round_i(s)` (R149). -/
def roundVec (A : PermArgs) (i : Nat) (s : Nat → Nat) : Nat → Nat :=
  injVec A.P A.rc (2 * i * A.m + A.m)
    (mdsVec A.P A.m A.M
      (sboxVec A.P A.alphaInv
        (injVec A.P A.rc (2 * i * A.m)
          (mdsVec A.P A.m A.M (sboxVec A.P A.alpha s)))))

/-- `Round_(n-1)( ... Round_1(Round_0(s)) ... )`; `Perm(s)` is this for `n = N` (R149). -/
def permVec (A : PermArgs) : (n : Nat) → (Nat → Nat) → Nat → Nat
  | 0, s => s
  | n + 1, s => roundVec A n (permVec A n s)

end Sys2Proof.Machine
end

