-- ==== Sys2Proof/Safety.lean ====
section
/-! DEFINITION. What a legal state is and what a run is: the terms the statements use.  Each part of the
invariant is a rule of the spec about every state between two steps (spec/10_state.md R20, R35, R38, R44,
R46, R49; spec/43_round_permute.md R142). -/

namespace Sys2Proof.Machine

/-- The stores keep their canonical form and list only words that exist (R68, R73). -/
def State.storesOk (s : State) : Bool :=
  storeWf s.inst.m s.inst.L s.x && storeWf (s.inst.m * s.inst.m) s.inst.L s.mds &&
    storeWf s.inst.rcDepth s.inst.L s.rc

/-- The exponents fit their slots (R35). -/
def State.exponentsOk (s : State) : Bool :=
  decide (s.alpha < 2 ^ (64 * s.inst.L)) && decide (s.alphaInv < 2 ^ (64 * s.inst.L))

/-- The scratch matrix is `m * 2m` field elements (R20). -/
def State.scratchOk (s : State) : Bool :=
  decide (s.v.length = s.inst.m) && s.v.all fun row =>
    decide (row.length = 2 * s.inst.m) && row.all fun a => decide (a < s.inst.P)

/-- At most one of `BUSY`, `DONE`, `ERR` is 1 (R38); `ERRCODE` is 0 exactly while `ERR = 0`,
and `ERRINFO` is 0 then (R49). -/
def State.statusOk (s : State) : Bool :=
  !(s.busy && s.done) && !(s.busy && s.err) && !(s.done && s.err) &&
    (s.err == (s.errcode != .noError)) && (s.err || s.errinfo == 0)

/-- A command that has passed its check step would still pass it, and the position is inside it (R142, R233). -/
def State.runs (s : State) : Instr → Bool
  | .round i => decide (s.round.toNat = i) && (s.roundChecks i).isNone
  | .permute => decide (s.round.toNat < s.nrounds.toNat) && s.permuteChecks.isNone
  | .nop | .sboxF | .sboxI | .mdsmul | .addrc _ | .mdsgen | .clrstat => false

/-- While `BUSY = 1`, `OPL` holds an executing command (R46, R96), and phases begin only after its check
step; while `BUSY = 0`, `PHASE = 0` (R49). -/
def State.sequencerOk (s : State) : Bool :=
  if s.busy then
    match decode s.opl with
    | .ok i => executing i && (if s.checked then s.runs i else s.phase == .sboxF)
    | .error _ => false
  else !s.checked && s.phase == .sboxF

/-- The invariant of every step. -/
abbrev State.Inv (s : State) : Prop :=
  s.storesOk = true ∧ s.exponentsOk = true ∧ s.scratchOk = true ∧ s.statusOk = true ∧ s.sequencerOk = true

/-- `n` steps, stopping at a fault or a refusal. -/
def stepN : (n : Nat) → State → Host.Outcome State Fault Refusal
  | 0, s => .next s
  | n + 1, s =>
    match step s with
    | .next t => stepN n t
    | .fault r => .fault r
    | .refused r => .refused r

/-! ### Terms of the statements -/

/-- The exponent pair passes the product test (R228). -/
abbrev State.pairOk (s : State) : Prop := (s.alpha * s.alphaInv) % (s.inst.P - 1) = 1

/-- Every element of `x` is a field element (R10). -/
abbrev State.xReduced (s : State) : Prop := ∀ j < s.inst.m, s.xVal j < s.inst.P

/-- Every entry of `MDS` is a field element (R10). -/
abbrev State.mdsReduced (s : State) : Prop := ∀ e < s.inst.m * s.inst.m, s.mdsSlot e < s.inst.P

/-- The `n` constants from slot `k` on are field elements (R10). -/
abbrev State.rcReduced (s : State) (k n : Nat) : Prop := ∀ a < n, s.rcVal (k + a) < s.inst.P

/-- What makes the check step of `ROUND i` pass (R141). -/
abbrev State.roundReady (s : State) (i : Nat) : Prop :=
  s.rclen.toNat ≤ s.inst.rcDepth ∧ 2 * s.inst.m * (i + 1) ≤ s.rclen.toNat ∧ s.pairOk ∧ s.xReduced ∧
    s.mdsReduced ∧ s.rcReduced (2 * i * s.inst.m) (2 * s.inst.m)

/-- What makes the check step of `PERMUTE` pass (R147). -/
abbrev State.permuteReady (s : State) : Prop :=
  s.nrounds.toNat ≠ 0 ∧ 2 * s.inst.m * s.nrounds.toNat ≤ s.inst.rcDepth ∧
    s.rclen.toNat = 2 * s.inst.m * s.nrounds.toNat ∧ s.pairOk ∧ s.xReduced ∧ s.mdsReduced ∧
    s.rcReduced 0 (2 * s.inst.m * s.nrounds.toNat)

/-- `ROUND i` passes its tests on the declared length (R226, R227). -/
abbrev State.roundLengthsOk (s : State) (i : Nat) : Prop :=
  s.rclen.toNat ≤ s.inst.rcDepth ∧ 2 * s.inst.m * (i + 1) ≤ s.rclen.toNat

/-- `PERMUTE` passes its tests on the round count and the declared length (R225, R226). -/
abbrev State.permuteLengthsOk (s : State) : Prop :=
  s.nrounds.toNat ≠ 0 ∧ 2 * s.inst.m * s.nrounds.toNat ≤ s.inst.rcDepth ∧
    s.rclen.toNat = 2 * s.inst.m * s.nrounds.toNat

/-- The reserved addresses (R73): the gaps of the map, the slots of a region beyond the instance's, and
words `L` to 7 of every slot. -/
abbrev reservedAddress (I : Config.Instance) (a : Nat) : Prop :=
  (9 ≤ a ∧ a < 0x000010) ∨ (0x000030 ≤ a ∧ a < 0x000100) ∨ (0x000200 ≤ a ∧ a < 0x002000) ∨
    (0x004000 ≤ a ∧ a < 0x100000) ∨ 0x200000 ≤ a ∨ (0x000010 ≤ a ∧ I.L ≤ a % 8) ∨
    (0x000100 ≤ a ∧ a < 0x000200 ∧ I.m ≤ (a - 0x000100) / 8) ∨
    (0x002000 ≤ a ∧ a < 0x004000 ∧ I.m * I.m ≤ (a - 0x002000) / 8) ∨
    (0x100000 ≤ a ∧ a < 0x200000 ∧ I.rcDepth ≤ (a - 0x100000) / 8)

/-- The addresses of the read-only registers `ID`, `PARAM0`, `PARAM1`, `STATUS`, `ERRCODE`, `ERRINFO`, `P`
and `G` (R66, R70). -/
abbrev readOnlyAddress (a : Nat) : Prop :=
  a = 0 ∨ a = 1 ∨ a = 2 ∨ a = 4 ∨ a = 5 ∨ a = 6 ∨ (0x000010 ≤ a ∧ a < 0x000020)

/-- The addresses of the `x` and `MDS` regions, whose reads R72 leaves open while `BUSY = 1`. -/
abbrev freeWhileBusy (a : Nat) : Prop :=
  (0x000100 ≤ a ∧ a < 0x000200) ∨ (0x002000 ≤ a ∧ a < 0x004000)

/-- The arguments of the permutation that a state holds (R149). -/
def State.permArgs (s : State) : PermArgs where
  P := s.inst.P
  m := s.inst.m
  M := s.mdsVal
  rc := s.rcVal
  alpha := s.alpha
  alphaInv := s.alphaInv

/-- The words of the `x` region that are no limb of `x[0]`, ..., `x[m-1]` read the same in both states. -/
def sameReservedX (s t : State) : Prop :=
  ∀ off, s.inst.m ≤ off / 8 ∨ s.inst.L ≤ off % 8 → t.xWord off = s.xWord off

/-- The words of the `MDS` region that are no limb of an entry read the same in both states. -/
def sameReservedMds (s t : State) : Prop :=
  ∀ off, s.inst.m * s.inst.m ≤ off / 8 ∨ s.inst.L ≤ off % 8 → t.mdsWord off = s.mdsWord off

/-- `t` is `s` after a command that wrote nothing but `x` and ended without error. -/
def doneChangingX (s t : State) : Prop :=
  t = { s with x := t.x, done := true, busy := false, checked := false } ∧ sameReservedX s t

/-- The state after the error entry of an error (R222): nothing else of `s` changes. -/
def withError (s : State) (code : ErrCode) (info : Word) : State :=
  { s with errcode := code, errinfo := info, err := true, done := false, busy := false }

/-- The evaluation point of index `b` is zero or repeats an earlier one (R163). -/
abbrev repeatsOrVanishes (P G b : Nat) : Prop := G ^ b % P = 0 ∨ ∃ a < b, G ^ a % P = G ^ b % P

/-- A read of `a` in `s` returns `w`. -/
def readReturns (s : State) (a : HostAddr) (w : Word) : Prop :=
  ∃ t, step { s with inputs := [.read a] } = .next t ∧ t.readData = w

/-- The command `i`, accepted in `s`, and then `n` turns of the sequencer. -/
def acceptAndRun (i : Instr) (n : Nat) (s : State) : Host.Outcome State Fault Refusal :=
  stepN n (s.accept (encode i))

/-- `ROUND 0` to `ROUND n-1`, each run to its end. -/
def runRounds : (n : Nat) → State → Host.Outcome State Fault Refusal
  | 0, s => .next s
  | n + 1, s =>
    match runRounds n s with
    | .next t => acceptAndRun (.round n) 7 t
    | .fault r => .fault r
    | .refused r => .refused r

end Sys2Proof.Machine
end

