-- ==== Sys2Proof/Certificates/Slice0/Obligations.lean ====
section
/-! DEFINITION. The statements for the provers, each from a rule of spec/.  A comparison with the
naturals' own arithmetic is preferred to the model's helper, so that a statement says what the spec says. -/

open Sys2Proof Sys2Proof.Machine Sys2Proof.Config

/-! ### Encoding (spec/30_encoding.md) -/

/-- Decode and encode agree on every command format `C` can carry (R91, R92, R93). -/
def Obligations.DecodeOfEncode : Prop :=
  ∀ i : Instr, i.wellFormed = true → decode (encode i) = .ok i

/-- Each word has at most one meaning, and it is the one that encodes back to it (R93). -/
def Obligations.EncodeOfDecode : Prop :=
  ∀ (w : Word) (i : Instr), decode w = .ok i → i.wellFormed = true ∧ encode i = w

/-- A word is illegal exactly in the five cases of R94, and only the zero word is `NOP`. -/
def Obligations.IllegalWordsExactly : Prop :=
  ∀ w : Word,
    ((∃ r, decode w = .error r) ↔
      8 ≤ w.toNat % 2 ^ 8 ∨ w.toNat / 2 ^ 48 ≠ 0 ∨ w.toNat / 2 ^ 9 % 2 ^ 7 ≠ 0 ∨
        (w.toNat / 2 ^ 8 % 2 = 1 ∧ w.toNat % 2 ^ 8 ≠ 1) ∨
        (w.toNat / 2 ^ 16 % 2 ^ 32 ≠ 0 ∧ w.toNat % 2 ^ 8 ≠ 3 ∧ w.toNat % 2 ^ 8 ≠ 4)) ∧
    (decode w = .ok .nop ↔ w = 0)

/-- The rows of R105. -/
def Obligations.EncodingExamples : Prop :=
  decode 0x0000000000000000 = .ok .nop ∧ decode 0x0000000000000001 = .ok .sboxF ∧
  decode 0x0000000000000101 = .ok .sboxI ∧ decode 0x0000000000000002 = .ok .mdsmul ∧
  decode 0x0000000000000003 = .ok (.addrc 0) ∧ decode 0x0000000000020003 = .ok (.addrc 2) ∧
  decode 0x0000000000510003 = .ok (.addrc 81) ∧
  decode 0x0000FFFFFFFF0003 = .ok (.addrc 4294967295) ∧
  decode 0x0000000000000004 = .ok (.round 0) ∧ decode 0x00000000000D0004 = .ok (.round 13) ∧
  decode 0x0000000000000005 = .ok .permute ∧ decode 0x0000000000000006 = .ok .mdsgen ∧
  decode 0x0000000000000007 = .ok .clrstat ∧
  decode 0x0000000000000008 = .error .reservedOpcode ∧
  decode 0x0000000000000102 = .error .invNotAllowed ∧
  decode 0x0000000000010005 = .error .immNotAllowed ∧
  decode 0x0001000000000003 = .error .rsv1NotZero ∧
  decode 0x0000000000000103 = .error .invNotAllowed ∧
  decode 0x0000000000000201 = .error .rsv0NotZero

/-! ### Field arithmetic (spec/00_scope.md) -/

/-- Subtraction is the field's: its formula, and the one difference that gives the minuend back (R13). -/
def Obligations.SubtractionInvertsAddition : Prop :=
  ∀ P a b : Nat, a < P → b < P →
    fsub P a b = (a + P - b) % P ∧ fsub P a b < P ∧ fadd P (fsub P a b) b = a ∧
    ∀ d < P, fadd P d b = a → d = fsub P a b

/-- The power computed by squaring is the one of the recurrence (R15). -/
def Obligations.PowersFollowTheRecurrence : Prop :=
  ∀ P a e : Nat, 2 ≤ P →
    fpow P a 0 = 1 ∧ fpow P a (e + 1) = fmul P (fpow P a e) a ∧ fpow P a e = a ^ e % P

/-- `finv` is the inverse of the field, and the only one (R16). -/
def Obligations.InverseIsTheFieldInverse : Prop :=
  ∀ (I : Instance) (a : Nat), 0 < a → a < I.P →
    finv I.P a < I.P ∧ fmul I.P a (finv I.P a) = 1 ∧ ∀ b < I.P, fmul I.P a b = 1 → b = finv I.P a

/-- What passing the product test implies (R228), and the exponentiation round trip (R17). -/
def Obligations.PassingPairInverts : Prop :=
  ∀ (I : Instance) (e d : Nat), (e * d) % (I.P - 1) = 1 →
    Nat.gcd e (I.P - 1) = 1 ∧ e ≠ 0 ∧ d ≠ 0 ∧ ∀ a < I.P, fpow I.P (fpow I.P a e) d = a

/-! ### A step and the command it runs -/

/-- While busy, a turn of the sequencer runs the command that `OPL` decodes to (R45, R46): `step` takes the
event off `inputs`, if one is there, and adds nothing else around `exec`.  The list of events is the
model's (notes/assumptions/2.md, 10.md). -/
def Obligations.StepRunsTheCommandInOpl : Prop :=
  ∀ (s : State) (i : Instr), s.busy = true → decode s.opl = .ok i → executing i = true →
    (s.inputs = [] → step s = exec i s) ∧
    (∀ rest, s.inputs = .tick :: rest → step s = exec i { s with inputs := rest })

/-- `NOP` completes inside its write transaction, whatever `ERR` is, and changes nothing (R99, R181). -/
def Obligations.NopCompletes : Prop :=
  ∀ s : State, exec .nop s = .next s ∧
    ∀ rest, s.busy = false → s.inputs = .write cmdAddr (encode .nop) :: rest →
      step s = .next { s with inputs := rest }

/-- `CLRSTAT` completes inside its write transaction, whatever `ERR` is, and clears the status (R99, R183). -/
def Obligations.ClrstatCompletes : Prop :=
  ∀ s : State,
    exec .clrstat s =
      .next { s with done := false, err := false, drop := false, errcode := .noError, errinfo := 0 } ∧
    ∀ rest, s.busy = false → s.inputs = .write cmdAddr (encode .clrstat) :: rest →
      step s = .next { s with
        inputs := rest, done := false, err := false, drop := false, errcode := .noError, errinfo := 0 }

/-- After `withFetchWord`, the very next step runs the command of the word.  What `withFetchWord` sets is
the model's choice (notes/assumptions/10.md). -/
def Obligations.NextStepRunsThePlacedCommand : Prop :=
  ∀ (s : State) (i : Instr), i.wellFormed = true →
    step (s.withFetchWord 64 (encode i).toNat) =
      if executing i then exec i (s.accept (encode i)) else exec i { s with busy := false }

/-! ### Reset (spec/10_state.md R48, spec/70_reset_and_hazards.md R260, R261) -/

/-- After reset every register reads 0 and no word of a store has been written, on every instance (R48). -/
def Obligations.ResetLeavesTheStatedValues : Prop :=
  ∀ (I : Instance) (n : Nat),
    (State.resetOf I n).statusWord = 0 ∧ (State.resetOf I n).errcodeWord = 0 ∧
    (State.resetOf I n).errinfo = 0 ∧ (State.resetOf I n).nrounds = 0 ∧ (State.resetOf I n).rclen = 0 ∧
    (State.resetOf I n).alpha = 0 ∧ (State.resetOf I n).alphaInv = 0 ∧
    ∀ off, readCell (State.resetOf I n).x off = none ∧ readCell (State.resetOf I n).mds off = none ∧
      readCell (State.resetOf I n).rc off = none

/-- The reset input gives the state after reset from every state, also while a command runs (R260, R261).
The counters and `readData` are the model's (notes/assumptions/4.md, 5.md, 7.md), as are the cleared `OPL`
and `V` (6.md). -/
def Obligations.ResetInputAbandonsEverything : Prop :=
  ∀ (s : State) (rest : List Input), s.inputs = .reset :: rest →
    step s = .next { State.resetOf s.inst (s.resets + 1) with
      inputs := rest, readData := s.readData, busyReads := s.busyReads }

/-- The invariant holds after reset of every instance.  Its clause about the scratch matrix holds by the
model's choice of a cleared `V` (notes/assumptions/6.md). -/
def Obligations.ResetSatisfiesInv : Prop := ∀ (I : Instance) (n : Nat), (State.resetOf I n).Inv

/-- Every step keeps the invariant: the stores' canonical form (R68, R73), the exponents within their slots
(R35), the status flags (R38, R49), what `OPL`, `PHASE` and the position hold (R44, R46, R142). -/
def Obligations.EveryStepKeepsInv : Prop :=
  ∀ s t : State, s.Inv → step s = .next t → t.Inv

/-- From a state with the invariant a step always answers a next state: every transaction and every command
word has a defined outcome (U13, R142, R233). -/
def Obligations.LegalStatesNeverStop : Prop := ∀ s : State, s.Inv → ∃ t, step s = .next t

/-! ### Issue of a command (spec/30_encoding.md R95 to R99, spec/20_memory.md R71) -/

/-- Acceptance of an executing command (R96). -/
def Obligations.ExecutingCommandIsAccepted : Prop :=
  ∀ (s : State) (i : Instr) (rest : List Input), s.busy = false → s.err = false → executing i = true →
    i.wellFormed = true → s.inputs = .write cmdAddr (encode i) :: rest →
      step s = .next { s with
        inputs := rest, opl := encode i, done := false, busy := true, checked := false }

/-- An illegal word raises `E_ILLCMD` in the write transaction itself (R97). -/
def Obligations.IllegalWordIsReported : Prop :=
  ∀ (s : State) (w : Word) (r : IllegalWord) (rest : List Input), s.busy = false → s.err = false →
    decode w = .error r → s.inputs = .write cmdAddr w :: rest →
      ∃ t, step s = .next t ∧ t.errcodeWord = 1 ∧ t.busy = false ∧
        t = { s with inputs := rest, errcode := .illcmd, errinfo := w, err := true, done := false }

/-- While `ERR = 1` a word that is not `NOP` or `CLRSTAT` is dropped (R98). -/
def Obligations.ErrGatesCommands : Prop :=
  ∀ (s : State) (w : Word) (rest : List Input), s.busy = false → s.err = true →
    ((∃ i, decode w = .ok i ∧ executing i = true) ∨ ∃ r, decode w = .error r) →
    s.inputs = .write cmdAddr w :: rest → step s = .next { s with inputs := rest, drop := true }

/-- While `BUSY = 1` every host write is dropped, to any address (R71). -/
def Obligations.BusyDropsEveryWrite : Prop :=
  ∀ (s : State) (a : HostAddr) (v : Word) (rest : List Input), s.busy = true →
    s.inputs = .write a v :: rest → step s = .next { s with inputs := rest, drop := true }

/-- A running command is unaffected by a dropped write: with `DROP` set its next step does the same (R71,
hazard H-1). -/
def Obligations.DroppedWriteDoesNotDisturb : Prop :=
  ∀ s t : State, sequencer s = .next t →
    sequencer { s with drop := true } = .next { t with drop := true }

/-! ### Host reads (spec/10_state.md R27 to R34, spec/20_memory.md R65, R72, R73) -/

/-- The `STATUS` word field by field, at any time (R30). -/
def Obligations.StatusWordFields : Prop :=
  ∀ s : State, ∃ w, readReturns s statusAddr w ∧
    w.toNat = s.busy.toNat + 2 * s.done.toNat + 4 * s.err.toNat + 8 * s.drop.toNat +
      2 ^ 8 * s.phase.code.toNat + 2 ^ 32 * s.round.toNat

/-- `ID`, `PARAM0`, `PARAM1`, `CMD`, and the limbs of `P` and `G` (R27, R28, R29, R34, R73). -/
def Obligations.IdentificationWords : Prop :=
  ∀ s : State,
    readReturns s 0x000000 0x0000000152504531 ∧
    (∃ w, readReturns s 0x000001 w ∧
      w.toNat = s.inst.m + 2 ^ 16 * s.inst.W + 2 ^ 32 * s.inst.L) ∧
    (∃ w, readReturns s 0x000002 w ∧ w.toNat = s.inst.rcDepth) ∧
    readReturns s cmdAddr 0 ∧
    ∀ l < 8, ∃ p g, readReturns s (BitVec.ofNat 24 (0x000010 + l)) p ∧
      readReturns s (BitVec.ofNat 24 (0x000018 + l)) g ∧
      (l < s.inst.L → p.toNat = s.inst.P / 2 ^ (64 * l) % 2 ^ 64 ∧
        g.toNat = s.inst.G / 2 ^ (64 * l) % 2 ^ 64) ∧
      (s.inst.L ≤ l → p = 0 ∧ g = 0)

/-- A read changes nothing of the engine (R65): only the word returned and the model's counter of free
words (notes/assumptions/5.md, 7.md). -/
def Obligations.ReadsHaveNoSideEffect : Prop :=
  ∀ (s : State) (a : HostAddr) (rest : List Input), s.inputs = .read a :: rest →
    ∃ w n, step s = .next { s with inputs := rest, readData := w, busyReads := n }

/-- While `BUSY = 1` a read of the `x` or `MDS` region returns the next free word, and a read of a constant slot
still its limb (R72, U2).  The sequence of free words and its counter are the model's
(notes/assumptions/5.md), and so is the reading that reserved words of the two regions count among the free
ones (9.md). -/
def Obligations.BusyReadsAreFree : Prop :=
  ∀ (s : State) (a : HostAddr), s.busy = true →
    ((0x000100 ≤ a.toNat ∧ a.toNat < 0x000200 ∨ 0x002000 ≤ a.toNat ∧ a.toNat < 0x004000) →
      step { s with inputs := [.read a] } = .next { s with
        inputs := [], readData := busyReadWord s.busyReads, busyReads := s.busyReads + 1 }) ∧
    (∀ k l, k < s.inst.rcDepth → l < s.inst.L → a.toNat = 0x100000 + 8 * k + l →
      readReturns s a (limb (s.rcVal k) l))

/-- Reads return what is stored (R31, R32, R33, R35, R67, R68, R69, R72): at any time `ERRCODE` with the codes
of R223, `ERRINFO`, `NROUNDS`, `RCLEN`, and limb by limb the exponents and the constants; while idle also
`x` and `MDS`, limb by limb. -/
def Obligations.StoreReadsReturnLimbs : Prop :=
  ∀ s : State,
    (∃ w, readReturns s 0x000005 w ∧ w.toNat =
      match s.errcode with
      | .noError => 0
      | .illcmd => 1
      | .nrounds => 2
      | .rclen => 3
      | .index => 4
      | .alpha => 5
      | .range => 6
      | .gdist => 7
      | .pivot => 8) ∧
    readReturns s 0x000006 s.errinfo ∧
    (∃ w, readReturns s 0x000007 w ∧ w.toNat = s.nrounds.toNat) ∧
    (∃ w, readReturns s 0x000008 w ∧ w.toNat = s.rclen.toNat) ∧
    ∀ l < s.inst.L,
      readReturns s (BitVec.ofNat 24 (0x000020 + l)) (limb s.alpha l) ∧
      readReturns s (BitVec.ofNat 24 (0x000028 + l)) (limb s.alphaInv l) ∧
      (∀ k < s.inst.rcDepth, readReturns s (BitVec.ofNat 24 (0x100000 + 8 * k + l)) (limb (s.rcVal k) l)) ∧
      (s.busy = false →
        (∀ j < s.inst.m, readReturns s (BitVec.ofNat 24 (0x000100 + 8 * j + l)) (limb (s.xVal j) l)) ∧
        ∀ i < s.inst.m, ∀ j < s.inst.m,
          readReturns s (BitVec.ofNat 24 (0x002000 + 8 * (i * s.inst.m + j) + l)) (limb (s.mdsVal i j) l))

/-- The reserved addresses read as 0 while idle, and while `BUSY = 1` too outside the two regions whose reads
are then open (R72, R73, U4); a write while idle to a reserved address or a read-only register changes
nothing, `DROP` included (R70, R73). -/
def Obligations.ReservedAddressesAreInert : Prop :=
  ∀ (s : State) (a : HostAddr),
    (reservedAddress s.inst a.toNat → (s.busy = false ∨ ¬ freeWhileBusy a.toNat) → readReturns s a 0) ∧
    (s.busy = false → (reservedAddress s.inst a.toNat ∨ readOnlyAddress a.toNat) →
      ∀ v, step { s with inputs := [.write a v] } = .next { s with inputs := [] })

/-! ### Host writes while idle (spec/20_memory.md R67 to R70) -/

/-- A write to limb `l` of `x[j]` changes that limb and nothing else (R68, R69, R70). -/
def Obligations.HostWriteStoresXLimb : Prop :=
  ∀ (s : State) (j l : Nat) (v : Word), s.busy = false → j < s.inst.m → l < s.inst.L →
    ∃ t, step { s with inputs := [.write (BitVec.ofNat 24 (0x000100 + 8 * j + l)) v] } = .next t ∧
      limb (t.xVal j) l = v ∧ (∀ k < s.inst.L, k ≠ l → limb (t.xVal j) k = limb (s.xVal j) k) ∧
      (∀ off, off ≠ 8 * j + l → t.xWord off = s.xWord off) ∧
      t = { s with inputs := [], x := t.x }

/-- A write to limb `l` of `MDS[i][j]` changes that limb and nothing else (R68, R69, R70). -/
def Obligations.HostWriteStoresMdsLimb : Prop :=
  ∀ (s : State) (i j l : Nat) (v : Word), s.busy = false → i < s.inst.m → j < s.inst.m → l < s.inst.L →
    ∃ t, step { s with
        inputs := [.write (BitVec.ofNat 24 (0x002000 + 8 * (i * s.inst.m + j) + l)) v] } = .next t ∧
      limb (t.mdsVal i j) l = v ∧
      (∀ k < s.inst.L, k ≠ l → limb (t.mdsVal i j) k = limb (s.mdsVal i j) k) ∧
      (∀ off, off ≠ 8 * (i * s.inst.m + j) + l → t.mdsWord off = s.mdsWord off) ∧
      t = { s with inputs := [], mds := t.mds }

/-- A write to limb `l` of `RC[k]` changes that limb and nothing else; `RCLEN` is not touched (R33, R68,
R69, R70). -/
def Obligations.HostWriteStoresRcLimb : Prop :=
  ∀ (s : State) (k l : Nat) (v : Word), s.busy = false → k < s.inst.rcDepth → l < s.inst.L →
    ∃ t, step { s with inputs := [.write (BitVec.ofNat 24 (0x100000 + 8 * k + l)) v] } = .next t ∧
      limb (t.rcVal k) l = v ∧ (∀ n < s.inst.L, n ≠ l → limb (t.rcVal k) n = limb (s.rcVal k) n) ∧
      (∀ off, off ≠ 8 * k + l → t.rcWord off = s.rcWord off) ∧
      t = { s with inputs := [], rc := t.rc }

/-- Writes to `NROUNDS`, `RCLEN` (bits 31..0 only) and to a limb of an exponent (R32, R33, R35, R70). -/
def Obligations.HostWriteStoresRegisters : Prop :=
  ∀ (s : State) (v : Word), s.busy = false →
    (∃ n : BitVec 32, n.toNat = v.toNat % 2 ^ 32 ∧
      step { s with inputs := [.write 0x000007 v] } = .next { s with inputs := [], nrounds := n } ∧
      step { s with inputs := [.write 0x000008 v] } = .next { s with inputs := [], rclen := n }) ∧
    ∀ l < s.inst.L,
      (∃ e, step { s with inputs := [.write (BitVec.ofNat 24 (0x000020 + l)) v] } =
          .next { s with inputs := [], alpha := e } ∧
        ∀ k, limb e k = if k = l then v else limb s.alpha k) ∧
      (∃ e, step { s with inputs := [.write (BitVec.ofNat 24 (0x000028 + l)) v] } =
          .next { s with inputs := [], alphaInv := e } ∧
        ∀ k, limb e k = if k = l then v else limb s.alphaInv k)

/-! ### The datapath commands (spec/40_sbox.md to spec/42_addrc.md) -/

/-- `SBOX.F` raises every element to `ALPHA` and `SBOX.I` to `ALPHA_INV`, and they end without error; nothing
but `x` and the status changes (R111, R112, R113, R114). -/
def Obligations.SboxRaisesEveryElement : Prop :=
  ∀ s : State, s.pairOk → s.xReduced →
    (∃ t, exec .sboxF s = .next t ∧ doneChangingX s t ∧
      ∀ j < s.inst.m, t.xVal j = s.xVal j ^ s.alpha % s.inst.P) ∧
    (∃ t, exec .sboxI s = .next t ∧ doneChangingX s t ∧
      ∀ j < s.inst.m, t.xVal j = s.xVal j ^ s.alphaInv % s.inst.P)

/-- `MDSMUL` replaces `x` by `MDS * x` from the old `x` and ends without error; nothing but `x` and the
status changes (R120, R121, R122). -/
def Obligations.MdsmulMultiplies : Prop :=
  ∀ s : State, s.xReduced → s.mdsReduced →
    ∃ t, exec .mdsmul s = .next t ∧ doneChangingX s t ∧
      ∀ i < s.inst.m,
        t.xVal i = (∑ j ∈ Finset.range s.inst.m, s.mdsVal i j * s.xVal j) % s.inst.P

/-- `ADDRC k` adds constant `k + j` to element `j` and ends without error; nothing but `x` and the status
changes (R131, R133, R134). -/
def Obligations.AddrcAddsTheChunk : Prop :=
  ∀ (s : State) (k : Nat), s.rclen.toNat ≤ s.inst.rcDepth → k + s.inst.m ≤ s.rclen.toNat → s.xReduced →
    s.rcReduced k s.inst.m →
    ∃ t, exec (.addrc k) s = .next t ∧ doneChangingX s t ∧
      ∀ j < s.inst.m, t.xVal j = (s.xVal j + s.rcVal (k + j)) % s.inst.P

/-- `SBOX.F` then `SBOX.I`, and the other way round, leave every element as it was (R115). -/
def Obligations.SboxRoundTrip : Prop :=
  ∀ s : State, s.pairOk → s.xReduced →
    (∃ t u, exec .sboxF s = .next t ∧ exec .sboxI t = .next u ∧ u.done = true ∧
      ∀ j < s.inst.m, u.xVal j = s.xVal j) ∧
    (∃ t u, exec .sboxI s = .next t ∧ exec .sboxF t = .next u ∧ u.done = true ∧
      ∀ j < s.inst.m, u.xVal j = s.xVal j)

/-- `MDSMUL` is linear over the field: sums and multiples of vectors go through it (R123). -/
def Obligations.MdsmulIsLinear : Prop :=
  ∀ (s u v : State) (c d : Nat), s.xReduced → u.xReduced → v.xReduced → s.mdsReduced →
    u.inst = s.inst → v.inst = s.inst →
    (∀ e < s.inst.m * s.inst.m, u.mdsSlot e = s.mdsSlot e ∧ v.mdsSlot e = s.mdsSlot e) →
    (∀ j < s.inst.m,
      s.xVal j = fadd s.inst.P (fmul s.inst.P c (u.xVal j)) (fmul s.inst.P d (v.xVal j))) →
    ∃ s' u' v', exec .mdsmul s = .next s' ∧ exec .mdsmul u = .next u' ∧ exec .mdsmul v = .next v' ∧
      ∀ i < s.inst.m,
        s'.xVal i = fadd s.inst.P (fmul s.inst.P c (u'.xVal i)) (fmul s.inst.P d (v'.xVal i))

/-! ### The round and the permutation (spec/43_round_permute.md) -/

/-- The check steps of `ROUND i` and `PERMUTE` that pass set the position and change nothing else of the
spec's state (R141, R147).  That the check has passed is noted in the model's `checked`
(notes/assumptions/8.md). -/
def Obligations.CheckStepsSetThePosition : Prop :=
  ∀ s : State, s.checked = false →
    (∀ i, s.roundReady i → exec (.round i) s =
      .next { s with round := BitVec.ofNat 32 i, phase := .sboxF, checked := true }) ∧
    (s.permuteReady → exec .permute s = .next { s with round := 0, phase := .sboxF, checked := true })

/-- One phase step of `ROUND` or `PERMUTE`: the work of the phase on `x`, and the advance and completion
(R132, R142, R143).  `last` is R143's condition: always for `ROUND`, `i + 1 = NROUNDS` for `PERMUTE`. -/
def Obligations.PhaseStepWorksAndAdvances : Prop :=
  ∀ (s : State) (i : Instr) (last : Bool), s.checked = true →
    ((∃ r, i = .round r ∧ last = true) ∨
      (i = .permute ∧ last = decide (s.round.toNat + 1 = s.nrounds.toNat))) →
    ∃ t, exec i s = .next t ∧ sameReservedX s t ∧
      (∀ j < s.inst.m, t.xVal j =
        match s.phase with
        | .sboxF => sboxVec s.inst.P s.alpha s.xVal j
        | .mdsA => mdsVec s.inst.P s.inst.m s.mdsVal s.xVal j
        | .injA => injVec s.inst.P s.rcVal (2 * s.round.toNat * s.inst.m) s.xVal j
        | .sboxI => sboxVec s.inst.P s.alphaInv s.xVal j
        | .mdsB => mdsVec s.inst.P s.inst.m s.mdsVal s.xVal j
        | .injB => injVec s.inst.P s.rcVal (2 * s.round.toNat * s.inst.m + s.inst.m) s.xVal j) ∧
      t =
        match s.phase with
        | .sboxF => { s with x := t.x, phase := .mdsA }
        | .mdsA => { s with x := t.x, phase := .injA }
        | .injA => { s with x := t.x, phase := .sboxI }
        | .sboxI => { s with x := t.x, phase := .mdsB }
        | .mdsB => { s with x := t.x, phase := .injB }
        | .injB =>
          if last then
            { s with x := t.x, round := s.round + 1, phase := .sboxF, done := true, busy := false,
                     checked := false }
          else { s with x := t.x, round := s.round + 1, phase := .sboxF }

/-- `ROUND i`, accepted, ends after seven sequencer steps and not before, with `x <- Round_i(x)` and the
position `(i + 1, 0)` (R141, R143, R149). -/
def Obligations.RoundRunsInSevenSteps : Prop :=
  ∀ (s : State) (i : Nat), s.inputs = [] → s.roundReady i →
    (∀ n < 7, ∃ u, acceptAndRun (.round i) n s = .next u ∧ u.busy = true) ∧
    ∃ t, acceptAndRun (.round i) 7 s = .next t ∧ sameReservedX s t ∧
      (∀ j < s.inst.m, t.xVal j = roundVec s.permArgs i s.xVal j) ∧
      t = { s with x := t.x, opl := encode (.round i), round := BitVec.ofNat 32 (i + 1), phase := .sboxF,
                   done := true, busy := false, checked := false }

/-- `PERMUTE`, accepted, ends after `1 + 6 * NROUNDS` sequencer steps and not before, with `x <- Perm(x)` and
the position `(NROUNDS, 0)` (R143, R147, R149). -/
def Obligations.PermuteComputesThePermutation : Prop :=
  ∀ s : State, s.inputs = [] → s.permuteReady →
    (∀ n < 1 + 6 * s.nrounds.toNat, ∃ u, acceptAndRun .permute n s = .next u ∧ u.busy = true) ∧
    ∃ t, acceptAndRun .permute (1 + 6 * s.nrounds.toNat) s = .next t ∧ sameReservedX s t ∧
      (∀ j < s.inst.m, t.xVal j = permVec s.permArgs s.nrounds.toNat s.xVal j) ∧
      t = { s with x := t.x, opl := encode .permute, round := s.nrounds, phase := .sboxF,
                   done := true, busy := false, checked := false }

/-- `ROUND i` equals its six micro-operations, each run to its end: the same `x`, no error, and the position
left alone (R144). -/
def Obligations.RoundEqualsItsMicroOperations : Prop :=
  ∀ (s : State) (i : Nat), s.inputs = [] → s.roundReady i →
    ∃ t a b c d e f, acceptAndRun (.round i) 7 s = .next t ∧
      acceptAndRun .sboxF 1 s = .next a ∧ acceptAndRun .mdsmul 1 a = .next b ∧
      acceptAndRun (.addrc (2 * i * s.inst.m)) 1 b = .next c ∧ acceptAndRun .sboxI 1 c = .next d ∧
      acceptAndRun .mdsmul 1 d = .next e ∧
      acceptAndRun (.addrc (2 * i * s.inst.m + s.inst.m)) 1 e = .next f ∧
      (∀ j < s.inst.m, f.xVal j = t.xVal j) ∧ f.done = true ∧ f.err = s.err ∧
      f.round = s.round ∧ f.phase = s.phase

/-- `PERMUTE` equals `ROUND 0` to `ROUND N-1`, each run to its end: all their checks pass, and `x` and the
position come out the same (R148). -/
def Obligations.PermuteEqualsItsRounds : Prop :=
  ∀ s : State, s.inputs = [] → s.permuteReady →
    ∃ t u, acceptAndRun .permute (1 + 6 * s.nrounds.toNat) s = .next t ∧
      runRounds s.nrounds.toNat s = .next u ∧ (∀ j < s.inst.m, u.xVal j = t.xVal j) ∧
      u.round = t.round ∧ u.phase = t.phase ∧ u.done = true ∧ u.err = s.err

/-! ### The matrix generator (spec/44_mdsgen.md) -/

/-- `MDSGEN` on good points and nonzero pivots ends without error: `MDS` is the transpose of the right-hand
block of the eliminated matrix, all its entries field elements, and nothing but `MDS`, the scratch and the
status changes (R162, R168, R170). -/
def Obligations.MdsgenWritesTheMatrix : Prop :=
  ∀ s : State,
    (∀ b, 1 ≤ b → b < 2 * s.inst.m → ¬ repeatsOrVanishes s.inst.P s.inst.G b) →
    (eliminate s.inst.P s.inst.G s.inst.m).2 = none →
    ∃ t, exec .mdsgen s = .next t ∧ sameReservedMds s t ∧
      (∀ i < s.inst.m, ∀ j < s.inst.m, t.mdsVal i j < s.inst.P ∧
        t.mdsVal i j = entry (eliminate s.inst.P s.inst.G s.inst.m).1 j (s.inst.m + i)) ∧
      t = { s with mds := t.mds, v := (eliminate s.inst.P s.inst.G s.inst.m).1,
                   done := true, busy := false, checked := false }

/-- The closed form of the generated matrix: with `VL`, `VR` the halves of the matrix of powers of `G`,
`VL * transpose(MDS) = VR` over the field, and the left-hand block of the eliminated matrix is the identity
(R164, R165, R168). -/
def Obligations.MdsgenSolvesTheVandermondeSystem : Prop :=
  ∀ s : State,
    (∀ b, 1 ≤ b → b < 2 * s.inst.m → ¬ repeatsOrVanishes s.inst.P s.inst.G b) →
    (eliminate s.inst.P s.inst.G s.inst.m).2 = none →
    ∃ t, exec .mdsgen s = .next t ∧
      (∀ r < s.inst.m, ∀ k < s.inst.m, entry t.v r k = if r = k then 1 else 0) ∧
      ∀ i < s.inst.m, ∀ c < s.inst.m,
        (∑ k ∈ Finset.range s.inst.m, s.inst.G ^ (i * k) * t.mdsVal c k) % s.inst.P =
          s.inst.G ^ (i * (s.inst.m + c)) % s.inst.P

/-- With distinct nonzero points no pivot is zero, so `E_PIVOT` cannot occur (R166, R231). -/
def Obligations.DistinctPointsGiveNonzeroPivots : Prop :=
  ∀ I : Instance,
    (∀ b, 1 ≤ b → b < 2 * I.m → ¬ repeatsOrVanishes I.P I.G b) → (eliminate I.P I.G I.m).2 = none

/-- `MDSGEN` reports the smallest index whose point is zero or repeats an earlier one, and changes nothing
but the status (R163, R169, R230). -/
def Obligations.MdsgenReportsTheFirstBadPoint : Prop :=
  ∀ (s : State) (b : Nat), 1 ≤ b → b < 2 * s.inst.m → repeatsOrVanishes s.inst.P s.inst.G b →
    (∀ c, 1 ≤ c → c < b → ¬ repeatsOrVanishes s.inst.P s.inst.G c) →
    exec .mdsgen s = .next (withError s .gdist (BitVec.ofNat 64 b))

/-- The result of `MDSGEN` depends on the instance alone: from any two states of one instance it writes the
same matrix, or raises the same error and leaves `MDS` as it was (R169, R171, R230). -/
def Obligations.MdsgenIsIndependentOfHistory : Prop :=
  ∀ s s' : State, s'.inst = s.inst →
    ∃ t t', exec .mdsgen s = .next t ∧ exec .mdsgen s' = .next t' ∧ t.done = t'.done ∧
      (t.done = true → ∀ i < s.inst.m, ∀ j < s.inst.m, t.mdsVal i j = t'.mdsVal i j) ∧
      (t.done = false → t.errcode = t'.errcode ∧ t.errinfo = t'.errinfo ∧ t.err = true ∧ t'.err = true ∧
        t.mds = s.mds ∧ t'.mds = s'.mds)

/-! ### Errors (spec/60_exceptions.md) -/

/-- Error entry of every executing command: in its first sequencer step, and nothing but the error
registers, the flags and, for `MDSGEN`, the hidden scratch differs (R222, R233). -/
def Obligations.ErrorEntryChangesNothingElse : Prop :=
  ∀ (s t : State) (i : Instr), executing i = true → s.checked = false → s.err = false →
    exec i s = .next t → t.err = true →
    t.errcode ≠ .noError ∧ (i ≠ .mdsgen → t.v = s.v) ∧
    t = { s with errcode := t.errcode, errinfo := t.errinfo, err := true, done := false, busy := false,
                 v := t.v }

/-- A failing product test raises `E_ALPHA` before any element is looked at (R228, R232). -/
def Obligations.AlphaErrorComesBeforeRange : Prop :=
  ∀ s : State, ¬ s.pairOk →
    exec .sboxF s = .next (withError s .alpha 0) ∧ exec .sboxI s = .next (withError s .alpha 0) ∧
    (∀ i, s.checked = false → s.rclen.toNat ≤ s.inst.rcDepth →
      2 * s.inst.m * (i + 1) ≤ s.rclen.toNat → exec (.round i) s = .next (withError s .alpha 0)) ∧
    (s.checked = false → s.nrounds.toNat ≠ 0 → 2 * s.inst.m * s.nrounds.toNat ≤ s.inst.rcDepth →
      s.rclen.toNat = 2 * s.inst.m * s.nrounds.toNat → exec .permute s = .next (withError s .alpha 0))

/-- `E_RANGE` names the region and the lowest index of an unreduced slot, regions in ascending number (R223,
R229, R232): region 0 for every command that reads `x`, region 1 for every command that reads `MDS`, region
2 for `ADDRC`.  Region 2 of `ROUND` and `PERMUTE` is `RoundsTestEveryConstantFirst`. -/
def Obligations.RangeErrorNamesTheLowestSlot : Prop :=
  ∀ s : State,
    (∀ j < s.inst.m, s.inst.P ≤ s.xVal j → (∀ a < j, s.xVal a < s.inst.P) →
      (s.pairOk →
        exec .sboxF s = .next (withError s .range (BitVec.ofNat 64 j)) ∧
        exec .sboxI s = .next (withError s .range (BitVec.ofNat 64 j)) ∧
        (s.checked = false →
          (∀ i, s.roundLengthsOk i →
            exec (.round i) s = .next (withError s .range (BitVec.ofNat 64 j))) ∧
          (s.permuteLengthsOk → exec .permute s = .next (withError s .range (BitVec.ofNat 64 j))))) ∧
      exec .mdsmul s = .next (withError s .range (BitVec.ofNat 64 j)) ∧
      ∀ k, s.rclen.toNat ≤ s.inst.rcDepth → k + s.inst.m ≤ s.rclen.toNat →
        exec (.addrc k) s = .next (withError s .range (BitVec.ofNat 64 j))) ∧
    (s.xReduced → ∀ e < s.inst.m * s.inst.m, s.inst.P ≤ s.mdsSlot e →
      (∀ a < e, s.mdsSlot a < s.inst.P) →
      exec .mdsmul s = .next (withError s .range (BitVec.ofNat 64 (2 ^ 32 + e))) ∧
      (s.pairOk → s.checked = false →
        (∀ i, s.roundLengthsOk i →
          exec (.round i) s = .next (withError s .range (BitVec.ofNat 64 (2 ^ 32 + e)))) ∧
        (s.permuteLengthsOk →
          exec .permute s = .next (withError s .range (BitVec.ofNat 64 (2 ^ 32 + e)))))) ∧
    (s.xReduced → ∀ k, ∀ j < s.inst.m, s.rclen.toNat ≤ s.inst.rcDepth → k + s.inst.m ≤ s.rclen.toNat →
      s.inst.P ≤ s.rcVal (k + j) → (∀ a < j, s.rcVal (k + a) < s.inst.P) →
      exec (.addrc k) s = .next (withError s .range (BitVec.ofNat 64 (2 * 2 ^ 32 + (k + j)))))

/-- `ROUND i` and `PERMUTE` test every constant they will use before they change anything: the lowest
unreduced one is reported in region 2 (R229, R232, R233). -/
def Obligations.RoundsTestEveryConstantFirst : Prop :=
  ∀ s : State, s.checked = false → s.pairOk → s.xReduced → s.mdsReduced →
    (∀ i k, s.rclen.toNat ≤ s.inst.rcDepth → 2 * s.inst.m * (i + 1) ≤ s.rclen.toNat →
      2 * i * s.inst.m ≤ k → k < 2 * i * s.inst.m + 2 * s.inst.m → s.inst.P ≤ s.rcVal k →
      (∀ a, 2 * i * s.inst.m ≤ a → a < k → s.rcVal a < s.inst.P) →
      exec (.round i) s = .next (withError s .range (BitVec.ofNat 64 (2 * 2 ^ 32 + k)))) ∧
    (∀ k, s.nrounds.toNat ≠ 0 → 2 * s.inst.m * s.nrounds.toNat ≤ s.inst.rcDepth →
      s.rclen.toNat = 2 * s.inst.m * s.nrounds.toNat → k < s.rclen.toNat → s.inst.P ≤ s.rcVal k →
      (∀ a < k, s.rcVal a < s.inst.P) →
      exec .permute s = .next (withError s .range (BitVec.ofNat 64 (2 * 2 ^ 32 + k))))

/-- The tests on round count, declared length and index, which come before all others (R225, R226, R227,
R232). -/
def Obligations.LengthErrorsComeFirst : Prop :=
  ∀ s : State,
    (s.checked = false →
      ((s.nrounds.toNat = 0 ∨ s.inst.rcDepth < 2 * s.inst.m * s.nrounds.toNat) →
        exec .permute s = .next (withError s .nrounds (BitVec.ofNat 64 s.nrounds.toNat))) ∧
      (s.nrounds.toNat ≠ 0 → 2 * s.inst.m * s.nrounds.toNat ≤ s.inst.rcDepth →
        s.rclen.toNat ≠ 2 * s.inst.m * s.nrounds.toNat →
        exec .permute s = .next (withError s .rclen (BitVec.ofNat 64 s.rclen.toNat))) ∧
      ∀ i, (s.inst.rcDepth < s.rclen.toNat →
          exec (.round i) s = .next (withError s .rclen (BitVec.ofNat 64 s.rclen.toNat))) ∧
        (s.rclen.toNat ≤ s.inst.rcDepth → s.rclen.toNat < 2 * s.inst.m * (i + 1) →
          exec (.round i) s = .next (withError s .index (BitVec.ofNat 64 i)))) ∧
    ∀ k, (s.inst.rcDepth < s.rclen.toNat →
        exec (.addrc k) s = .next (withError s .rclen (BitVec.ofNat 64 s.rclen.toNat))) ∧
      (s.rclen.toNat ≤ s.inst.rcDepth → s.rclen.toNat < k + s.inst.m →
        exec (.addrc k) s = .next (withError s .index (BitVec.ofNat 64 k)))

/-! ### Whole-machine rules -/

/-- Every accepted command ends, with `DONE = 1` or `ERR = 1`, after at most the number of sequencer steps that
R277 gives it: 1 for the single-step commands, 7 for `ROUND`, `1 + 6 * NROUNDS` for `PERMUTE`, whose
`NROUNDS` is at most `RC_DEPTH / (2m)` once its check step has passed. -/
def Obligations.BusyEndsWithinTheBound : Prop :=
  ∀ (s : State) (i : Instr), s.Inv → s.busy = true → s.inputs = [] → decode s.opl = .ok i →
    (∃ n t, n ≤ (match i with
        | .nop | .clrstat => 0
        | .sboxF | .sboxI | .mdsmul | .addrc _ | .mdsgen => 1
        | .round _ => 7
        | .permute => 1 + 6 * s.nrounds.toNat) ∧
      stepN n s = .next t ∧ t.busy = false ∧ (t.done = true ∨ t.err = true)) ∧
    (i = .permute → s.checked = true → s.nrounds.toNat ≤ s.inst.rcDepth / (2 * s.inst.m))

/-- A host read before or after a sequencer step makes no difference to the engine (R45, R282): the two
orders end in the same state but for the word returned and the model's counter of free words. -/
def Obligations.ReadsCommuteWithSequencerSteps : Prop :=
  ∀ (s : State) (a : HostAddr), s.Inv → s.busy = true →
    ∃ t u, stepN 2 { s with inputs := [.read a, .tick] } = .next t ∧
      stepN 2 { s with inputs := [.tick, .read a] } = .next u ∧
      u = { t with readData := u.readData, busyReads := u.busyReads }

/-! ### Host procedures (spec/46_host_procedures.md) -/

/-- The estimator answers `ceil(1.5 * max(5, i0))` for the least `i0` up to 24 that satisfies the security
inequality, a number from 8 to 36 (R191, R192, R193, R195).  That `alpha = 0` is refused is the model's
reading of U12 (notes/assumptions/13.md). -/
def Obligations.EstimatorFollowsTheSearch : Prop :=
  ∀ p m c level alpha N : Nat,
    estimateRounds p m c level alpha = .ok N ↔
      (level = 128 ∨ level = 160) ∧ c + 1 ≤ m ∧ 1 ≤ alpha ∧
      ∃ i0, 1 ≤ i0 ∧ i0 ≤ 24 ∧
        (∀ i, 1 ≤ i → i ≤ i0 →
          (2 ^ level < (Nat.choose (m * (i - 1) + (m - c) + ((alpha - 1) * m * (i - 1) / 2 + 2))
              (m * (i - 1) + (m - c))) ^ 2 ↔ i = i0)) ∧
        N = (3 * max 5 i0 + 1) / 2 ∧ 8 ≤ N ∧ N ≤ 36

/-- A higher security level never lowers the round count (R196). -/
def Obligations.EstimatorIsMonotone : Prop :=
  ∀ p m c alpha N N' : Nat, estimateRounds p m c 128 alpha = .ok N →
    estimateRounds p m c 160 alpha = .ok N' → N ≤ N'

/-- The generator answers `2*m*N` field elements, each a little-endian chunk of its own `b` bytes of the stream
reduced modulo `p`, where `b` is `(W + 7) div 8 + 1` for the bit length `W` of `p`, and more rounds only
extend the sequence (R200, R201, R202, R203). -/
def Obligations.ConstantsAreReducedChunks : Prop :=
  ∀ (xof : List Byte → Nat → Byte) (seed : Nat → Nat → Nat → Nat → List Byte)
    (level p m c N N' : Nat) (cs cs' : List Nat), 0 < p → N ≤ N' →
    generateConstants xof seed level p m c N = .ok cs →
    generateConstants xof seed level p m c N' = .ok cs' →
    cs.length = 2 * m * N ∧ cs <+: cs' ∧
    ∀ b, b = (Nat.log 2 p + 1 + 7) / 8 + 1 → ∀ k < 2 * m * N, ∃ v, cs[k]? = some v ∧ v < p ∧
      v = (∑ t ∈ Finset.range b, (xof (seed p m c level) (k * b + t)).toNat * 256 ^ t) % p

/-- The derived exponent inverse is the one of R17; without coprimality there is none (R206). -/
def Obligations.DerivedExponentIsTheInverse : Prop :=
  ∀ p alpha : Nat, 3 ≤ p →
    (Nat.gcd alpha (p - 1) = 1 → ∃ v, deriveAlphaInv p alpha = .ok v ∧ 1 ≤ v ∧ v < p - 1 ∧
      (alpha * v) % (p - 1) = 1) ∧
    (Nat.gcd alpha (p - 1) ≠ 1 → deriveAlphaInv p alpha = .error .alphaNotCoprime)

/-- What the host derives from one tuple fits together: the pair passes the product test of R228, the
constants have the length `2*m*N` of R226 and are reduced as R229 asks, and each part is the procedures'
answer for that tuple and that round count (R192, R206, R207).  That the constants store is deep enough
(`2*m*N <= RC_DEPTH`, R225) is no part of it: the tuple does not say so, and R204 asks it of the instance. -/
def Obligations.DerivedValuesFitOneTuple : Prop :=
  ∀ (xof : List Byte → Nat → Byte) (seed : Nat → Nat → Nat → Nat → List Byte) (t : ParameterSet)
    (c : Configuration), 3 ≤ t.p → configure xof seed t = .ok c →
    c.toParameterSet = t ∧ estimateRounds t.p t.m t.capacity t.level t.alpha = .ok c.N ∧
      generateConstants xof seed t.level t.p t.m t.capacity c.N = .ok c.constants ∧
      (t.alpha * c.alphaInv) % (t.p - 1) = 1 ∧ c.alphaInv < t.p - 1 ∧ 8 ≤ c.N ∧
      c.constants.length = 2 * t.m * c.N ∧ ∀ v ∈ c.constants, v < t.p
end

