-- ==== Sys2Proof/Laws/Field.lean ====
section
/-! SUPPORT. The field operations answer reduced values; sums as the library writes them. -/

namespace Sys2Proof.Machine

theorem fadd_lt {P : Nat} (h : 0 < P) (a b : Nat) : fadd P a b < P := Nat.mod_lt _ h

theorem fsub_lt {P : Nat} (h : 0 < P) (a b : Nat) : fsub P a b < P := Nat.mod_lt _ h

theorem fmul_lt {P : Nat} (h : 0 < P) (a b : Nat) : fmul P a b < P := Nat.mod_lt _ h

theorem powBits_lt {P : Nat} (h : 0 < P) (a n e : Nat) : powBits P a n e < P := by
  cases n with
  | zero => exact Nat.mod_lt _ h
  | succ n => simp only [powBits, powBit]; split <;> exact fmul_lt h _ _

theorem fpow_lt {P : Nat} (h : 0 < P) (a e : Nat) : fpow P a e < P := powBits_lt h a _ e

theorem sumTo_eq_sum (f : Nat → Nat) (n : Nat) : sumTo f n = ∑ j ∈ Finset.range n, f j := by
  induction n with
  | zero => rfl
  | succ n ih => rw [sumTo, ih, Finset.sum_range_succ]

end Sys2Proof.Machine
end

