-- ==== Sys2Proof/Machine/HostScript.lean ====
section
/-! DEFINITION. The host-script notation as lists of events (spec/30_encoding.md R104) and the bring-up
sequence (spec/70_reset_and_hazards.md R266).  Notation for host programs: the engine never sees it. -/

namespace Sys2Proof.Machine

open Sys2Proof.Config

/-- A slot that `LDE` and `RDE` name (R104). -/
inductive Slot where
  | x (j : Nat) | mds (i j : Nat) | rc (k : Nat) | alpha | alphaInv
  deriving DecidableEq, Repr

/-- The base address of a slot (R68, R35). -/
def slotBase (I : Instance) : Slot → Nat
  | .x j => xBase + 8 * j
  | .mds i j => mdsBase + 8 * (i * I.m + j)
  | .rc k => rcBase + 8 * k
  | .alpha => 0x20
  | .alphaInv => 0x28

/-- One line of a host script (R104).  `WAIT` repeats its `STATUS` read until the engine is idle; as a list
of events it is given the number of reads it makes (notes/assumptions/23.md). -/
inductive ScriptOp where
  | wr (a : HostAddr) (v : Word)
  | rd (a : HostAddr)
  | command (i : Instr)
  | wait (reads : Nat)
  | lde (slot : Slot) (v : Nat)
  | rde (slot : Slot)
  | ldx (vs : List Nat)
  | ldmds (rows : List (List Nat))
  | ldrc (cs : List Nat)
  | setn (n : Nat)
  deriving DecidableEq, Repr

/-- `LDE s, v`: one write for each limb (R69, R104).  DESIGN CHOICE: R69 asks for `v < 2^(64*L)`; of a larger
`v` the low `L` limbs are written and the rest is lost (notes/assumptions/24.md). -/
def loadElement (I : Instance) (slot : Slot) (v : Nat) : List Input :=
  (List.range I.L).map fun l => .write (BitVec.ofNat 24 (slotBase I slot + l)) (limb v l)

/-- `RDE s`: one read for each limb (R69, R104). -/
def readElement (I : Instance) (slot : Slot) : List Input :=
  (List.range I.L).map fun l => .read (BitVec.ofNat 24 (slotBase I slot + l))

/-- The element that the words read by `RDE` make up (R69). -/
def assembleElement (ws : List Word) : Nat := limbsValue (fun l => ws.getD l 0) ws.length

/-- `LDE` of consecutive slots. -/
def loadElements (I : Instance) (slot : Nat → Slot) (vs : List Nat) : List Input :=
  (vs.zipIdx.map fun (v, k) => loadElement I (slot k) v).flatten

/-- The events a line expands to (R104).  DESIGN CHOICE: operands outside the bounds of R69 and R104 are cut to
the width of their word or address, and lists load as many slots as they are long
(notes/assumptions/24.md). -/
def expandOp (I : Instance) : ScriptOp → List Input
  | .wr a v => [.write a v]
  | .rd a => [.read a]
  | .command i => [.write cmdAddr (encode i)]
  | .wait reads => (List.replicate reads [Input.tick, .read statusAddr]).flatten
  | .lde slot v => loadElement I slot v
  | .rde slot => readElement I slot
  | .ldx vs => loadElements I .x vs
  | .ldmds rows => (rows.zipIdx.map fun (row, i) => loadElements I (.mds i) row).flatten
  | .ldrc cs => loadElements I .rc cs ++ [.write 0x000008 (BitVec.ofNat 64 cs.length)]
  | .setn n => [.write 0x000007 (BitVec.ofNat 64 n)]

/-- The events of a script. -/
def expandScript (I : Instance) (ops : List ScriptOp) : List Input := (ops.map (expandOp I)).flatten

/-! ### Bring-up (R266) -/

/-- Step 1, optional: the identification registers. -/
def identify : List ScriptOp := [.rd 0x000000, .rd 0x000001, .rd 0x000002]

/-- Step 2: `MDSGEN` and its wait, or the load of a matrix made elsewhere. -/
def matrixStep : (elsewhere : Option (List (List Nat))) → List ScriptOp
  | none => [.command .mdsgen, .wait 1]
  | some rows => [.ldmds rows]

/-- Steps 2 to 7, each a block of lines: the matrix, then what one configuration value passes on (R204, R206,
R207), then the initial state. -/
def setupSteps (c : Configuration) (elsewhere : Option (List (List Nat))) (xs : List Nat) :
    List (List ScriptOp) :=
  [matrixStep elsewhere, [.lde .alpha c.alpha], [.lde .alphaInv c.alphaInv], [.ldrc c.constants],
    [.setn c.N], [.ldx xs]]

/-- Steps 8 to 10: the permutation, its status, and the output state. -/
def permuteSteps (c : Configuration) : List ScriptOp :=
  [.command .permute, .wait (1 + 6 * c.N), .rd statusAddr] ++ (List.range c.m).map fun j => .rde (.x j)

/-- The shortest sequence from reset to a permutation result, in the order R266 lists its ten steps. -/
def bringUp (c : Configuration) (elsewhere : Option (List (List Nat))) (xs : List Nat) : List ScriptOp :=
  identify ++ (setupSteps c elsewhere xs).flatten ++ permuteSteps c

/-- Every script R266 allows: step 1 is optional, steps 2 to 7 come in any order, all before step 8. -/
def IsBringUp (c : Configuration) (elsewhere : Option (List (List Nat))) (xs : List Nat)
    (ops : List ScriptOp) : Prop :=
  ∃ (first : List ScriptOp) (setup : List (List ScriptOp)), (first = [] ∨ first = identify) ∧ setup.Perm (setupSteps c elsewhere xs) ∧
    ops = first ++ setup.flatten ++ permuteSteps c

/-- A second permutation with the same configuration repeats steps 7 to 10 only (R266). -/
def permuteAgain (c : Configuration) (xs : List Nat) : List ScriptOp := .ldx xs :: permuteSteps c

/-- The whole flow of R207 on one instance: everything derived from one tuple, whose `p` and `m` are the
instance's, and the script that loads it all before the first `PERMUTE`.  DESIGN CHOICE: an `alpha` of
`2^(64*L)` or more is no host error, and its low `L` limbs are loaded (notes/assumptions/24.md). -/
def bringUpOf (I : Instance) (xof : List Byte → Nat → Byte)
    (seedEncode : Nat → Nat → Nat → Nat → List Byte) (capacity level alpha : Nat)
    (elsewhere : Option (List (List Nat))) (xs : List Nat) : Except HostError (List ScriptOp) :=
  match configure xof seedEncode ⟨I.P, I.m, capacity, level, alpha⟩ with
  | .error e => .error e
  | .ok c => .ok (bringUp c elsewhere xs)

end Sys2Proof.Machine
end

