-- ==== Sys2Proof/Laws/Host.lean ====
section
/-! SUPPORT. What the host's configuration and bring-up can be. -/

namespace Sys2Proof.Machine

/-- All that `configure` can answer: the three procedures' results for one tuple. -/
theorem configure_ok_iff (xof : List Byte → Nat → Byte) (seed : Nat → Nat → Nat → Nat → List Byte)
    (t : ParameterSet) (c : Configuration) :
    configure xof seed t = .ok c ↔
      deriveAlphaInv t.p t.alpha = .ok c.alphaInv ∧
      estimateRounds t.p t.m t.capacity t.level t.alpha = .ok c.N ∧
      generateConstants xof seed t.level t.p t.m t.capacity c.N = .ok c.constants ∧
      c.toParameterSet = t := by
  obtain ⟨t', alphaInv, N, constants⟩ := c
  unfold configure
  constructor
  · intro h
    split at h
    · cases h
    split at h
    · cases h
    split at h
    · cases h
    cases h
    exact ⟨‹_›, ‹_›, ‹_›, rfl⟩
  · rintro ⟨hi, hN, hc, rfl⟩
    simp only [hi, hN, hc]

/-- The order in which R266 lists the steps is one of those it allows. -/
theorem bringUp_isBringUp (c : Configuration) (elsewhere : Option (List (List Nat))) (xs : List Nat) :
    IsBringUp c elsewhere xs (bringUp c elsewhere xs) :=
  ⟨identify, setupSteps c elsewhere xs, .inr rfl, .refl _, rfl⟩

/-- Leaving out the optional step 1 is allowed as well. -/
theorem setup_isBringUp (c : Configuration) (elsewhere : Option (List (List Nat))) (xs : List Nat) :
    IsBringUp c elsewhere xs ((setupSteps c elsewhere xs).flatten ++ permuteSteps c) :=
  ⟨[], setupSteps c elsewhere xs, .inl rfl, .refl _, rfl⟩

end Sys2Proof.Machine
end

