-- ==== Sys2Proof/Laws/MdsGen.lean ====
section
/-! SUPPORT. What the matrix generator's operations do: the entries of a built matrix, the point scan, the
elimination's shape. -/

namespace Sys2Proof.Machine

/-- An entry of a built matrix. -/
theorem entry_buildMatrix {rows cols r c : Nat} (f : Nat → Nat → Nat) (hr : r < rows) (hc : c < cols) :
    entry (buildMatrix rows cols f) r c = f r c := by
  simp [entry, buildMatrix, List.getD_eq_getElem?_getD, hr, hc]

theorem length_buildMatrix (rows cols : Nat) (f : Nat → Nat → Nat) :
    (buildMatrix rows cols f).length = rows := by simp [buildMatrix]

theorem entry_fillV {P G m i j : Nat} (hi : i < m) (hj : j < 2 * m) :
    entry (fillV P G m) i j = fpow P G (i * j) := entry_buildMatrix _ hi hj

/-- An entry after one iteration of the elimination (R165). -/
theorem entry_eliminateColumn {P m k r j : Nat} (V : Matrix) (hr : r < m) (hj : j < 2 * m) :
    entry (eliminateColumn P m k V) r j =
      if r = k then pivotRow P k V j
      else fsub P (entry V r j) (fmul P (entry V r k) (pivotRow P k V j)) := entry_buildMatrix _ hr hj

/-- The scan finds the first bad point, or none is bad. -/
theorem firstBadPoint_eq_some {P G n b d : Nat} (h : firstBadPoint P G n b = some d) :
    b ≤ d ∧ d < b + n ∧ badPoint P G d = true ∧ ∀ c, b ≤ c → c < d → badPoint P G c = false := by
  induction n generalizing b with
  | zero => simp [firstBadPoint] at h
  | succ n ih =>
    rw [firstBadPoint] at h
    split at h
    · next hb =>
      obtain rfl : b = d := by simpa using h
      exact ⟨le_rfl, by omega, hb, fun c h1 h2 => by omega⟩
    · next hb =>
      obtain ⟨h1, h2, h3, h4⟩ := ih h
      refine ⟨by omega, by omega, h3, fun c hc hd => ?_⟩
      rcases Nat.eq_or_lt_of_le hc with rfl | hc
      · simpa using hb
      · exact h4 c hc hd

theorem firstBadPoint_eq_none_iff {P G n b : Nat} :
    firstBadPoint P G n b = none ↔ ∀ c, b ≤ c → c < b + n → badPoint P G c = false := by
  induction n generalizing b with
  | zero => simp only [firstBadPoint, true_iff]; intro c h1 h2; omega
  | succ n ih =>
    rw [firstBadPoint]
    split
    · next hb =>
      simp only [reduceCtorEq, false_iff, not_forall]
      exact ⟨b, le_rfl, by omega, by simp [hb]⟩
    · next hb =>
      rw [ih]
      constructor
      · intro h c h1 h2
        rcases Nat.eq_or_lt_of_le h1 with rfl | h1
        · simpa using hb
        · exact h c h1 (by omega)
      · exact fun h c h1 h2 => h c (by omega) (by omega)

/-- What the elimination can do: stop at a zero pivot, or take one more column and go on (R165, R166). -/
theorem eliminateFrom_succ (P m n k : Nat) (V : Matrix) :
    (entry V k k = 0 ∧ eliminateFrom P m (n + 1) k V = (V, some k)) ∨
      (entry V k k ≠ 0 ∧
        eliminateFrom P m (n + 1) k V = eliminateFrom P m n (k + 1) (eliminateColumn P m k V)) := by
  by_cases h : entry V k k = 0
  · exact .inl ⟨h, by simp [eliminateFrom, h]⟩
  · exact .inr ⟨h, by simp [eliminateFrom, h]⟩

end Sys2Proof.Machine
end

