-- ==== Sys2Proof/Laws/State.lean ====
section
/-! SUPPORT. One lemma per field and update of the state, so that no later proof unfolds a record update. -/

namespace Sys2Proof.Machine

/-! ### `setX` -/

@[simp] theorem State.setX_inst (s : State) (f : Nat → Nat) : (s.setX f).inst = s.inst := rfl
@[simp] theorem State.setX_x (s : State) (f : Nat → Nat) : (s.setX f).x = writeSlots s.x s.inst.L f s.inst.m := rfl
@[simp] theorem State.setX_mds (s : State) (f : Nat → Nat) : (s.setX f).mds = s.mds := rfl
@[simp] theorem State.setX_rc (s : State) (f : Nat → Nat) : (s.setX f).rc = s.rc := rfl
@[simp] theorem State.setX_alpha (s : State) (f : Nat → Nat) : (s.setX f).alpha = s.alpha := rfl
@[simp] theorem State.setX_alphaInv (s : State) (f : Nat → Nat) : (s.setX f).alphaInv = s.alphaInv := rfl
@[simp] theorem State.setX_nrounds (s : State) (f : Nat → Nat) : (s.setX f).nrounds = s.nrounds := rfl
@[simp] theorem State.setX_rclen (s : State) (f : Nat → Nat) : (s.setX f).rclen = s.rclen := rfl
@[simp] theorem State.setX_busy (s : State) (f : Nat → Nat) : (s.setX f).busy = s.busy := rfl
@[simp] theorem State.setX_done (s : State) (f : Nat → Nat) : (s.setX f).done = s.done := rfl
@[simp] theorem State.setX_err (s : State) (f : Nat → Nat) : (s.setX f).err = s.err := rfl
@[simp] theorem State.setX_drop (s : State) (f : Nat → Nat) : (s.setX f).drop = s.drop := rfl
@[simp] theorem State.setX_errcode (s : State) (f : Nat → Nat) : (s.setX f).errcode = s.errcode := rfl
@[simp] theorem State.setX_errinfo (s : State) (f : Nat → Nat) : (s.setX f).errinfo = s.errinfo := rfl
@[simp] theorem State.setX_round (s : State) (f : Nat → Nat) : (s.setX f).round = s.round := rfl
@[simp] theorem State.setX_phase (s : State) (f : Nat → Nat) : (s.setX f).phase = s.phase := rfl
@[simp] theorem State.setX_opl (s : State) (f : Nat → Nat) : (s.setX f).opl = s.opl := rfl
@[simp] theorem State.setX_v (s : State) (f : Nat → Nat) : (s.setX f).v = s.v := rfl
@[simp] theorem State.setX_checked (s : State) (f : Nat → Nat) : (s.setX f).checked = s.checked := rfl
@[simp] theorem State.setX_inputs (s : State) (f : Nat → Nat) : (s.setX f).inputs = s.inputs := rfl
@[simp] theorem State.setX_readData (s : State) (f : Nat → Nat) : (s.setX f).readData = s.readData := rfl
@[simp] theorem State.setX_busyReads (s : State) (f : Nat → Nat) : (s.setX f).busyReads = s.busyReads := rfl
@[simp] theorem State.setX_resets (s : State) (f : Nat → Nat) : (s.setX f).resets = s.resets := rfl

/-! ### `setMds` -/

@[simp] theorem State.setMds_inst (s : State) (f : Nat → Nat) : (s.setMds f).inst = s.inst := rfl
@[simp] theorem State.setMds_x (s : State) (f : Nat → Nat) : (s.setMds f).x = s.x := rfl
@[simp] theorem State.setMds_mds (s : State) (f : Nat → Nat) : (s.setMds f).mds = writeSlots s.mds s.inst.L f (s.inst.m * s.inst.m) := rfl
@[simp] theorem State.setMds_rc (s : State) (f : Nat → Nat) : (s.setMds f).rc = s.rc := rfl
@[simp] theorem State.setMds_alpha (s : State) (f : Nat → Nat) : (s.setMds f).alpha = s.alpha := rfl
@[simp] theorem State.setMds_alphaInv (s : State) (f : Nat → Nat) : (s.setMds f).alphaInv = s.alphaInv := rfl
@[simp] theorem State.setMds_nrounds (s : State) (f : Nat → Nat) : (s.setMds f).nrounds = s.nrounds := rfl
@[simp] theorem State.setMds_rclen (s : State) (f : Nat → Nat) : (s.setMds f).rclen = s.rclen := rfl
@[simp] theorem State.setMds_busy (s : State) (f : Nat → Nat) : (s.setMds f).busy = s.busy := rfl
@[simp] theorem State.setMds_done (s : State) (f : Nat → Nat) : (s.setMds f).done = s.done := rfl
@[simp] theorem State.setMds_err (s : State) (f : Nat → Nat) : (s.setMds f).err = s.err := rfl
@[simp] theorem State.setMds_drop (s : State) (f : Nat → Nat) : (s.setMds f).drop = s.drop := rfl
@[simp] theorem State.setMds_errcode (s : State) (f : Nat → Nat) : (s.setMds f).errcode = s.errcode := rfl
@[simp] theorem State.setMds_errinfo (s : State) (f : Nat → Nat) : (s.setMds f).errinfo = s.errinfo := rfl
@[simp] theorem State.setMds_round (s : State) (f : Nat → Nat) : (s.setMds f).round = s.round := rfl
@[simp] theorem State.setMds_phase (s : State) (f : Nat → Nat) : (s.setMds f).phase = s.phase := rfl
@[simp] theorem State.setMds_opl (s : State) (f : Nat → Nat) : (s.setMds f).opl = s.opl := rfl
@[simp] theorem State.setMds_v (s : State) (f : Nat → Nat) : (s.setMds f).v = s.v := rfl
@[simp] theorem State.setMds_checked (s : State) (f : Nat → Nat) : (s.setMds f).checked = s.checked := rfl
@[simp] theorem State.setMds_inputs (s : State) (f : Nat → Nat) : (s.setMds f).inputs = s.inputs := rfl
@[simp] theorem State.setMds_readData (s : State) (f : Nat → Nat) : (s.setMds f).readData = s.readData := rfl
@[simp] theorem State.setMds_busyReads (s : State) (f : Nat → Nat) : (s.setMds f).busyReads = s.busyReads := rfl
@[simp] theorem State.setMds_resets (s : State) (f : Nat → Nat) : (s.setMds f).resets = s.resets := rfl

/-! ### `raise` -/

@[simp] theorem State.raise_inst (s : State) (e : ErrRecord) : (s.raise e).inst = s.inst := rfl
@[simp] theorem State.raise_x (s : State) (e : ErrRecord) : (s.raise e).x = s.x := rfl
@[simp] theorem State.raise_mds (s : State) (e : ErrRecord) : (s.raise e).mds = s.mds := rfl
@[simp] theorem State.raise_rc (s : State) (e : ErrRecord) : (s.raise e).rc = s.rc := rfl
@[simp] theorem State.raise_alpha (s : State) (e : ErrRecord) : (s.raise e).alpha = s.alpha := rfl
@[simp] theorem State.raise_alphaInv (s : State) (e : ErrRecord) : (s.raise e).alphaInv = s.alphaInv := rfl
@[simp] theorem State.raise_nrounds (s : State) (e : ErrRecord) : (s.raise e).nrounds = s.nrounds := rfl
@[simp] theorem State.raise_rclen (s : State) (e : ErrRecord) : (s.raise e).rclen = s.rclen := rfl
@[simp] theorem State.raise_busy (s : State) (e : ErrRecord) : (s.raise e).busy = false := rfl
@[simp] theorem State.raise_done (s : State) (e : ErrRecord) : (s.raise e).done = false := rfl
@[simp] theorem State.raise_err (s : State) (e : ErrRecord) : (s.raise e).err = true := rfl
@[simp] theorem State.raise_drop (s : State) (e : ErrRecord) : (s.raise e).drop = s.drop := rfl
@[simp] theorem State.raise_errcode (s : State) (e : ErrRecord) : (s.raise e).errcode = e.1 := rfl
@[simp] theorem State.raise_errinfo (s : State) (e : ErrRecord) : (s.raise e).errinfo = e.2 := rfl
@[simp] theorem State.raise_round (s : State) (e : ErrRecord) : (s.raise e).round = s.round := rfl
@[simp] theorem State.raise_phase (s : State) (e : ErrRecord) : (s.raise e).phase = s.phase := rfl
@[simp] theorem State.raise_opl (s : State) (e : ErrRecord) : (s.raise e).opl = s.opl := rfl
@[simp] theorem State.raise_v (s : State) (e : ErrRecord) : (s.raise e).v = s.v := rfl
@[simp] theorem State.raise_checked (s : State) (e : ErrRecord) : (s.raise e).checked = s.checked := rfl
@[simp] theorem State.raise_inputs (s : State) (e : ErrRecord) : (s.raise e).inputs = s.inputs := rfl
@[simp] theorem State.raise_readData (s : State) (e : ErrRecord) : (s.raise e).readData = s.readData := rfl
@[simp] theorem State.raise_busyReads (s : State) (e : ErrRecord) : (s.raise e).busyReads = s.busyReads := rfl
@[simp] theorem State.raise_resets (s : State) (e : ErrRecord) : (s.raise e).resets = s.resets := rfl

/-! ### `acknowledge` -/

@[simp] theorem State.acknowledge_inst (s : State) : (s.acknowledge).inst = s.inst := rfl
@[simp] theorem State.acknowledge_x (s : State) : (s.acknowledge).x = s.x := rfl
@[simp] theorem State.acknowledge_mds (s : State) : (s.acknowledge).mds = s.mds := rfl
@[simp] theorem State.acknowledge_rc (s : State) : (s.acknowledge).rc = s.rc := rfl
@[simp] theorem State.acknowledge_alpha (s : State) : (s.acknowledge).alpha = s.alpha := rfl
@[simp] theorem State.acknowledge_alphaInv (s : State) : (s.acknowledge).alphaInv = s.alphaInv := rfl
@[simp] theorem State.acknowledge_nrounds (s : State) : (s.acknowledge).nrounds = s.nrounds := rfl
@[simp] theorem State.acknowledge_rclen (s : State) : (s.acknowledge).rclen = s.rclen := rfl
@[simp] theorem State.acknowledge_busy (s : State) : (s.acknowledge).busy = s.busy := rfl
@[simp] theorem State.acknowledge_done (s : State) : (s.acknowledge).done = false := rfl
@[simp] theorem State.acknowledge_err (s : State) : (s.acknowledge).err = false := rfl
@[simp] theorem State.acknowledge_drop (s : State) : (s.acknowledge).drop = false := rfl
@[simp] theorem State.acknowledge_errcode (s : State) : (s.acknowledge).errcode = .noError := rfl
@[simp] theorem State.acknowledge_errinfo (s : State) : (s.acknowledge).errinfo = 0 := rfl
@[simp] theorem State.acknowledge_round (s : State) : (s.acknowledge).round = s.round := rfl
@[simp] theorem State.acknowledge_phase (s : State) : (s.acknowledge).phase = s.phase := rfl
@[simp] theorem State.acknowledge_opl (s : State) : (s.acknowledge).opl = s.opl := rfl
@[simp] theorem State.acknowledge_v (s : State) : (s.acknowledge).v = s.v := rfl
@[simp] theorem State.acknowledge_checked (s : State) : (s.acknowledge).checked = s.checked := rfl
@[simp] theorem State.acknowledge_inputs (s : State) : (s.acknowledge).inputs = s.inputs := rfl
@[simp] theorem State.acknowledge_readData (s : State) : (s.acknowledge).readData = s.readData := rfl
@[simp] theorem State.acknowledge_busyReads (s : State) : (s.acknowledge).busyReads = s.busyReads := rfl
@[simp] theorem State.acknowledge_resets (s : State) : (s.acknowledge).resets = s.resets := rfl

/-! ### `accept` -/

@[simp] theorem State.accept_inst (s : State) (w : Word) : (s.accept w).inst = s.inst := rfl
@[simp] theorem State.accept_x (s : State) (w : Word) : (s.accept w).x = s.x := rfl
@[simp] theorem State.accept_mds (s : State) (w : Word) : (s.accept w).mds = s.mds := rfl
@[simp] theorem State.accept_rc (s : State) (w : Word) : (s.accept w).rc = s.rc := rfl
@[simp] theorem State.accept_alpha (s : State) (w : Word) : (s.accept w).alpha = s.alpha := rfl
@[simp] theorem State.accept_alphaInv (s : State) (w : Word) : (s.accept w).alphaInv = s.alphaInv := rfl
@[simp] theorem State.accept_nrounds (s : State) (w : Word) : (s.accept w).nrounds = s.nrounds := rfl
@[simp] theorem State.accept_rclen (s : State) (w : Word) : (s.accept w).rclen = s.rclen := rfl
@[simp] theorem State.accept_busy (s : State) (w : Word) : (s.accept w).busy = true := rfl
@[simp] theorem State.accept_done (s : State) (w : Word) : (s.accept w).done = false := rfl
@[simp] theorem State.accept_err (s : State) (w : Word) : (s.accept w).err = s.err := rfl
@[simp] theorem State.accept_drop (s : State) (w : Word) : (s.accept w).drop = s.drop := rfl
@[simp] theorem State.accept_errcode (s : State) (w : Word) : (s.accept w).errcode = s.errcode := rfl
@[simp] theorem State.accept_errinfo (s : State) (w : Word) : (s.accept w).errinfo = s.errinfo := rfl
@[simp] theorem State.accept_round (s : State) (w : Word) : (s.accept w).round = s.round := rfl
@[simp] theorem State.accept_phase (s : State) (w : Word) : (s.accept w).phase = s.phase := rfl
@[simp] theorem State.accept_opl (s : State) (w : Word) : (s.accept w).opl = w := rfl
@[simp] theorem State.accept_v (s : State) (w : Word) : (s.accept w).v = s.v := rfl
@[simp] theorem State.accept_checked (s : State) (w : Word) : (s.accept w).checked = false := rfl
@[simp] theorem State.accept_inputs (s : State) (w : Word) : (s.accept w).inputs = s.inputs := rfl
@[simp] theorem State.accept_readData (s : State) (w : Word) : (s.accept w).readData = s.readData := rfl
@[simp] theorem State.accept_busyReads (s : State) (w : Word) : (s.accept w).busyReads = s.busyReads := rfl
@[simp] theorem State.accept_resets (s : State) (w : Word) : (s.accept w).resets = s.resets := rfl

/-! ### `complete` -/

@[simp] theorem State.complete_inst (s : State) : (s.complete).inst = s.inst := rfl
@[simp] theorem State.complete_x (s : State) : (s.complete).x = s.x := rfl
@[simp] theorem State.complete_mds (s : State) : (s.complete).mds = s.mds := rfl
@[simp] theorem State.complete_rc (s : State) : (s.complete).rc = s.rc := rfl
@[simp] theorem State.complete_alpha (s : State) : (s.complete).alpha = s.alpha := rfl
@[simp] theorem State.complete_alphaInv (s : State) : (s.complete).alphaInv = s.alphaInv := rfl
@[simp] theorem State.complete_nrounds (s : State) : (s.complete).nrounds = s.nrounds := rfl
@[simp] theorem State.complete_rclen (s : State) : (s.complete).rclen = s.rclen := rfl
@[simp] theorem State.complete_busy (s : State) : (s.complete).busy = false := rfl
@[simp] theorem State.complete_done (s : State) : (s.complete).done = true := rfl
@[simp] theorem State.complete_err (s : State) : (s.complete).err = s.err := rfl
@[simp] theorem State.complete_drop (s : State) : (s.complete).drop = s.drop := rfl
@[simp] theorem State.complete_errcode (s : State) : (s.complete).errcode = s.errcode := rfl
@[simp] theorem State.complete_errinfo (s : State) : (s.complete).errinfo = s.errinfo := rfl
@[simp] theorem State.complete_round (s : State) : (s.complete).round = s.round := rfl
@[simp] theorem State.complete_phase (s : State) : (s.complete).phase = s.phase := rfl
@[simp] theorem State.complete_opl (s : State) : (s.complete).opl = s.opl := rfl
@[simp] theorem State.complete_v (s : State) : (s.complete).v = s.v := rfl
@[simp] theorem State.complete_checked (s : State) : (s.complete).checked = false := rfl
@[simp] theorem State.complete_inputs (s : State) : (s.complete).inputs = s.inputs := rfl
@[simp] theorem State.complete_readData (s : State) : (s.complete).readData = s.readData := rfl
@[simp] theorem State.complete_busyReads (s : State) : (s.complete).busyReads = s.busyReads := rfl
@[simp] theorem State.complete_resets (s : State) : (s.complete).resets = s.resets := rfl

/-! ### `setPosition` -/

@[simp] theorem State.setPosition_inst (s : State) (r : BitVec 32) (ph : Phase) : (s.setPosition r ph).inst = s.inst := rfl
@[simp] theorem State.setPosition_x (s : State) (r : BitVec 32) (ph : Phase) : (s.setPosition r ph).x = s.x := rfl
@[simp] theorem State.setPosition_mds (s : State) (r : BitVec 32) (ph : Phase) : (s.setPosition r ph).mds = s.mds := rfl
@[simp] theorem State.setPosition_rc (s : State) (r : BitVec 32) (ph : Phase) : (s.setPosition r ph).rc = s.rc := rfl
@[simp] theorem State.setPosition_alpha (s : State) (r : BitVec 32) (ph : Phase) : (s.setPosition r ph).alpha = s.alpha := rfl
@[simp] theorem State.setPosition_alphaInv (s : State) (r : BitVec 32) (ph : Phase) : (s.setPosition r ph).alphaInv = s.alphaInv := rfl
@[simp] theorem State.setPosition_nrounds (s : State) (r : BitVec 32) (ph : Phase) : (s.setPosition r ph).nrounds = s.nrounds := rfl
@[simp] theorem State.setPosition_rclen (s : State) (r : BitVec 32) (ph : Phase) : (s.setPosition r ph).rclen = s.rclen := rfl
@[simp] theorem State.setPosition_busy (s : State) (r : BitVec 32) (ph : Phase) : (s.setPosition r ph).busy = s.busy := rfl
@[simp] theorem State.setPosition_done (s : State) (r : BitVec 32) (ph : Phase) : (s.setPosition r ph).done = s.done := rfl
@[simp] theorem State.setPosition_err (s : State) (r : BitVec 32) (ph : Phase) : (s.setPosition r ph).err = s.err := rfl
@[simp] theorem State.setPosition_drop (s : State) (r : BitVec 32) (ph : Phase) : (s.setPosition r ph).drop = s.drop := rfl
@[simp] theorem State.setPosition_errcode (s : State) (r : BitVec 32) (ph : Phase) : (s.setPosition r ph).errcode = s.errcode := rfl
@[simp] theorem State.setPosition_errinfo (s : State) (r : BitVec 32) (ph : Phase) : (s.setPosition r ph).errinfo = s.errinfo := rfl
@[simp] theorem State.setPosition_round (s : State) (r : BitVec 32) (ph : Phase) : (s.setPosition r ph).round = r := rfl
@[simp] theorem State.setPosition_phase (s : State) (r : BitVec 32) (ph : Phase) : (s.setPosition r ph).phase = ph := rfl
@[simp] theorem State.setPosition_opl (s : State) (r : BitVec 32) (ph : Phase) : (s.setPosition r ph).opl = s.opl := rfl
@[simp] theorem State.setPosition_v (s : State) (r : BitVec 32) (ph : Phase) : (s.setPosition r ph).v = s.v := rfl
@[simp] theorem State.setPosition_checked (s : State) (r : BitVec 32) (ph : Phase) : (s.setPosition r ph).checked = s.checked := rfl
@[simp] theorem State.setPosition_inputs (s : State) (r : BitVec 32) (ph : Phase) : (s.setPosition r ph).inputs = s.inputs := rfl
@[simp] theorem State.setPosition_readData (s : State) (r : BitVec 32) (ph : Phase) : (s.setPosition r ph).readData = s.readData := rfl
@[simp] theorem State.setPosition_busyReads (s : State) (r : BitVec 32) (ph : Phase) : (s.setPosition r ph).busyReads = s.busyReads := rfl
@[simp] theorem State.setPosition_resets (s : State) (r : BitVec 32) (ph : Phase) : (s.setPosition r ph).resets = s.resets := rfl

/-! ### `startAt` -/

@[simp] theorem State.startAt_inst (s : State) (r : BitVec 32) : (s.startAt r).inst = s.inst := rfl
@[simp] theorem State.startAt_x (s : State) (r : BitVec 32) : (s.startAt r).x = s.x := rfl
@[simp] theorem State.startAt_mds (s : State) (r : BitVec 32) : (s.startAt r).mds = s.mds := rfl
@[simp] theorem State.startAt_rc (s : State) (r : BitVec 32) : (s.startAt r).rc = s.rc := rfl
@[simp] theorem State.startAt_alpha (s : State) (r : BitVec 32) : (s.startAt r).alpha = s.alpha := rfl
@[simp] theorem State.startAt_alphaInv (s : State) (r : BitVec 32) : (s.startAt r).alphaInv = s.alphaInv := rfl
@[simp] theorem State.startAt_nrounds (s : State) (r : BitVec 32) : (s.startAt r).nrounds = s.nrounds := rfl
@[simp] theorem State.startAt_rclen (s : State) (r : BitVec 32) : (s.startAt r).rclen = s.rclen := rfl
@[simp] theorem State.startAt_busy (s : State) (r : BitVec 32) : (s.startAt r).busy = s.busy := rfl
@[simp] theorem State.startAt_done (s : State) (r : BitVec 32) : (s.startAt r).done = s.done := rfl
@[simp] theorem State.startAt_err (s : State) (r : BitVec 32) : (s.startAt r).err = s.err := rfl
@[simp] theorem State.startAt_drop (s : State) (r : BitVec 32) : (s.startAt r).drop = s.drop := rfl
@[simp] theorem State.startAt_errcode (s : State) (r : BitVec 32) : (s.startAt r).errcode = s.errcode := rfl
@[simp] theorem State.startAt_errinfo (s : State) (r : BitVec 32) : (s.startAt r).errinfo = s.errinfo := rfl
@[simp] theorem State.startAt_round (s : State) (r : BitVec 32) : (s.startAt r).round = r := rfl
@[simp] theorem State.startAt_phase (s : State) (r : BitVec 32) : (s.startAt r).phase = .sboxF := rfl
@[simp] theorem State.startAt_opl (s : State) (r : BitVec 32) : (s.startAt r).opl = s.opl := rfl
@[simp] theorem State.startAt_v (s : State) (r : BitVec 32) : (s.startAt r).v = s.v := rfl
@[simp] theorem State.startAt_checked (s : State) (r : BitVec 32) : (s.startAt r).checked = true := rfl
@[simp] theorem State.startAt_inputs (s : State) (r : BitVec 32) : (s.startAt r).inputs = s.inputs := rfl
@[simp] theorem State.startAt_readData (s : State) (r : BitVec 32) : (s.startAt r).readData = s.readData := rfl
@[simp] theorem State.startAt_busyReads (s : State) (r : BitVec 32) : (s.startAt r).busyReads = s.busyReads := rfl
@[simp] theorem State.startAt_resets (s : State) (r : BitVec 32) : (s.startAt r).resets = s.resets := rfl

/-! ### `dropWrite` -/

@[simp] theorem State.dropWrite_inst (s : State) : (s.dropWrite).inst = s.inst := rfl
@[simp] theorem State.dropWrite_x (s : State) : (s.dropWrite).x = s.x := rfl
@[simp] theorem State.dropWrite_mds (s : State) : (s.dropWrite).mds = s.mds := rfl
@[simp] theorem State.dropWrite_rc (s : State) : (s.dropWrite).rc = s.rc := rfl
@[simp] theorem State.dropWrite_alpha (s : State) : (s.dropWrite).alpha = s.alpha := rfl
@[simp] theorem State.dropWrite_alphaInv (s : State) : (s.dropWrite).alphaInv = s.alphaInv := rfl
@[simp] theorem State.dropWrite_nrounds (s : State) : (s.dropWrite).nrounds = s.nrounds := rfl
@[simp] theorem State.dropWrite_rclen (s : State) : (s.dropWrite).rclen = s.rclen := rfl
@[simp] theorem State.dropWrite_busy (s : State) : (s.dropWrite).busy = s.busy := rfl
@[simp] theorem State.dropWrite_done (s : State) : (s.dropWrite).done = s.done := rfl
@[simp] theorem State.dropWrite_err (s : State) : (s.dropWrite).err = s.err := rfl
@[simp] theorem State.dropWrite_drop (s : State) : (s.dropWrite).drop = true := rfl
@[simp] theorem State.dropWrite_errcode (s : State) : (s.dropWrite).errcode = s.errcode := rfl
@[simp] theorem State.dropWrite_errinfo (s : State) : (s.dropWrite).errinfo = s.errinfo := rfl
@[simp] theorem State.dropWrite_round (s : State) : (s.dropWrite).round = s.round := rfl
@[simp] theorem State.dropWrite_phase (s : State) : (s.dropWrite).phase = s.phase := rfl
@[simp] theorem State.dropWrite_opl (s : State) : (s.dropWrite).opl = s.opl := rfl
@[simp] theorem State.dropWrite_v (s : State) : (s.dropWrite).v = s.v := rfl
@[simp] theorem State.dropWrite_checked (s : State) : (s.dropWrite).checked = s.checked := rfl
@[simp] theorem State.dropWrite_inputs (s : State) : (s.dropWrite).inputs = s.inputs := rfl
@[simp] theorem State.dropWrite_readData (s : State) : (s.dropWrite).readData = s.readData := rfl
@[simp] theorem State.dropWrite_busyReads (s : State) : (s.dropWrite).busyReads = s.busyReads := rfl
@[simp] theorem State.dropWrite_resets (s : State) : (s.dropWrite).resets = s.resets := rfl

/-! ### `hostRead` -/

@[simp] theorem State.hostRead_inst (s : State) (a : HostAddr) : (s.hostRead a).inst = s.inst := rfl
@[simp] theorem State.hostRead_x (s : State) (a : HostAddr) : (s.hostRead a).x = s.x := rfl
@[simp] theorem State.hostRead_mds (s : State) (a : HostAddr) : (s.hostRead a).mds = s.mds := rfl
@[simp] theorem State.hostRead_rc (s : State) (a : HostAddr) : (s.hostRead a).rc = s.rc := rfl
@[simp] theorem State.hostRead_alpha (s : State) (a : HostAddr) : (s.hostRead a).alpha = s.alpha := rfl
@[simp] theorem State.hostRead_alphaInv (s : State) (a : HostAddr) : (s.hostRead a).alphaInv = s.alphaInv := rfl
@[simp] theorem State.hostRead_nrounds (s : State) (a : HostAddr) : (s.hostRead a).nrounds = s.nrounds := rfl
@[simp] theorem State.hostRead_rclen (s : State) (a : HostAddr) : (s.hostRead a).rclen = s.rclen := rfl
@[simp] theorem State.hostRead_busy (s : State) (a : HostAddr) : (s.hostRead a).busy = s.busy := rfl
@[simp] theorem State.hostRead_done (s : State) (a : HostAddr) : (s.hostRead a).done = s.done := rfl
@[simp] theorem State.hostRead_err (s : State) (a : HostAddr) : (s.hostRead a).err = s.err := rfl
@[simp] theorem State.hostRead_drop (s : State) (a : HostAddr) : (s.hostRead a).drop = s.drop := rfl
@[simp] theorem State.hostRead_errcode (s : State) (a : HostAddr) : (s.hostRead a).errcode = s.errcode := rfl
@[simp] theorem State.hostRead_errinfo (s : State) (a : HostAddr) : (s.hostRead a).errinfo = s.errinfo := rfl
@[simp] theorem State.hostRead_round (s : State) (a : HostAddr) : (s.hostRead a).round = s.round := rfl
@[simp] theorem State.hostRead_phase (s : State) (a : HostAddr) : (s.hostRead a).phase = s.phase := rfl
@[simp] theorem State.hostRead_opl (s : State) (a : HostAddr) : (s.hostRead a).opl = s.opl := rfl
@[simp] theorem State.hostRead_v (s : State) (a : HostAddr) : (s.hostRead a).v = s.v := rfl
@[simp] theorem State.hostRead_checked (s : State) (a : HostAddr) : (s.hostRead a).checked = s.checked := rfl
@[simp] theorem State.hostRead_inputs (s : State) (a : HostAddr) : (s.hostRead a).inputs = s.inputs := rfl
@[simp] theorem State.hostRead_readData (s : State) (a : HostAddr) : (s.hostRead a).readData = s.portWord a.toNat := rfl
@[simp] theorem State.hostRead_busyReads (s : State) (a : HostAddr) : (s.hostRead a).busyReads = if s.readIsFree a.toNat then s.busyReads + 1 else s.busyReads := rfl
@[simp] theorem State.hostRead_resets (s : State) (a : HostAddr) : (s.hostRead a).resets = s.resets := rfl

end Sys2Proof.Machine
end

