-- ==== Sys2Proof/Laws/Store.lean ====
section
/-! SUPPORT. What the operations over a store and over limbs do: a read after a write, the canonical form
kept, an element written and read back. -/

namespace Sys2Proof.Machine

/-! ### One word -/

@[simp] theorem readCell_writeCell_same (st : Store) (a : Nat) (v : Word) :
    readCell (writeCell st a v) a = some v := by
  induction st with
  | nil => simp [writeCell, readCell]
  | cons e rest ih =>
    obtain ⟨k, w⟩ := e
    simp only [writeCell]
    split
    · simp [readCell]
    · split
      · simp [readCell]
      · next h => rw [readCell, if_neg fun hk => h hk.symm, ih]

theorem readCell_writeCell_other (st : Store) {a b : Nat} (v : Word) (h : b ≠ a) :
    readCell (writeCell st a v) b = readCell st b := by
  induction st with
  | nil => simp [writeCell, readCell, Ne.symm h]
  | cons e rest ih =>
    obtain ⟨k, w⟩ := e
    simp only [writeCell]
    split
    · simp [readCell, Ne.symm h]
    · split
      · next h2 => subst h2; simp [readCell, Ne.symm h]
      · simp [readCell, ih]

theorem readCell_writeCell (st : Store) (a b : Nat) (v : Word) :
    readCell (writeCell st a v) b = if b = a then some v else readCell st b := by
  split
  · next h => subst h; simp
  · next h => exact readCell_writeCell_other st v h

/-! ### The canonical form -/

/-- Every offset listed is above `a`. -/
theorem storeSorted_cons_iff (a : Nat) (w : Word) (rest : Store) :
    storeSorted ((a, w) :: rest) = true ↔ (∀ e ∈ rest, a < e.1) ∧ storeSorted rest = true := by
  induction rest generalizing a w with
  | nil => simp [storeSorted]
  | cons e rest ih =>
    obtain ⟨b, u⟩ := e
    simp only [storeSorted, Bool.and_eq_true, decide_eq_true_eq, List.mem_cons, forall_eq_or_imp]
    constructor
    · rintro ⟨hab, hs⟩
      refine ⟨⟨hab, fun e he => ?_⟩, hs⟩
      exact lt_trans hab (((ih b u).mp hs).1 e he)
    · rintro ⟨⟨hab, _⟩, hs⟩
      exact ⟨hab, hs⟩

/-- What a written store lists: the new pair, and pairs that were there. -/
theorem mem_writeCell {st : Store} {a : Nat} {v : Word} {e : Nat × Word} (h : e ∈ writeCell st a v) :
    e = (a, v) ∨ e ∈ st := by
  induction st with
  | nil => simpa [writeCell] using h
  | cons hd rest ih =>
    obtain ⟨k, w⟩ := hd
    simp only [writeCell] at h
    split at h
    · simpa using h
    · split at h
      · rcases List.mem_cons.mp h with h | h
        · exact .inl h
        · exact .inr (List.mem_cons_of_mem _ h)
      · rcases List.mem_cons.mp h with h | h
        · exact .inr (h ▸ List.mem_cons_self)
        · exact (ih h).imp id (List.mem_cons_of_mem _)

theorem storeSorted_writeCell (st : Store) (a : Nat) (v : Word) (h : storeSorted st = true) :
    storeSorted (writeCell st a v) = true := by
  induction st with
  | nil => simp [writeCell, storeSorted]
  | cons e rest ih =>
    obtain ⟨k, w⟩ := e
    obtain ⟨hk, hr⟩ := (storeSorted_cons_iff k w rest).mp h
    simp only [writeCell]
    split
    · next hak =>
      refine (storeSorted_cons_iff a v _).mpr ⟨?_, h⟩
      simp only [List.mem_cons, forall_eq_or_imp]
      exact ⟨hak, fun e he => lt_trans hak (hk e he)⟩
    · split
      · next hka => subst hka; exact (storeSorted_cons_iff a v rest).mpr ⟨hk, hr⟩
      · next h1 h2 =>
        refine (storeSorted_cons_iff k w _).mpr ⟨fun e he => ?_, ih hr⟩
        rcases mem_writeCell he with rfl | he
        · exact lt_of_le_of_ne (not_lt.mp h1) (Ne.symm h2)
        · exact hk e he

theorem storeWithin_writeCell {slots limbs : Nat} {st : Store} {a : Nat} (v : Word)
    (h : storeWithin slots limbs st = true) (hs : a / 8 < slots) (hl : a % 8 < limbs) :
    storeWithin slots limbs (writeCell st a v) = true := by
  simp only [storeWithin, List.all_eq_true, Bool.and_eq_true, decide_eq_true_eq] at h ⊢
  intro e he
  rcases mem_writeCell he with rfl | he
  · exact ⟨hs, hl⟩
  · exact h e he

/-- A write of a word that exists keeps the canonical form. -/
theorem storeWf_writeCell {slots limbs : Nat} {st : Store} {a : Nat} (v : Word)
    (h : storeWf slots limbs st = true) (hs : a / 8 < slots) (hl : a % 8 < limbs) :
    storeWf slots limbs (writeCell st a v) = true := by
  simp only [storeWf, Bool.and_eq_true] at h ⊢
  exact ⟨storeSorted_writeCell st a v h.1, storeWithin_writeCell v h.2 hs hl⟩

/-! ### Limbs -/

theorem limb_toNat (v l : Nat) : (limb v l).toNat = v / 2 ^ (64 * l) % 2 ^ 64 := by
  simp [limb]

/-- The low `n` limbs of a number make up the number modulo `2^(64*n)`. -/
theorem limbsValue_limb (v n : Nat) : limbsValue (limb v) n = v % 2 ^ (64 * n) := by
  induction n with
  | zero => simp [limbsValue, Nat.mod_one]
  | succ n ih =>
    rw [limbsValue, ih, limb_toNat, show 64 * (n + 1) = 64 * n + 64 by ring, pow_add, Nat.mod_mul]
    ring

theorem limbsValue_congr {f g : Nat → Word} {n : Nat} (h : ∀ l < n, f l = g l) :
    limbsValue f n = limbsValue g n := by
  induction n with
  | zero => rfl
  | succ n ih => rw [limbsValue, limbsValue, ih fun l hl => h l (by omega), h n (by omega)]

theorem limbsValue_lt (f : Nat → Word) (n : Nat) : limbsValue f n < 2 ^ (64 * n) := by
  induction n with
  | zero => simp [limbsValue]
  | succ n ih =>
    have h : (f n).toNat < 2 ^ 64 := (f n).isLt
    rw [limbsValue, show 64 * (n + 1) = 64 * n + 64 by ring, pow_add]
    calc limbsValue f n + (f n).toNat * 2 ^ (64 * n)
        < 2 ^ (64 * n) + (f n).toNat * 2 ^ (64 * n) := by omega
      _ = ((f n).toNat + 1) * 2 ^ (64 * n) := by ring
      _ ≤ 2 ^ 64 * 2 ^ (64 * n) := Nat.mul_le_mul_right _ h
      _ = 2 ^ (64 * n) * 2 ^ 64 := by ring

/-! ### Elements -/

theorem readCell_writeLimbs (st : Store) (base v n a : Nat) :
    readCell (writeLimbs st base v n) a =
      if base ≤ a ∧ a < base + n then some (limb v (a - base)) else readCell st a := by
  induction n with
  | zero => simp only [writeLimbs]; rw [if_neg (by omega)]
  | succ n ih =>
    rw [writeLimbs, readCell_writeCell, ih]
    split
    · next h => subst h; simp
    · split
      · next h1 h2 => rw [if_pos (by omega)]
      · next h1 h2 => rw [if_neg (by omega)]

theorem readCell_writeSlots (st : Store) {limbs : Nat} (hl : limbs ≤ 8) (f : Nat → Nat) (n a : Nat) :
    readCell (writeSlots st limbs f n) a =
      if a / 8 < n ∧ a % 8 < limbs then some (limb (f (a / 8)) (a % 8)) else readCell st a := by
  induction n with
  | zero => simp [writeSlots]
  | succ n ih =>
    rw [writeSlots, readCell_writeLimbs, ih]
    split
    · next h =>
      have h1 : a / 8 = n := by omega
      have h2 : a - 8 * n = a % 8 := by omega
      rw [if_pos (by omega), h1, h2]
    · split
      · next h1 h2 => rw [if_pos (by omega)]
      · next h1 h2 => rw [if_neg (by omega)]

theorem storeWf_writeLimbs {slots limbs : Nat} {st : Store} {k : Nat} (v : Nat) {n : Nat}
    (h : storeWf slots limbs st = true) (hk : k < slots) (hn : n ≤ limbs) (hl : limbs ≤ 8) :
    storeWf slots limbs (writeLimbs st (8 * k) v n) = true := by
  induction n with
  | zero => exact h
  | succ n ih => exact storeWf_writeCell _ (ih (by omega)) (by omega) (by omega)

theorem storeWf_writeSlots {slots limbs : Nat} {st : Store} (f : Nat → Nat) {n : Nat}
    (h : storeWf slots limbs st = true) (hn : n ≤ slots) (hl : limbs ≤ 8) :
    storeWf slots limbs (writeSlots st limbs f n) = true := by
  induction n with
  | zero => exact h
  | succ n ih => exact storeWf_writeLimbs _ (ih (by omega)) (by omega) le_rfl hl

end Sys2Proof.Machine
end

