-- ==== Sys2Proof/Laws/Ops.lean ====
section
/-! SUPPORT. What each shared operation can do, said once: the bounds every instance keeps, the elements
after a vector write, the checks, error entry, issue and the host port. -/

namespace Sys2Proof.Machine

open Sys2Proof.Config

/-! ### Instances (R9) -/

theorem inst_prime (I : Instance) : I.P.Prime := I.valid.1

theorem inst_three_le (I : Instance) : 3 ≤ I.P := I.valid.2.1

theorem inst_pos (I : Instance) : 0 < I.P := by have := inst_three_le I; omega

theorem inst_m_pos (I : Instance) : 1 ≤ I.m := I.valid.2.2.2.1

theorem inst_m_le (I : Instance) : I.m ≤ 32 := I.valid.2.2.2.2.1

theorem inst_depth_le (I : Instance) : I.rcDepth ≤ 131072 := I.valid.2.2.2.2.2.2.1

theorem inst_L_le (I : Instance) : I.L ≤ 8 := by
  have h : I.W ≤ 512 := I.valid.2.2.1
  unfold Params.L
  omega

/-- A field element fits its slot (R4, R67). -/
theorem inst_P_lt (I : Instance) : I.P < 2 ^ (64 * I.L) := by
  have h1 : I.P < 2 ^ I.W := Nat.lt_log2_self
  have h2 : I.W ≤ 64 * I.L := by unfold Params.L; omega
  exact lt_of_lt_of_le h1 (Nat.pow_le_pow_right (by norm_num) h2)

/-! ### Elements after a vector write (R18, R114, R168) -/

theorem xWord_setX (s : State) (f : Nat → Nat) (off : Nat) :
    (s.setX f).xWord off =
      if off / 8 < s.inst.m ∧ off % 8 < s.inst.L then limb (f (off / 8)) (off % 8) else s.xWord off := by
  simp only [State.xWord, storeWord, State.setX_x, State.setX_resets,
    readCell_writeSlots _ (inst_L_le s.inst)]
  split <;> simp

theorem mdsWord_setMds (s : State) (f : Nat → Nat) (off : Nat) :
    (s.setMds f).mdsWord off =
      if off / 8 < s.inst.m * s.inst.m ∧ off % 8 < s.inst.L then limb (f (off / 8)) (off % 8)
      else s.mdsWord off := by
  simp only [State.mdsWord, storeWord, State.setMds_mds, State.setMds_resets,
    readCell_writeSlots _ (inst_L_le s.inst)]
  split <;> simp

/-- `x[j]` after `x <- f`, for values that are field elements. -/
theorem xVal_setX {s : State} {f : Nat → Nat} {j : Nat} (hj : j < s.inst.m) (hf : f j < s.inst.P) :
    (s.setX f).xVal j = f j := by
  have hL := inst_L_le s.inst
  have hw : ∀ l < s.inst.L, (s.setX f).xWord (8 * j + l) = limb (f j) l := by
    intro l hl
    rw [xWord_setX, show (8 * j + l) / 8 = j by omega, show (8 * j + l) % 8 = l by omega,
      if_pos ⟨hj, hl⟩]
  rw [State.xVal, State.setX_inst, slotValue, limbsValue_congr hw, limbsValue_limb]
  exact Nat.mod_eq_of_lt (lt_trans hf (inst_P_lt s.inst))

/-- Slot `e` of the matrix store after all of it is written, for values that are field elements. -/
theorem mdsSlot_setMds {s : State} {f : Nat → Nat} {e : Nat} (he : e < s.inst.m * s.inst.m)
    (hf : f e < s.inst.P) : (s.setMds f).mdsSlot e = f e := by
  have hL := inst_L_le s.inst
  have hw : ∀ l < s.inst.L, (s.setMds f).mdsWord (8 * e + l) = limb (f e) l := by
    intro l hl
    rw [mdsWord_setMds, show (8 * e + l) / 8 = e by omega, show (8 * e + l) % 8 = l by omega,
      if_pos ⟨he, hl⟩]
  rw [State.mdsSlot, State.setMds_inst, slotValue, limbsValue_congr hw, limbsValue_limb]
  exact Nat.mod_eq_of_lt (lt_trans hf (inst_P_lt s.inst))

@[simp] theorem mdsSlot_setX (s : State) (f : Nat → Nat) (e : Nat) :
    (s.setX f).mdsSlot e = s.mdsSlot e := rfl

@[simp] theorem mdsVal_setX (s : State) (f : Nat → Nat) (i j : Nat) :
    (s.setX f).mdsVal i j = s.mdsVal i j := rfl

@[simp] theorem rcVal_setX (s : State) (f : Nat → Nat) (k : Nat) : (s.setX f).rcVal k = s.rcVal k := rfl

@[simp] theorem xVal_setMds (s : State) (f : Nat → Nat) (j : Nat) : (s.setMds f).xVal j = s.xVal j := rfl

@[simp] theorem xVal_complete (s : State) (j : Nat) : s.complete.xVal j = s.xVal j := rfl

@[simp] theorem xVal_setPosition (s : State) (r : BitVec 32) (ph : Phase) (j : Nat) :
    (s.setPosition r ph).xVal j = s.xVal j := rfl

/-- The store of `x` keeps its canonical form under a vector write. -/
theorem storeWf_setX {s : State} (f : Nat → Nat) (h : storeWf s.inst.m s.inst.L s.x = true) :
    storeWf s.inst.m s.inst.L (s.setX f).x = true :=
  storeWf_writeSlots f h le_rfl (inst_L_le s.inst)

/-- The matrix store keeps its canonical form when it is written whole. -/
theorem storeWf_setMds {s : State} (f : Nat → Nat)
    (h : storeWf (s.inst.m * s.inst.m) s.inst.L s.mds = true) :
    storeWf (s.inst.m * s.inst.m) s.inst.L (s.setMds f).mds = true :=
  storeWf_writeSlots f h le_rfl (inst_L_le s.inst)

/-! ### Limbs of a stored value (R35, R67) -/

/-- Limb `l` of the number that some words make up is word `l`. -/
theorem limb_limbsValue {f : Nat → Word} {n l : Nat} (h : l < n) : limb (limbsValue f n) l = f l := by
  induction n with
  | zero => omega
  | succ n ih =>
    apply BitVec.eq_of_toNat_eq
    rw [limb_toNat, limbsValue]
    have hlt := limbsValue_lt f n
    rcases Nat.lt_or_ge l n with hl | hl
    · have hi := congrArg BitVec.toNat (ih hl)
      rw [limb_toNat] at hi
      have hsplit : 2 ^ (64 * n) = 2 ^ (64 * l) * (2 ^ 64 * 2 ^ (64 * (n - l - 1))) := by
        rw [← pow_add, ← pow_add]
        congr 1
        omega
      have hre : limbsValue f n + (f n).toNat * 2 ^ (64 * n) =
          limbsValue f n + 2 ^ (64 * l) * (2 ^ 64 * (2 ^ (64 * (n - l - 1)) * (f n).toNat)) := by
        rw [hsplit]; ring
      rw [hre, Nat.add_mul_div_left _ _ (by positivity), Nat.add_mul_mod_self_left, hi]
    · obtain rfl : l = n := by omega
      rw [Nat.add_mul_div_right _ _ (by positivity), Nat.div_eq_of_lt hlt, Nat.zero_add,
        Nat.mod_eq_of_lt (f l).isLt]

/-- A digit below the ones that change keeps its value. -/
theorem digit_add_high (a t K B C : Nat) (hK : 0 < K) : (a + K * (B * C) * t) / K % B = a / K % B := by
  rw [mul_assoc, Nat.add_mul_div_left _ _ hK, mul_assoc, Nat.add_mul_mod_self_left]

/-- A digit above a block of digits: the block plays no part. -/
theorem digit_above (a w h A B C : Nat) (hA : a < A) (hw : w < B) :
    (a + A * (w + B * h)) / (A * B * C) = h / C := by
  rw [← Nat.div_div_eq_div_mul, ← Nat.div_div_eq_div_mul, Nat.add_mul_div_left _ _ (by omega),
    Nat.div_eq_of_lt hA, Nat.zero_add, Nat.add_mul_div_left _ _ (by omega), Nat.div_eq_of_lt hw,
    Nat.zero_add]

theorem pow64_split {k l : Nat} (h : k < l) : 2 ^ (64 * l) = 2 ^ (64 * k) * (2 ^ 64 * 2 ^ (64 * (l - k - 1))) := by
  rw [← pow_add, ← pow_add]
  congr 1
  omega

theorem setLimb_eq (v l : Nat) (w : Word) : setLimb v l w =
    v % 2 ^ (64 * l) + 2 ^ (64 * l) * (w.toNat + 2 ^ 64 * (v / 2 ^ (64 * (l + 1)))) := by
  rw [setLimb, show 64 * (l + 1) = 64 * l + 64 by ring, pow_add]
  ring

/-- Writing one limb changes that limb and no other. -/
theorem limb_setLimb (v l k : Nat) (w : Word) :
    limb (setLimb v l w) k = if k = l then w else limb v k := by
  apply BitVec.eq_of_toNat_eq
  have hlow : v % 2 ^ (64 * l) < 2 ^ (64 * l) := Nat.mod_lt _ (by positivity)
  rw [limb_toNat, setLimb_eq]
  rcases Nat.lt_trichotomy k l with h | h | h
  · rw [if_neg (by omega), limb_toNat]
    conv_rhs => rw [← Nat.mod_add_div v (2 ^ (64 * l))]
    rw [pow64_split h, digit_add_high _ _ _ _ _ (by positivity), digit_add_high _ _ _ _ _ (by positivity)]
  · subst h
    rw [if_pos rfl, Nat.add_mul_div_left _ _ (by positivity), Nat.div_eq_of_lt hlow, Nat.zero_add,
      Nat.add_mul_mod_self_left, Nat.mod_eq_of_lt w.isLt]
  · rw [if_neg (by omega), limb_toNat, pow64_split h, ← mul_assoc, digit_above _ _ _ _ _ _ hlow w.isLt,
      show 64 * (l + 1) = 64 * l + 64 by ring, pow_add, Nat.div_div_eq_div_mul]

/-! ### The checks (R225 to R229, R232, R233) -/

@[simp] theorem firstError_nil : firstError [] = none := rfl

@[simp] theorem firstError_none (r : List (Option ErrRecord)) : firstError (none :: r) = firstError r := rfl

@[simp] theorem firstError_some (e : ErrRecord) (r : List (Option ErrRecord)) :
    firstError (some e :: r) = some e := rfl

/-- A list of tests passes exactly when each of them does. -/
theorem firstError_eq_none_iff (l : List (Option ErrRecord)) :
    firstError l = none ↔ ∀ t ∈ l, t = none := by
  induction l with
  | nil => simp
  | cons t r ih => cases t <;> simp [ih]

@[simp] theorem errIf_eq_none_iff (c : Bool) (e : ErrCode) (i : Word) : errIf c e i = none ↔ c = false := by
  cases c <;> simp [errIf]

/-- What a step with checks does: error entry on the first failing test, else the given state. -/
theorem checkedStep_cases (s : State) (test : Option ErrRecord) (ok : State) :
    (∃ e, test = some e ∧ s.checkedStep test ok = s.raise e) ∨
      (test = none ∧ s.checkedStep test ok = ok) := by
  cases test with
  | none => exact .inr ⟨rfl, rfl⟩
  | some e => exact .inl ⟨e, rfl, rfl⟩

/-- The scan finds the lowest index with an unreduced value. -/
theorem firstUnreduced_eq_some {P : Nat} {f : Nat → Nat} {n k b : Nat}
    (h : firstUnreduced P f n k = some b) :
    k ≤ b ∧ b < k + n ∧ P ≤ f b ∧ ∀ a, k ≤ a → a < b → f a < P := by
  induction n generalizing k with
  | zero => simp [firstUnreduced] at h
  | succ n ih =>
    rw [firstUnreduced] at h
    split at h
    · next hk =>
      obtain rfl : k = b := by simpa using h
      exact ⟨le_rfl, by omega, hk, fun a h1 h2 => by omega⟩
    · next hk =>
      obtain ⟨h1, h2, h3, h4⟩ := ih h
      refine ⟨by omega, by omega, h3, fun a ha hb => ?_⟩
      rcases Nat.eq_or_lt_of_le ha with rfl | ha
      · omega
      · exact h4 a ha hb

theorem firstUnreduced_eq_none_iff {P : Nat} {f : Nat → Nat} {n k : Nat} :
    firstUnreduced P f n k = none ↔ ∀ a, k ≤ a → a < k + n → f a < P := by
  induction n generalizing k with
  | zero => simp only [firstUnreduced, true_iff]; intro a h1 h2; omega
  | succ n ih =>
    rw [firstUnreduced]
    split
    · next hk =>
      simp only [reduceCtorEq, false_iff, not_forall]
      exact ⟨k, le_rfl, by omega, by omega⟩
    · next hk =>
      rw [ih]
      constructor
      · intro h a h1 h2
        rcases Nat.eq_or_lt_of_le h1 with rfl | h1
        · omega
        · exact h a h1 (by omega)
      · exact fun h a h1 h2 => h a (by omega) (by omega)

/-- A range passes exactly when all its values are field elements. -/
theorem checkRange_eq_none_iff {P region n k : Nat} {f : Nat → Nat} :
    checkRange P region f n k = none ↔ ∀ a, k ≤ a → a < k + n → f a < P := by
  rw [checkRange, Option.map_eq_none_iff, firstUnreduced_eq_none_iff]

/-! ### Host port (R70 to R73, R95 to R99) -/

/-- A dropped or accepted write, error entry, an immediate command, or a data write: all a host write can do. -/
theorem hostWrite_cases (a : HostAddr) (v : Word) (s : State) :
    (s.busy = true ∧ hostWrite a v s = .next s.dropWrite) ∨
      (s.busy = false ∧ a = cmdAddr ∧ hostWrite a v s = issue v s) ∨
      (s.busy = false ∧ a ≠ cmdAddr ∧ hostWrite a v s = .next (s.storeLoc (locate s.inst a.toNat) v)) := by
  unfold hostWrite
  cases s.busy <;> by_cases h : a = cmdAddr <;> simp [h]

/-- All the issue of a word can do. -/
theorem issue_cases (w : Word) (s : State) :
    (∃ i, decode w = .ok i ∧ executing i = true ∧
        issue w s = .next (if s.err then s.dropWrite else s.accept w)) ∨
      (∃ i, decode w = .ok i ∧ executing i = false ∧ issue w s = exec i s) ∨
      (∃ r, decode w = .error r ∧
        issue w s = .next (if s.err then s.dropWrite else s.raise (.illcmd, w))) := by
  unfold issue
  cases h : decode w with
  | error r => exact .inr (.inr ⟨r, rfl, rfl⟩)
  | ok i =>
    cases hx : executing i with
    | true => exact .inl ⟨i, rfl, hx, by simp [hx]⟩
    | false => exact .inr (.inl ⟨i, rfl, hx, by simp [hx]⟩)

/-- All the sequencer's turn can do. -/
theorem sequencer_cases (s : State) :
    (s.busy = false ∧ sequencer s = .next s) ∨
      (s.busy = true ∧ ∃ i, decode s.opl = .ok i ∧ executing i = true ∧ sequencer s = exec i s) ∨
      (s.busy = true ∧ sequencer s = .fault .oplHoldsNoExecutingCommand) := by
  unfold sequencer
  cases s.busy with
  | false => exact .inl ⟨rfl, rfl⟩
  | true =>
    cases h : decode s.opl with
    | error r => exact .inr (.inr ⟨rfl, rfl⟩)
    | ok i =>
      cases hx : executing i with
      | true => exact .inr (.inl ⟨rfl, i, rfl, hx, by simp [hx]⟩)
      | false => exact .inr (.inr ⟨rfl, by simp [hx]⟩)

end Sys2Proof.Machine
end

