-- ==== Sys2Proof/Laws/PerInstr.lean ====
section
/-! SUPPORT. Statements about every command as syntax, one lemma per constructor. -/

namespace Sys2Proof.Laws.ReservedFieldsZero

/-- The word of a command has zeros in its reserved fields (R91). -/
def Statement (i : Instr) : Prop := rsv1Field (encode i) = 0 ∧ rsv0Field (encode i) = 0

theorem formatC_reserved (imm : Nat) (inv : BitVec 1) (op : BitVec 8) :
    rsv1Field (formatC imm inv op) = 0 ∧ rsv0Field (formatC imm inv op) = 0 := by
  constructor
  · apply BitVec.eq_of_getLsbD_eq
    intro i hi
    simp only [rsv1Field, formatC, BitVec.getLsbD_extractLsb', BitVec.getLsbD_append,
      hi, decide_true, Bool.true_and]
    rw [if_neg (by omega), if_neg (by omega), if_neg (by omega), if_neg (by omega)]
    simp
  · apply BitVec.eq_of_getLsbD_eq
    intro i hi
    simp only [rsv0Field, formatC, BitVec.getLsbD_extractLsb', BitVec.getLsbD_append,
      hi, decide_true, Bool.true_and]
    rw [if_neg (by omega), if_neg (by omega), if_pos (by omega)]
    simp

theorem nop : Statement .nop := formatC_reserved _ _ _
theorem sboxF : Statement .sboxF := formatC_reserved _ _ _
theorem sboxI : Statement .sboxI := formatC_reserved _ _ _
theorem mdsmul : Statement .mdsmul := formatC_reserved _ _ _
theorem addrc (k : Nat) : Statement (.addrc k) := formatC_reserved _ _ _
theorem round (i : Nat) : Statement (.round i) := formatC_reserved _ _ _
theorem permute : Statement .permute := formatC_reserved _ _ _
theorem mdsgen : Statement .mdsgen := formatC_reserved _ _ _
theorem clrstat : Statement .clrstat := formatC_reserved _ _ _

end Sys2Proof.Laws.ReservedFieldsZero
end

