-- ==== Sys2Proof/Laws/Ref255.lean ====
section
/-! SUPPORT. The instance `REF255` of spec/00_scope.md R6: its modulus is prime (Lucas' test on the
factorization of `P - 1` that spec/95_test_vectors.md L2.8 lists), so the engine can be built for it. -/

namespace Sys2Proof.Config

/-- The modulus of `REF255` (R6). -/
abbrev ref255P : Nat := 0x73eda753299d7d483339d80809a1d80553bda402fffe5bfeffffffff00000001

/-- The factorization of `P - 1` that spec/95_test_vectors.md L2.8 gives. -/
theorem ref255_factors : ref255P - 1 = 2 ^ 32 * 3 * 11 * 19 * 10177 * 125527 * 859267 * 906349 ^ 2 *
    2508409 * 2529403 * 52437899 * 254760293 ^ 2 := by norm_num

/-- The primes of that factorization are the only prime divisors of `P - 1`. -/
theorem ref255_prime_divisor {q : Nat} (hq : q.Prime) (h : q ∣ ref255P - 1) :
    q = 2 ∨ q = 3 ∨ q = 11 ∨ q = 19 ∨ q = 10177 ∨ q = 125527 ∨ q = 859267 ∨ q = 906349 ∨
      q = 2508409 ∨ q = 2529403 ∨ q = 52437899 ∨ q = 254760293 := by
  rw [ref255_factors] at h
  have same {r : Nat} (hr : r.Prime) (hd : q ∣ r) : q = r := (Nat.prime_dvd_prime_iff_eq hq hr).mp hd
  simp only [hq.dvd_mul] at h
  rcases h with ((((((((((h | h) | h) | h) | h) | h) | h) | h) | h) | h) | h) | h
  · exact .inl (same (by norm_num) (hq.dvd_of_dvd_pow h))
  · have := same (by norm_num) h; omega
  · have := same (by norm_num) h; omega
  · have := same (by norm_num) h; omega
  · have := same (by norm_num) h; omega
  · have := same (by norm_num) h; omega
  · have := same (by norm_num) h; omega
  · have := same (by norm_num) (hq.dvd_of_dvd_pow h); omega
  · have := same (by norm_num) h; omega
  · have := same (by norm_num) h; omega
  · have := same (by norm_num) h; omega
  · have := same (by norm_num) (hq.dvd_of_dvd_pow h); omega

/-- A literal below the modulus other than 1 is not 1 in the field. -/
theorem ref255_ne_one {n : Nat} (hn : n % ref255P ≠ 1) : ((n : Nat) : ZMod ref255P) ≠ 1 := by
  intro h
  rw [← Nat.cast_one, ZMod.natCast_eq_natCast_iff'] at h
  exact hn (h.trans (by norm_num))

theorem ref255_prime : Nat.Prime ref255P := by
  refine lucas_primality ref255P (7 : ZMod ref255P) (by reduce_mod_char) fun q hq hd => ?_
  rcases ref255_prime_divisor hq hd with
    rfl | rfl | rfl | rfl | rfl | rfl | rfl | rfl | rfl | rfl | rfl | rfl <;>
  · norm_num only
    reduce_mod_char
    exact_mod_cast ref255_ne_one (by norm_num)

/-- `REF255` (R6).  The spec leaves its generator element and its constants depth open. -/
def ref255 (G rcDepth : Nat) (hG : G < ref255P) (hlo : 6 ≤ rcDepth) (hhi : rcDepth ≤ 131072) : Instance :=
  ⟨⟨ref255P, 3, G, rcDepth⟩,
    ⟨ref255_prime, by norm_num, (by decide : ref255P.log2 + 1 ≤ 512), by norm_num, by norm_num, hlo, hhi, hG⟩⟩

end Sys2Proof.Config
end

