-- ==== Sys2Proof/Tests/Slice0.lean ====
section
/-! SUPPORT. Tests of single steps on small states, each expected value taken from spec/95_test_vectors.md or
the rule named, and for every statement with hypotheses a state and operands that meet them. -/

namespace Sys2Proof.Tests

open Sys2Proof Sys2Proof.Machine Sys2Proof.Config

/-! ### Small states -/

/-- A store that holds one-limb elements from slot 0 on. -/
def slots (vs : List Nat) : Store := vs.zipIdx.map fun (v, k) => (8 * k, BitVec.ofNat 64 v)

/-- The base configuration of spec/95_test_vectors.md (`TOY11`, `m = 2`) with a given `x`. -/
def base (x : List Nat) : State :=
  { State.resetOf toy11 0 with
    x := slots x, mds := slots [9, 3, 5, 7], rc := slots [1, 2, 3, 4, 5, 6, 7, 8],
    alpha := 3, alphaInv := 7, rclen := 8, nrounds := 2 }

/-- The base configuration with a command accepted. -/
def running (i : Instr) : State := (base [0, 1]).accept (encode i)

/-- The base configuration inside a command: past its check step, at a position. -/
def inside (i : Instr) (r : BitVec 32) (ph : Phase) (x : List Nat) : State :=
  { (base x).accept (encode i) with checked := true, round := r, phase := ph }

/-- The next state, or the given one where there is none. -/
def nextOr (o : Host.Outcome State Fault Refusal) (d : State) : State :=
  match o with
  | .next t => t
  | .fault _ => d
  | .refused _ => d

/-- What a command leaves, seen by the host: `x`, `STATUS`, `ERRCODE`, `ERRINFO`. -/
def seen (s : State) : List Nat × Word × Word × Word :=
  ((List.range s.inst.m).map s.xVal, s.statusWord, s.errcodeWord, s.errinfo)

/-- What the host sees after one step of a command run in `s` (a fault or refusal would leave `s`). -/
def after (i : Instr) (s : State) : List Nat × Word × Word × Word := seen (nextOr (exec i s) s)

/-! ### Well-formedness: an ill-formed term for each check -/

theorem test_wf_addrc_too_big : (Instr.addrc (2 ^ 32)).wellFormed = false := by decide
theorem test_wf_round_too_big : (Instr.round (2 ^ 32)).wellFormed = false := by decide
theorem test_wf_round_biggest : (Instr.round (2 ^ 32 - 1)).wellFormed = true := by decide

/-- U9: composite `P`, `P = 2`, `m = 0`, `m > 32`, `W > 512`, `RC_DEPTH < 2m`, `RC_DEPTH` too big, `G >= P`. -/
theorem test_params_composite : ¬ (Params.mk 9 2 2 64).Valid := fun h => absurd h.1 (by norm_num)
theorem test_params_two : ¬ (Params.mk 2 2 1 64).Valid := fun h => absurd h.2.1 (by decide)
theorem test_params_too_wide : ¬ (Params.mk (2 ^ 256 * 2 ^ 256) 2 1 64).Valid :=
  fun h => absurd h.2.2.1 (by decide +kernel)
theorem test_params_no_lane : ¬ (Params.mk 11 0 2 64).Valid := fun h => absurd h.2.2.2.1 (by decide)
theorem test_params_too_many_lanes : ¬ (Params.mk 11 33 2 80).Valid := fun h => absurd h.2.2.2.2.1 (by decide)
theorem test_params_shallow : ¬ (Params.mk 11 2 2 3).Valid := fun h => absurd h.2.2.2.2.2.1 (by decide)
theorem test_params_too_deep : ¬ (Params.mk 11 2 2 131073).Valid := fun h => absurd h.2.2.2.2.2.2.1 (by decide)
theorem test_params_generator : ¬ (Params.mk 11 2 11 64).Valid := fun h => absurd h.2.2.2.2.2.2.2 (by decide)
theorem test_ofParams_refuses : Instance.ofParams? ⟨9, 2, 2, 64⟩ = none := dif_neg test_params_composite
theorem test_ofParams_builds : Instance.ofParams? ⟨11, 2, 2, 64⟩ = some toy11 := dif_pos toy11.valid

/-! ### Decoding: words written out from R91 as rsv1, imm, rsv0, inv, op; the illegal ones from R105 and L2.9 -/

theorem test_decode_nop : decode 0b0000000000000000_00000000000000000000000000000000_0000000_0_00000000#64 = .ok .nop := by decide
theorem test_decode_sboxF : decode 0b0000000000000000_00000000000000000000000000000000_0000000_0_00000001#64 = .ok .sboxF := by decide
theorem test_decode_sboxI : decode 0b0000000000000000_00000000000000000000000000000000_0000000_1_00000001#64 = .ok .sboxI := by decide
theorem test_decode_mdsmul : decode 0b0000000000000000_00000000000000000000000000000000_0000000_0_00000010#64 = .ok .mdsmul := by decide
theorem test_decode_addrc : decode 0b0000000000000000_10000000000000000000000001010001_0000000_0_00000011#64 = .ok (.addrc (2 ^ 31 + 81)) := by decide
theorem test_decode_round : decode 0b0000000000000000_01000000000000000000000000001101_0000000_0_00000100#64 = .ok (.round (2 ^ 30 + 13)) := by decide
theorem test_decode_permute : decode 0b0000000000000000_00000000000000000000000000000000_0000000_0_00000101#64 = .ok .permute := by decide
theorem test_decode_mdsgen : decode 0b0000000000000000_00000000000000000000000000000000_0000000_0_00000110#64 = .ok .mdsgen := by decide
theorem test_decode_clrstat : decode 0b0000000000000000_00000000000000000000000000000000_0000000_0_00000111#64 = .ok .clrstat := by decide
theorem test_decode_reserved_opcode : decode 0x0000000000000008 = .error .reservedOpcode := by decide
theorem test_decode_nop_with_inv : decode 0x0000000000000100 = .error .invNotAllowed := by decide
theorem test_decode_clrstat_with_imm : decode 0x0000000000010007 = .error .immNotAllowed := by decide
theorem test_decode_sbox_bit_63 : decode 0x8000000000000001 = .error .rsv1NotZero := by decide
theorem test_decode_sbox_bit_9 : decode 0x0000000000000201 = .error .rsv0NotZero := by decide
theorem test_encode_addrc : encode (.addrc 4294967295) = 0x0000FFFFFFFF0003 := by decide
theorem test_table_word : decodeTableWord 64 0x00000000000D0004 = some (.round 13) := by decide

/-! ### Field arithmetic (L2.1) -/

theorem test_fadd_wraps : fadd 11 10 1 = 0 := by decide
theorem test_fsub_wraps : fsub 11 3 7 = 7 := by decide
theorem test_fmul : fmul 11 7 8 = 1 := by decide
theorem test_fpow_big_exponent : fpow 11 3 13 = 5 := by decide
theorem test_fpow_zero_zero : fpow 11 0 0 = 1 := by decide
theorem test_finv : finv 11 4 = 3 := by decide
theorem test_fmul_ref255 : fmul ref255P (ref255P - 1) (ref255P - 1) = 1 := by decide

/-! ### One step of each command (L2.2 to L2.7) -/

theorem test_sboxF : after .sboxF (base [2, 3]) = ([8, 5], 2, 0, 0) := by decide
theorem test_sboxF_alpha_before_range :
    after .sboxF { base [11, 12] with alpha := 2 } = ([11, 12], 4, 5, 0) := by decide
theorem test_sboxI : after .sboxI (base [9, 7]) = ([4, 6], 2, 0, 0) := by decide
theorem test_sboxI_range : after .sboxI (base [3, 12]) = ([3, 12], 4, 6, 1) := by decide
theorem test_mdsmul : after .mdsmul (base [4, 9]) = ([8, 6], 2, 0, 0) := by decide
theorem test_mdsmul_range :
    after .mdsmul { base [3, 4] with mds := slots [9, 3, 11, 7] } =
      ([3, 4], 4, 6, 0x0000000100000002) := by decide
theorem test_addrc : after (.addrc 6) (base [3, 7]) = ([10, 4], 2, 0, 0) := by decide
theorem test_addrc_no_wrap :
    after (.addrc 4294967295) (base [3, 7]) = ([3, 7], 4, 4, 0x00000000FFFFFFFF) := by decide
theorem test_round_phase :
    after (.round 1) (inside (.round 1) 1 .injB [0, 5]) = ([7, 2], 0x0000000200000002, 0, 0) := by decide
/-- Vector 6 of L2.5: region 1 is reported before region 2. -/
theorem test_round_range_order :
    after (.round 0) { base [0, 1] with mds := slots [9, 3, 5, 12], rc := slots [11, 2, 3, 4, 5, 6, 7, 8] } =
      ([0, 1], 4, 6, 0x0000000100000003) := by decide
theorem test_permute_phase :
    after .permute (inside .permute 0 .injB [2, 9]) = ([5, 2], 0x0000000100000001, 0, 0) := by decide
theorem test_permute_length :
    after .permute { base [0, 1] with rclen := 4 } = ([0, 1], 4, 3, 4) := by decide
theorem test_mdsgen :
    (nextOr (exec .mdsgen (base [0, 1])) (base [])).mds = slots [9, 3, 5, 7] := by decide
theorem test_mdsgen_wide : (eliminate 11 2 3).1 =
    [[1, 0, 0, 8, 1, 5], [0, 1, 0, 8, 9, 6], [0, 0, 1, 7, 2, 1]] := by decide
theorem test_points : [checkPoints 11 0 2, checkPoints 11 1 2, checkPoints 11 10 2, checkPoints 11 3 3,
    checkPoints 11 3 2] = [some 1, some 1, some 2, some 5, none] := by decide
theorem test_clrstat :
    after .clrstat { base [7, 2] with err := true, drop := true, errcode := .rclen, errinfo := 6, round := 2 } =
      ([7, 2], 0x0000000200000000, 0, 0) := by decide
theorem test_nop :
    after .nop { base [7, 2] with done := true, round := 2 } = ([7, 2], 0x0000000200000002, 0, 0) := by decide

/-- P5 of L3: a four-limb element and a 254-bit exponent. -/
theorem test_sboxI_ref255 :
    fpow ref255P 32 0x2e5f0fbadd72321ce14a56699d73f002217f0e679998f19933333332cccccccd = 2 := by decide +kernel

/-! ### Host port (L2.9, L2.10) -/

/-- The state after one host transaction, and the word it returned. -/
def transact (e : Input) (s : State) : State := nextOr (step { s with inputs := [e] }) s

theorem test_param0 : (transact (.read 1) (base [])).readData = 0x0000000100040002 := by decide
theorem test_param0_ref255 : param0Word (ref255 7 128 (by decide) (by decide) (by decide)) = 0x0000000400FF0003 := by decide
theorem test_reserved_slot : (transact (.read 0x000110) (base [3, 7])).readData = 0 := by decide
theorem test_x_slot : (transact (.read 0x000108) (base [3, 7])).readData = 7 := by decide
theorem test_slot_addresses :
    [slotBase toy11Wide (.mds 1 2), slotBase toy11Wide (.mds 2 2), slotBase toy11 (.mds 1 0),
      slotBase toy11 (.rc 7), slotBase toy11 (.rc 83) + 3] =
      [0x002028, 0x002040, 0x002010, 0x100038, 0x10029B] := by decide
theorem test_nrounds_upper_bits :
    (transact (.write 7 0x100000002) (base [])).nrounds = 2 := by decide
theorem test_status_is_read_only : transact (.write 4 0xFF) (base []) = base [] := by decide
theorem test_illegal_word :
    seen (transact (.write 3 0x10000) (base [0, 1])) = ([0, 1], 4, 1, 0x10000) := by decide
theorem test_gated : (transact (.write 3 5) { base [0, 1] with err := true, errcode := .illcmd }).drop = true := by decide
theorem test_busy_write : transact (.write 0x000100 5) (running .permute) = { running .permute with drop := true } := by decide
theorem test_accept : (transact (.write 3 0x101) (base [0, 1])).statusWord = 1 := by decide
theorem test_check_step : (transact .tick (running (.round 1))).statusWord = 0x0000000100000001 := by decide
theorem test_reset_while_busy : (transact .reset (running .permute)).statusWord = 0 := by decide

/-! ### Host procedures (L2.11) -/

theorem test_chunk : constantAt (fun t => if t = 0 then 5 else 1) 11 0 = 8 := by decide
theorem test_inverse : deriveAlphaInv 11 3 = .ok 7 := by decide
theorem test_not_coprime : deriveAlphaInv 11 5 = .error .alphaNotCoprime := by decide
theorem test_bad_level : estimateRounds 11 3 1 256 5 = .error .unsupportedSecurityLevel := by decide
theorem test_bad_rate : estimateRounds 11 3 3 128 5 = .error .badRate := by decide
theorem test_estimate : estimateRounds 11 8 4 128 5 = .ok 8 := by decide

theorem test_configure_not_coprime :
    configure (fun _ _ => 1) (fun _ _ _ _ => []) ⟨11, 3, 1, 256, 5⟩ = .error .alphaNotCoprime := by decide
theorem test_read_output : expandOp toy11 (.rde (.x 1)) = [.read 0x000108] := by decide

/-! ### For every statement with hypotheses, something that meets them -/

/-- The base configuration with events to come. -/
def withInputs (es : List Input) : State := { base [0, 1] with inputs := es }

/-- The base configuration with an error pending. -/
def erred : State := { base [0, 1] with err := true, errcode := .rclen, errinfo := 6 }

theorem witness_DecodeOfEncode : (Instr.addrc (2 ^ 32 - 1)).wellFormed = true := by decide
theorem witness_EncodeOfDecode : decode 0x0000FFFFFFFF0003 = .ok (.addrc 4294967295) := by decide
theorem witness_SubtractionInvertsAddition : 0 < 11 ∧ 10 < 11 ∧ fadd 11 1 10 = 0 := by decide
theorem witness_PowersFollowTheRecurrence : 2 ≤ 11 := by decide
theorem witness_InverseIsTheFieldInverse : 0 < 10 ∧ 10 < toy11.P ∧ fmul toy11.P 10 10 = 1 := by decide
theorem witness_PassingPairInverts : 13 * 17 % (toy11.P - 1) = 1 := by decide
theorem witness_StepRunsTheCommandInOpl : (running .permute).busy = true ∧
    decode (running .permute).opl = .ok .permute ∧ executing .permute = true ∧
    (running .permute).inputs = [] := by decide
theorem witness_StepRunsTheCommandInOpl_tick :
    ({ running (.round 1) with inputs := [.tick, .read 4] } : State).busy = true ∧
    decode (running (.round 1)).opl = .ok (.round 1) ∧ executing (.round 1) = true := by decide
theorem witness_NopCompletes : (withInputs [.write cmdAddr (encode .nop)]).busy = false ∧
    (withInputs [.write cmdAddr (encode .nop)]).inputs = .write cmdAddr (encode .nop) :: [] := by decide
theorem witness_ClrstatCompletes :
    ({ erred with inputs := [.write cmdAddr (encode .clrstat)] } : State).busy = false := by decide
theorem witness_NextStepRunsThePlacedCommand : (Instr.round 0).wellFormed = true ∧
    Instr.clrstat.wellFormed = true ∧ executing (.round 0) = true ∧ executing .clrstat = false := by decide
theorem witness_ResetInputAbandonsEverything :
    ({ running .permute with inputs := [.reset] } : State).inputs = .reset :: [] := by decide
theorem witness_EveryStepKeepsInv : (running .permute).Inv ∧ (inside .permute 1 .mdsB [2, 9]).Inv ∧ erred.Inv ∧
    step (running .permute) = .next (nextOr (step (running .permute)) (base [])) :=
  ⟨by decide, by decide, by decide, rfl⟩
theorem witness_LegalStatesNeverStop : (inside (.round 1) 1 .injB [2, 9]).Inv := by decide
theorem witness_ExecutingCommandIsAccepted :
    (withInputs [.write cmdAddr (encode (.addrc 6))]).busy = false ∧
    (withInputs [.write cmdAddr (encode (.addrc 6))]).err = false ∧ executing (.addrc 6) = true ∧
    (Instr.addrc 6).wellFormed = true := by decide
theorem witness_IllegalWordIsReported : (withInputs [.write cmdAddr 0xFF]).busy = false ∧
    (withInputs [.write cmdAddr 0xFF]).err = false ∧ decode 0xFF = .error .reservedOpcode ∧
    (withInputs [.write cmdAddr 0xFF]).inputs = .write cmdAddr 0xFF :: [] := by decide
theorem witness_ErrGatesCommands_command :
    ({ erred with inputs := [.write cmdAddr 5] } : State).busy = false ∧
    ({ erred with inputs := [.write cmdAddr 5] } : State).err = true ∧
    decode 5 = .ok .permute ∧ executing .permute = true := by decide
theorem witness_ErrGatesCommands_illegal :
    ({ erred with inputs := [.write cmdAddr 9] } : State).busy = false ∧
    ({ erred with inputs := [.write cmdAddr 9] } : State).err = true ∧
    decode 9 = .error .reservedOpcode := by decide
theorem witness_BusyDropsEveryWrite :
    ({ running .mdsgen with inputs := [.write 0xFFFFFF 1] } : State).busy = true := by decide
theorem witness_DroppedWriteDoesNotDisturb :
    sequencer (running .mdsgen) = .next (nextOr (sequencer (running .mdsgen)) (base [])) := rfl
theorem witness_ReadsHaveNoSideEffect : (withInputs [.read 0xFFFFFF]).inputs = .read 0xFFFFFF :: [] := by decide
theorem witness_BusyReadsAreFree : (running .permute).busy = true ∧
    (0x0001FF#24).toNat = 0x0001FF ∧ (0x003FFF#24).toNat = 0x003FFF ∧
    63 < (running .permute).inst.rcDepth ∧ 0 < (running .permute).inst.L ∧
    (0x1001F8#24).toNat = 0x100000 + 8 * 63 + 0 := by decide
theorem witness_StoreReadsReturnLimbs : 0 < (base [0, 1]).inst.L ∧ (base [0, 1]).busy = false ∧
    1 < (base [0, 1]).inst.m ∧ 63 < (base [0, 1]).inst.rcDepth := by decide
/-- One reserved address of each kind, at the ends of the gaps. -/
theorem witness_ReservedAddressesAreInert_idle : (base [0, 1]).busy = false ∧
    ∀ a ∈ [0x000009, 0x00000F, 0x000011, 0x000027, 0x000030, 0x0000FF, 0x000101, 0x000110, 0x0001FF, 0x000200,
      0x001FFF, 0x002001, 0x002020, 0x003FFF, 0x004000, 0x0FFFFF, 0x100001, 0x100200, 0x1FFFFF, 0x200000,
      0xFFFFFF], reservedAddress (base [0, 1]).inst a := by decide
theorem witness_ReservedAddressesAreInert_busy : (running .permute).busy = true ∧
    ∀ a ∈ [0x000009, 0x000011, 0x0000FF, 0x000200, 0x001FFF, 0x004000, 0x100001, 0x100200, 0xFFFFFF],
      reservedAddress (running .permute).inst a ∧ ¬ freeWhileBusy a := by decide
theorem witness_ReservedAddressesAreInert_readOnly :
    ∀ a ∈ [0, 1, 2, 4, 5, 6, 0x000010, 0x00001F], readOnlyAddress a := by decide
theorem test_free_and_live_addresses :
    (∀ a ∈ [0x000100, 0x0001FF, 0x002000, 0x003FFF], freeWhileBusy a) ∧
    ∀ a ∈ [3, 7, 8, 0x000020, 0x000028, 0x000108, 0x002018, 0x1001F8],
      ¬ reservedAddress toy11 a ∧ ¬ readOnlyAddress a := by decide
theorem witness_HostWriteStoresXLimb : (base [0, 1]).busy = false ∧ 1 < (base [0, 1]).inst.m ∧
    0 < (base [0, 1]).inst.L := by decide
theorem witness_HostWriteStoresMdsLimb : (base [0, 1]).busy = false ∧ 1 < (base [0, 1]).inst.m ∧
    0 < (base [0, 1]).inst.L := by decide
theorem witness_HostWriteStoresRcLimb : (base [0, 1]).busy = false ∧ 63 < (base [0, 1]).inst.rcDepth ∧
    0 < (base [0, 1]).inst.L := by decide
theorem witness_HostWriteStoresRegisters : (base [0, 1]).busy = false ∧ 0 < (base [0, 1]).inst.L := by decide
theorem witness_SboxRaisesEveryElement : (base [10, 0]).pairOk ∧ (base [10, 0]).xReduced := by decide
theorem witness_MdsmulMultiplies : (base [10, 0]).xReduced ∧ (base [10, 0]).mdsReduced := by decide
theorem witness_AddrcAddsTheChunk : (base [10, 0]).rclen.toNat ≤ (base [10, 0]).inst.rcDepth ∧
    6 + (base [10, 0]).inst.m ≤ (base [10, 0]).rclen.toNat ∧ (base [10, 0]).xReduced ∧
    (base [10, 0]).rcReduced 6 (base [10, 0]).inst.m := by decide
theorem witness_SboxRoundTrip : (base [2, 3]).pairOk ∧ (base [2, 3]).xReduced := by decide
theorem witness_MdsmulIsLinear : (base [8, 7]).xReduced ∧ (base [1, 2]).xReduced ∧ (base [2, 1]).xReduced ∧
    (base [8, 7]).mdsReduced ∧ (base [1, 2]).inst = (base [8, 7]).inst ∧ (base [2, 1]).inst = (base [8, 7]).inst ∧
    (∀ e < 4, (base [1, 2]).mdsSlot e = (base [8, 7]).mdsSlot e ∧
      (base [2, 1]).mdsSlot e = (base [8, 7]).mdsSlot e) ∧
    ∀ j < 2, (base [8, 7]).xVal j = fadd 11 (fmul 11 2 ((base [1, 2]).xVal j)) (fmul 11 3 ((base [2, 1]).xVal j)) := by
  decide
theorem witness_CheckStepsSetThePosition : (running .permute).checked = false ∧
    (running .permute).roundReady 1 ∧ (running .permute).permuteReady := by decide
theorem witness_PhaseStepWorksAndAdvances : (inside (.round 1) 1 .injB [0, 5]).checked = true ∧
    (inside .permute 1 .injB [0, 5]).checked = true ∧
    decide ((inside .permute 1 .injB [0, 5]).round.toNat + 1 = (inside .permute 1 .injB [0, 5]).nrounds.toNat) = true ∧
    decide ((inside .permute 0 .sboxF [0, 1]).round.toNat + 1 = (inside .permute 0 .sboxF [0, 1]).nrounds.toNat) = false := by
  decide
theorem witness_RoundRunsInSevenSteps : (base [0, 1]).inputs = [] ∧ (base [0, 1]).roundReady 1 := by decide
theorem witness_PermuteComputesThePermutation : (base [0, 1]).inputs = [] ∧ (base [0, 1]).permuteReady := by decide
theorem witness_RoundEqualsItsMicroOperations : (base [0, 1]).inputs = [] ∧ (base [0, 1]).roundReady 0 := by decide
theorem witness_PermuteEqualsItsRounds : (base [5, 2]).inputs = [] ∧ (base [5, 2]).permuteReady := by decide
theorem witness_MdsgenWritesTheMatrix :
    (∀ b, 1 ≤ b → b < 2 * (base [0, 1]).inst.m →
      ¬ repeatsOrVanishes (base [0, 1]).inst.P (base [0, 1]).inst.G b) ∧
    (eliminate (base [0, 1]).inst.P (base [0, 1]).inst.G (base [0, 1]).inst.m).2 = none :=
  ⟨fun b low high => (by decide : ∀ b < 4, 1 ≤ b → ¬ repeatsOrVanishes 11 2 b) b high low, by decide⟩
theorem witness_MdsgenSolvesTheVandermondeSystem :
    (∀ b, 1 ≤ b → b < 2 * (State.resetOf toy11Wide 0).inst.m →
      ¬ repeatsOrVanishes (State.resetOf toy11Wide 0).inst.P (State.resetOf toy11Wide 0).inst.G b) ∧
    (eliminate toy11Wide.P toy11Wide.G toy11Wide.m).2 = none :=
  ⟨fun b low high => (by decide : ∀ b < 6, 1 ≤ b → ¬ repeatsOrVanishes 11 2 b) b high low, by decide⟩
theorem witness_DistinctPointsGiveNonzeroPivots :
    ∀ b, 1 ≤ b → b < 2 * toy11Wide.m → ¬ repeatsOrVanishes toy11Wide.P toy11Wide.G b :=
  witness_MdsgenSolvesTheVandermondeSystem.1

/-- `TOY11` with a generator element whose powers repeat (R173). -/
def toyBad : Instance := ⟨⟨11, 2, 10, 64⟩, ⟨toy11.valid.1, by decide, by decide, by decide, by decide,
  by decide, by decide, by decide⟩⟩

theorem witness_MdsgenReportsTheFirstBadPoint :
    2 < 2 * (State.resetOf toyBad 0).inst.m ∧
    repeatsOrVanishes (State.resetOf toyBad 0).inst.P (State.resetOf toyBad 0).inst.G 2 ∧
    ∀ c, 1 ≤ c → c < 2 → ¬ repeatsOrVanishes (State.resetOf toyBad 0).inst.P (State.resetOf toyBad 0).inst.G c :=
  ⟨by decide, by decide, fun c low high =>
    (by decide : ∀ c < 2, 1 ≤ c → ¬ repeatsOrVanishes 11 10 c) c high low⟩
theorem witness_MdsgenIsIndependentOfHistory : (base [0, 1]).inst = (running .permute).inst := rfl
theorem witness_ErrorEntryChangesNothingElse : executing (.round 2) = true ∧
    (running (.round 2)).checked = false ∧ (running (.round 2)).err = false ∧
    (nextOr (exec (.round 2) (running (.round 2))) (base [])).err = true := by decide
/-- The base configuration with a pair that fails the product test and an unreduced element. -/
def badPair : State := { base [11, 12] with alpha := 2 }
theorem witness_AlphaErrorComesBeforeRange : ¬ badPair.pairOk ∧ badPair.checked = false ∧
    badPair.rclen.toNat ≤ badPair.inst.rcDepth ∧
    2 * badPair.inst.m * (1 + 1) ≤ badPair.rclen.toNat ∧ badPair.nrounds.toNat ≠ 0 ∧
    2 * badPair.inst.m * badPair.nrounds.toNat ≤ badPair.inst.rcDepth ∧
    badPair.rclen.toNat = 2 * badPair.inst.m * badPair.nrounds.toNat := by decide

/-- The base configuration with the last matrix entry unreduced. -/
def badEntry : State := { base [3, 4] with mds := slots [9, 3, 5, 11] }
/-- The base configuration with the last constant unreduced. -/
def badConstant : State := { base [3, 4] with rc := slots [1, 2, 3, 4, 5, 6, 7, 11] }
theorem witness_RangeErrorNamesTheLowestSlot_x : 1 < (base [3, 12]).inst.m ∧
    (base [3, 12]).inst.P ≤ (base [3, 12]).xVal 1 ∧ (∀ a < 1, (base [3, 12]).xVal a < (base [3, 12]).inst.P) ∧
    (base [3, 12]).pairOk ∧ (base [3, 12]).checked = false ∧ (base [3, 12]).roundLengthsOk 1 ∧
    (base [3, 12]).permuteLengthsOk ∧ 6 + (base [3, 12]).inst.m ≤ (base [3, 12]).rclen.toNat := by decide
theorem witness_RangeErrorNamesTheLowestSlot_mds : badEntry.xReduced ∧
    3 < badEntry.inst.m * badEntry.inst.m ∧ badEntry.inst.P ≤ badEntry.mdsSlot 3 ∧
    (∀ a < 3, badEntry.mdsSlot a < badEntry.inst.P) ∧ badEntry.pairOk ∧ badEntry.checked = false ∧
    badEntry.roundLengthsOk 1 ∧ badEntry.permuteLengthsOk := by decide
theorem witness_RangeErrorNamesTheLowestSlot_rc : badConstant.xReduced ∧ 1 < badConstant.inst.m ∧
    badConstant.rclen.toNat ≤ badConstant.inst.rcDepth ∧
    6 + badConstant.inst.m ≤ badConstant.rclen.toNat ∧ badConstant.inst.P ≤ badConstant.rcVal (6 + 1) ∧
    ∀ a < 1, badConstant.rcVal (6 + a) < badConstant.inst.P := by decide
theorem witness_RoundsTestEveryConstantFirst_state : badConstant.checked = false ∧ badConstant.pairOk ∧
    badConstant.xReduced ∧ badConstant.mdsReduced ∧ badConstant.rclen.toNat ≤ badConstant.inst.rcDepth := by decide
theorem witness_RoundsTestEveryConstantFirst_round :
    2 * badConstant.inst.m * (1 + 1) ≤ badConstant.rclen.toNat ∧ 2 * 1 * badConstant.inst.m ≤ 7 ∧
    7 < 2 * 1 * badConstant.inst.m + 2 * badConstant.inst.m ∧ badConstant.inst.P ≤ badConstant.rcVal 7 ∧
    ∀ a, 2 * 1 * badConstant.inst.m ≤ a → a < 7 → badConstant.rcVal a < badConstant.inst.P :=
  ⟨by decide, by decide, by decide, by decide, fun a _ high =>
    (by decide : ∀ a < 7, badConstant.rcVal a < badConstant.inst.P) a high⟩
theorem witness_RoundsTestEveryConstantFirst_permute : badConstant.nrounds.toNat ≠ 0 ∧
    2 * badConstant.inst.m * badConstant.nrounds.toNat ≤ badConstant.inst.rcDepth ∧
    badConstant.rclen.toNat = 2 * badConstant.inst.m * badConstant.nrounds.toNat ∧
    7 < badConstant.rclen.toNat ∧ badConstant.inst.P ≤ badConstant.rcVal 7 ∧
    ∀ a < 7, badConstant.rcVal a < badConstant.inst.P := by decide
theorem witness_LengthErrorsComeFirst_nrounds : (base [0, 1]).checked = false ∧
    ({ base [0, 1] with nrounds := 0 } : State).nrounds.toNat = 0 ∧
    ({ base [0, 1] with nrounds := 17 } : State).inst.rcDepth <
      2 * ({ base [0, 1] with nrounds := 17 } : State).inst.m *
        ({ base [0, 1] with nrounds := 17 } : State).nrounds.toNat := by decide
theorem witness_LengthErrorsComeFirst_rclen :
    ({ base [0, 1] with nrounds := 16 } : State).nrounds.toNat ≠ 0 ∧
    2 * ({ base [0, 1] with nrounds := 16 } : State).inst.m *
        ({ base [0, 1] with nrounds := 16 } : State).nrounds.toNat ≤
      ({ base [0, 1] with nrounds := 16 } : State).inst.rcDepth ∧
    ({ base [0, 1] with nrounds := 16 } : State).rclen.toNat ≠
      2 * ({ base [0, 1] with nrounds := 16 } : State).inst.m *
        ({ base [0, 1] with nrounds := 16 } : State).nrounds.toNat ∧
    ({ base [0, 1] with rclen := 65 } : State).inst.rcDepth <
      ({ base [0, 1] with rclen := 65 } : State).rclen.toNat := by decide
theorem witness_LengthErrorsComeFirst_index : (base [0, 1]).rclen.toNat ≤ (base [0, 1]).inst.rcDepth ∧
    (base [0, 1]).rclen.toNat < 2 * (base [0, 1]).inst.m * (2 + 1) ∧
    (base [0, 1]).rclen.toNat < 7 + (base [0, 1]).inst.m := by decide
theorem witness_BusyEndsWithinTheBound : (running .permute).Inv ∧ (running .permute).busy = true ∧
    (running .permute).inputs = [] ∧ decode (running .permute).opl = .ok .permute ∧
    (inside .permute 1 .mdsB [2, 9]).Inv ∧ (inside .permute 1 .mdsB [2, 9]).checked = true := by decide
theorem witness_BusyEndsWithinTheBound_noRounds :
    ({ running .permute with nrounds := 0 } : State).Inv ∧
    ({ running .permute with nrounds := 0 } : State).busy = true ∧
    ({ running .permute with nrounds := 0 } : State).nrounds.toNat = 0 := by decide
theorem witness_ReadsCommuteWithSequencerSteps :
    (inside .permute 0 .injA [3, 7]).Inv ∧ (inside .permute 0 .injA [3, 7]).busy = true := by decide
theorem witness_EstimatorIsMonotone : estimateRounds 11 8 4 128 5 = .ok 8 ∧ estimateRounds 11 8 4 160 5 = .ok 8 := by
  decide
theorem witness_ConstantsAreReducedChunks : 0 < 11 ∧ 1 ≤ 2 ∧
    generateConstants (fun _ t => if t = 0 then 5 else 1) (fun _ _ _ _ => []) 128 11 1 0 1 = .ok [8, 4] ∧
    generateConstants (fun _ t => if t = 0 then 5 else 1) (fun _ _ _ _ => []) 128 11 1 0 2 =
      .ok [8, 4, 4, 4] := by decide
theorem witness_DerivedExponentIsTheInverse : 3 ≤ 11 ∧ Nat.gcd 3 (11 - 1) = 1 ∧ Nat.gcd 5 (11 - 1) ≠ 1 := by decide

/-- A tuple over `TOY11`, and what the host derives from it with the stream of ones. -/
def toyTuple : ParameterSet := ⟨11, 12, 4, 128, 3⟩
theorem witness_DerivedValuesFitOneTuple : 3 ≤ toyTuple.p ∧
    configure (fun _ _ => 1) (fun _ _ _ _ => []) toyTuple = .ok ⟨toyTuple, 7, 8, List.replicate 192 4⟩ := by
  decide +kernel
end Sys2Proof.Tests
end

