-- ==== Sys2Proof/Proofs/Field.lean ====
section
/-! PROOFS. The field operations of spec/00_scope.md R13 to R16 against arithmetic modulo `P`: subtraction
undoes addition, the squaring algorithm computes powers, `finv` inverts by Fermat's little theorem. -/

namespace Sys2Proof.Machine

/-! ### Addition and subtraction (R12, R13) -/

theorem fadd_fsub_cancel {P a b : Nat} (ha : a < P) (hb : b < P) : fadd P (fsub P a b) b = a := by
  have hsum : a + P - b + b = a + P := by omega
  rw [fadd, fsub, Nat.mod_add_mod, hsum, Nat.add_mod_right, Nat.mod_eq_of_lt ha]

theorem fadd_right_cancel {P b c d : Nat} (hc : c < P) (hd : d < P) (h : fadd P c b = fadd P d b) :
    c = d :=
  (Nat.ModEq.add_right_cancel' b h).eq_of_lt_of_lt hc hd

/-- Settles O5: that `fsub` undoes `fadd` gives existence, cancellation of `fadd` gives uniqueness. -/
theorem subtractionInvertsAddition : Obligations.SubtractionInvertsAddition := by
  intro P a b ha hb
  have hlt : fsub P a b < P := fsub_lt (by omega) a b
  have hcancel : fadd P (fsub P a b) b = a := fadd_fsub_cancel ha hb
  exact ⟨rfl, hlt, hcancel, fun d hd hda => fadd_right_cancel hd hlt (hda.trans hcancel.symm)⟩

/-! ### Powers by squaring (R15) -/

/-- One bit of the exponent: `a^e` becomes `a^(2e + bit)`. -/
theorem powBit_pow_mod (P a e : Nat) {bit : Nat} (hbit : bit < 2) :
    powBit P a bit (a ^ e % P) = a ^ (2 * e + bit) % P := by
  have hsquare : fmul P (a ^ e % P) (a ^ e % P) = a ^ (2 * e) % P := by
    rw [fmul, ← Nat.mul_mod, ← pow_add, two_mul]
  rw [powBit, hsquare]
  split
  case isTrue hone => rw [fmul, Nat.mod_mul_mod, ← pow_succ, hone]
  case isFalse hne =>
    have hzero : bit = 0 := by omega
    rw [hzero, Nat.add_zero]

theorem powBits_eq_pow_mod (P a : Nat) {n e : Nat} (he : e < 2 ^ n) : powBits P a n e = a ^ e % P := by
  induction n generalizing e with
  | zero =>
    have hzero : e = 0 := by simpa using he
    rw [powBits, hzero, pow_zero]
  | succ n ih =>
    have hhalf : e / 2 < 2 ^ n := by omega
    rw [powBits, ih hhalf, powBit_pow_mod P a _ (Nat.mod_lt e two_pos), Nat.div_add_mod]

/-- The squaring algorithm computes the power, on every modulus. -/
theorem fpow_eq_pow_mod (P a e : Nat) : fpow P a e = a ^ e % P :=
  powBits_eq_pow_mod P a Nat.lt_log2_self

/-- Settles O6: each part is `fpow_eq_pow_mod` read off at the exponent it names. -/
theorem powersFollowTheRecurrence : Obligations.PowersFollowTheRecurrence := by
  intro P a e hP
  refine ⟨?zero, ?succ, fpow_eq_pow_mod P a e⟩
  case zero => rw [fpow_eq_pow_mod, pow_zero, Nat.mod_eq_of_lt hP]
  case succ => rw [fpow_eq_pow_mod, fpow_eq_pow_mod, fmul, Nat.mod_mul_mod, pow_succ]

/-! ### Inverses (R16) -/

theorem fmul_left_cancel {P a b c : Nat} (hP : P.Prime) (hpos : 0 < a) (ha : a < P) (hb : b < P)
    (hc : c < P) (h : fmul P a b = fmul P a c) : b = c :=
  have hcop : P.Coprime a := Nat.coprime_of_lt_prime hpos.ne' ha hP
  (Nat.ModEq.cancel_left_of_coprime hcop h).eq_of_lt_of_lt hb hc

/-- `a * a^(P-2) = a^(P-1)`, which Fermat's little theorem makes 1. -/
theorem fmul_finv {P a : Nat} (hP : P.Prime) (hpos : 0 < a) (ha : a < P) : fmul P a (finv P a) = 1 := by
  have hexp : P - 2 + 1 = P.totient := by
    have := hP.two_le
    rw [Nat.totient_prime hP]
    omega
  have hfermat : a ^ P.totient % P = 1 % P :=
    Nat.ModEq.pow_totient (Nat.coprime_of_lt_prime hpos.ne' ha hP).symm
  calc fmul P a (finv P a) = a * a ^ (P - 2) % P := by rw [fmul, finv, fpow_eq_pow_mod, Nat.mul_mod_mod]
    _ = a ^ P.totient % P := by rw [← pow_succ', hexp]
    _ = 1 := by rw [hfermat, Nat.mod_eq_of_lt hP.one_lt]

/-- Settles O7: Fermat's little theorem gives the inverse, cancellation of `fmul` its uniqueness. -/
theorem inverseIsTheFieldInverse : Obligations.InverseIsTheFieldInverse := by
  intro I a hpos ha
  have hP : I.P.Prime := inst_prime I
  have hlt : finv I.P a < I.P := fpow_lt hP.pos a _
  have hinv : fmul I.P a (finv I.P a) = 1 := fmul_finv hP hpos ha
  exact ⟨hlt, hinv, fun b hb hab => fmul_left_cancel hP hpos ha hb hlt (hab.trans hinv.symm)⟩

end Sys2Proof.Machine
end

