-- ==== Sys2Proof/Proofs/HostPort.lean ====
section
/-! PROOFS. What a host transaction answers and stores: the address map of spec/20_memory.md R66 to R68, R73
region by region, then the words of spec/10_state.md R27 to R35 through it. -/

namespace Sys2Proof.Machine

open Sys2Proof.Config

/-! ### The address map (R66, R67, R68, R73) -/

theorem hostAddr_toNat {n : Nat} (h : n < 0x200000) : (BitVec.ofNat 24 n).toNat = n := by
  rw [BitVec.toNat_ofNat, Nat.mod_eq_of_lt (by omega)]

theorem locate_of_lt {n : Nat} (I : Instance) (h : n < 0x100) : locate I n = locateRegister I n := by
  have hx : ¬ 0x100 ≤ n := by omega
  have hmds : ¬ 0x2000 ≤ n := by omega
  have hrc : ¬ 0x100000 ≤ n := by omega
  simp [locate, inXRegion, inMdsRegion, inRcRegion, hx, hmds, hrc]

theorem locate_x {off : Nat} (I : Instance) (h : off < 0x100) :
    locate I (0x000100 + off) = regionWord I I.m .x off := by
  have hx : 0x000100 + off < 0x200 := by omega
  simp [locate, inXRegion, xBase, hx]

theorem locate_mds {off : Nat} (I : Instance) (h : off < 0x2000) :
    locate I (0x002000 + off) = regionWord I (I.m * I.m) .mds off := by
  have hx : ¬ 0x002000 + off < 0x200 := by omega
  have hmds : 0x002000 + off < 0x4000 := by omega
  simp [locate, inXRegion, inMdsRegion, mdsBase, hx, hmds]

theorem locate_rc {off : Nat} (I : Instance) (h : off < 0x100000) :
    locate I (0x100000 + off) = regionWord I I.rcDepth .rc off := by
  have hx : ¬ 0x100000 + off < 0x200 := by omega
  have hmds : ¬ 0x100000 + off < 0x4000 := by omega
  have hrc : 0x100000 + off < 0x200000 := by omega
  simp [locate, inXRegion, inMdsRegion, inRcRegion, rcBase, hx, hmds, hrc]

/-- Past the single-word registers, an address below the regions names a word of one of four slots. -/
theorem locateRegister_of_le {n : Nat} (I : Instance) (h : 9 ≤ n) :
    locateRegister I n =
      if 0x10 ≤ n ∧ n < 0x18 then slotWord I .p (n - 0x10)
      else if 0x18 ≤ n ∧ n < 0x20 then slotWord I .g (n - 0x18)
      else if 0x20 ≤ n ∧ n < 0x28 then slotWord I .alpha (n - 0x20)
      else if 0x28 ≤ n ∧ n < 0x30 then slotWord I .alphaInv (n - 0x28)
      else .reserved := by
  unfold locateRegister
  iterate 9 rw [if_neg (by omega)]

theorem locateRegister_p {l : Nat} (I : Instance) (h : l < 8) :
    locateRegister I (0x10 + l) = slotWord I .p l := by
  rw [locateRegister_of_le I (by omega), if_pos (by omega), Nat.add_sub_cancel_left]

theorem locateRegister_g {l : Nat} (I : Instance) (h : l < 8) :
    locateRegister I (0x18 + l) = slotWord I .g l := by
  rw [locateRegister_of_le I (by omega), if_neg (by omega), if_pos (by omega), Nat.add_sub_cancel_left]

theorem locateRegister_alpha {l : Nat} (I : Instance) (h : l < 8) :
    locateRegister I (0x20 + l) = slotWord I .alpha l := by
  rw [locateRegister_of_le I (by omega), if_neg (by omega), if_neg (by omega), if_pos (by omega),
    Nat.add_sub_cancel_left]

theorem locateRegister_alphaInv {l : Nat} (I : Instance) (h : l < 8) :
    locateRegister I (0x28 + l) = slotWord I .alphaInv l := by
  rw [locateRegister_of_le I (by omega), if_neg (by omega), if_neg (by omega), if_neg (by omega),
    if_pos (by omega), Nat.add_sub_cancel_left]

theorem slotWord_of_lt {I : Instance} {l : Nat} (loc : Nat → Loc) (h : l < I.L) :
    slotWord I loc l = loc l := if_pos h

theorem slotWord_of_le {I : Instance} {l : Nat} (loc : Nat → Loc) (h : I.L ≤ l) :
    slotWord I loc l = .reserved := if_neg (by omega)

/-- A limb of an existing slot is no reserved word. -/
theorem regionWord_limb {I : Instance} {slots k l : Nat} (loc : Nat → Loc) (hk : k < slots) (hl : l < I.L) :
    regionWord I slots loc (8 * k + l) = loc (8 * k + l) := by
  have hL := inst_L_le I
  exact if_pos (by omega)

/-! ### Reads (R65, R72) -/

/-- A read whose word R72 does not leave open returns the word at its location. -/
theorem readReturns_of_locate {s : State} {n : Nat} {loc : Loc} (hn : n < 0x200000)
    (hfree : s.readIsFree n = false) (hloc : locate s.inst n = loc) :
    readReturns s (BitVec.ofNat 24 n) (s.locWord loc) := by
  have hword : s.portWord n = s.locWord loc := by
    rw [State.portWord, if_neg (by rw [hfree]; exact Bool.false_ne_true), hloc]
  refine ⟨_, rfl, ?_⟩
  change s.portWord (BitVec.ofNat 24 n).toNat = _
  rw [hostAddr_toNat hn, hword]

theorem readIsFree_of_idle {s : State} (h : s.busy = false) (n : Nat) : s.readIsFree n = false := by
  rw [State.readIsFree, h, Bool.false_and]

theorem readIsFree_of_lt {n : Nat} (s : State) (h : n < 0x100) : s.readIsFree n = false := by
  have hx : ¬ 0x100 ≤ n := by omega
  have hmds : ¬ 0x2000 ≤ n := by omega
  simp [State.readIsFree, inXRegion, inMdsRegion, hx, hmds]

theorem readIsFree_of_ge {n : Nat} (s : State) (h : 0x100000 ≤ n) : s.readIsFree n = false := by
  have hx : ¬ n < 0x200 := by omega
  have hmds : ¬ n < 0x4000 := by omega
  simp [State.readIsFree, inXRegion, inMdsRegion, hx, hmds]

/-- A register may be read at any time. -/
theorem readReturns_register {n : Nat} (s : State) (h : n < 0x100) :
    readReturns s (BitVec.ofNat 24 n) (s.locWord (locateRegister s.inst n)) :=
  readReturns_of_locate (by omega) (readIsFree_of_lt s h) (locate_of_lt s.inst h)

/-! ### Fields of a word (R28, R30) -/

theorem toNat_append_eq_add {v w : Nat} (a : BitVec v) (b : BitVec w) :
    (a ++ b).toNat = a.toNat * 2 ^ w + b.toNat := by
  rw [BitVec.toNat_append, ← Nat.shiftLeft_add_eq_or_of_lt b.isLt, Nat.shiftLeft_eq]

theorem statusWord_toNat (s : State) : s.statusWord.toNat =
    s.busy.toNat + 2 * s.done.toNat + 4 * s.err.toNat + 8 * s.drop.toNat +
      2 ^ 8 * s.phase.code.toNat + 2 ^ 32 * s.round.toNat := by
  simp only [State.statusWord, toNat_append_eq_add, BitVec.toNat_ofBool, BitVec.ofNat_eq_ofNat,
    BitVec.toNat_zero]
  ring

theorem param0Word_toNat (I : Instance) :
    (param0Word I).toNat = I.m + 2 ^ 16 * I.W + 2 ^ 32 * I.L := by
  have hW : I.W ≤ 512 := I.valid.2.2.1
  have hm := inst_m_le I
  have hL := inst_L_le I
  simp only [param0Word, toNat_append_eq_add, BitVec.toNat_ofNat, BitVec.ofNat_eq_ofNat, Nat.zero_mod]
  omega

theorem param1Word_toNat (I : Instance) : (param1Word I).toNat = I.rcDepth := by
  have hdepth := inst_depth_le I
  simp only [param1Word, toNat_append_eq_add, BitVec.toNat_ofNat, BitVec.ofNat_eq_ofNat, Nat.zero_mod]
  omega

theorem errCode_code_toNat (e : ErrCode) : (e.code.setWidth 64).toNat =
    match e with
    | .noError => 0
    | .illcmd => 1
    | .nrounds => 2
    | .rclen => 3
    | .index => 4
    | .alpha => 5
    | .range => 6
    | .gdist => 7
    | .pivot => 8 := by
  cases e <;> rfl

/-- Settles O23: the append of the fields as a sum, read at `STATUS`. -/
theorem statusWordFields : Obligations.StatusWordFields := fun s =>
  ⟨s.statusWord, readReturns_register s (n := 4) (by norm_num), statusWord_toNat s⟩

/-- Settles O24: each address in turn; a word of `P` or `G` is a limb below `L` and reserved from there on. -/
theorem identificationWords : Obligations.IdentificationWords := by
  intro s
  refine ⟨readReturns_register s (n := 0) (by norm_num),
    ⟨_, readReturns_register s (n := 1) (by norm_num), param0Word_toNat s.inst⟩,
    ⟨_, readReturns_register s (n := 2) (by norm_num), param1Word_toNat s.inst⟩,
    readReturns_register s (n := 3) (by norm_num), fun l hl => ?slots⟩
  have hp := readReturns_register s (n := 0x10 + l) (by omega)
  have hg := readReturns_register s (n := 0x18 + l) (by omega)
  rw [locateRegister_p s.inst hl] at hp
  rw [locateRegister_g s.inst hl] at hg
  refine ⟨_, _, hp, hg, fun hlt => ?limb, fun hge => ?reserved⟩
  case limb =>
    rw [slotWord_of_lt .p hlt, slotWord_of_lt .g hlt]
    exact ⟨limb_toNat s.inst.P l, limb_toNat s.inst.G l⟩
  case reserved =>
    rw [slotWord_of_le .p hge, slotWord_of_le .g hge]
    exact ⟨rfl, rfl⟩

/-! ### Reads of the stores (R67, R68, R69, R72) -/

theorem readReturns_rc {s : State} {k l : Nat} (hk : k < s.inst.rcDepth) (hl : l < s.inst.L) :
    readReturns s (BitVec.ofNat 24 (0x100000 + 8 * k + l)) (limb (s.rcVal k) l) := by
  have hdepth := inst_depth_le s.inst
  have hL := inst_L_le s.inst
  rw [State.rcVal, slotValue, limb_limbsValue hl, Nat.add_assoc]
  exact readReturns_of_locate (loc := .rc (8 * k + l)) (by omega) (readIsFree_of_ge s (by omega))
    ((locate_rc s.inst (by omega)).trans (regionWord_limb .rc hk hl))

theorem readReturns_x {s : State} {j l : Nat} (hidle : s.busy = false) (hj : j < s.inst.m)
    (hl : l < s.inst.L) :
    readReturns s (BitVec.ofNat 24 (0x000100 + 8 * j + l)) (limb (s.xVal j) l) := by
  have hm := inst_m_le s.inst
  have hL := inst_L_le s.inst
  rw [State.xVal, slotValue, limb_limbsValue hl, Nat.add_assoc]
  exact readReturns_of_locate (loc := .x (8 * j + l)) (by omega) (readIsFree_of_idle hidle _)
    ((locate_x s.inst (by omega)).trans (regionWord_limb .x hj hl))

/-- The entries of the matrix store, row by row, are its slots below `m * m`, at most 1024 (R68). -/
theorem mdsIndex_lt {I : Instance} {i j : Nat} (hi : i < I.m) (hj : j < I.m) :
    i * I.m + j < I.m * I.m ∧ I.m * I.m ≤ 1024 := by
  have hm := inst_m_le I
  constructor
  · calc i * I.m + j < i * I.m + I.m := by omega
      _ = (i + 1) * I.m := by ring
      _ ≤ I.m * I.m := Nat.mul_le_mul_right _ hi
  · exact Nat.mul_le_mul hm hm

theorem readReturns_mds {s : State} {i j l : Nat} (hidle : s.busy = false) (hi : i < s.inst.m)
    (hj : j < s.inst.m) (hl : l < s.inst.L) :
    readReturns s (BitVec.ofNat 24 (0x002000 + 8 * (i * s.inst.m + j) + l)) (limb (s.mdsVal i j) l) := by
  obtain ⟨hslot, hslots⟩ := mdsIndex_lt hi hj
  have hL := inst_L_le s.inst
  rw [State.mdsVal, State.mdsSlot, slotValue, limb_limbsValue hl, Nat.add_assoc]
  exact readReturns_of_locate (loc := .mds (8 * (i * s.inst.m + j) + l)) (by omega)
    (readIsFree_of_idle hidle _)
    ((locate_mds s.inst (by omega)).trans (regionWord_limb .mds hslot hl))

theorem readReturns_alpha {s : State} {l : Nat} (hl : l < s.inst.L) :
    readReturns s (BitVec.ofNat 24 (0x000020 + l)) (limb s.alpha l) := by
  have hL := inst_L_le s.inst
  have h := readReturns_register s (n := 0x20 + l) (by omega)
  rwa [locateRegister_alpha s.inst (by omega), slotWord_of_lt .alpha hl] at h

theorem readReturns_alphaInv {s : State} {l : Nat} (hl : l < s.inst.L) :
    readReturns s (BitVec.ofNat 24 (0x000028 + l)) (limb s.alphaInv l) := by
  have hL := inst_L_le s.inst
  have h := readReturns_register s (n := 0x28 + l) (by omega)
  rwa [locateRegister_alphaInv s.inst (by omega), slotWord_of_lt .alphaInv hl] at h

/-- Settles O27: the four registers by their addresses, the slots by `readReturns_alpha` to
`readReturns_mds`. -/
theorem storeReadsReturnLimbs : Obligations.StoreReadsReturnLimbs := fun s =>
  ⟨⟨_, readReturns_register s (n := 5) (by norm_num), errCode_code_toNat s.errcode⟩,
    readReturns_register s (n := 6) (by norm_num),
    ⟨_, readReturns_register s (n := 7) (by norm_num), BitVec.toNat_setWidth_of_le (by norm_num)⟩,
    ⟨_, readReturns_register s (n := 8) (by norm_num), BitVec.toNat_setWidth_of_le (by norm_num)⟩,
    fun _ hl => ⟨readReturns_alpha hl, readReturns_alphaInv hl, fun _ hk => readReturns_rc hk hl,
      fun hidle => ⟨fun _ hj => readReturns_x hidle hj hl,
        fun _ hi _ hj => readReturns_mds hidle hi hj hl⟩⟩⟩

/-! ### Writes while idle (R70) -/

/-- A write while idle, to any address but that of `CMD`, is a data write at its location. -/
theorem step_write_idle {s : State} {n : Nat} {loc : Loc} (v : Word) (hidle : s.busy = false)
    (hn : n < 0x200000) (hcmd : n ≠ 3) (hloc : locate s.inst n = loc) :
    step { s with inputs := [.write (BitVec.ofNat 24 n) v] } =
      .next (State.storeLoc { s with inputs := [] } loc v) := by
  have hne : BitVec.ofNat 24 n ≠ cmdAddr := fun h => hcmd (by
    rw [← hostAddr_toNat hn, h]; rfl)
  change hostWrite _ v { s with inputs := [] } = _
  rw [hostWrite, if_neg (by simp [hidle]), if_neg hne, hostAddr_toNat hn, hloc]

/-- Settles O32: the location of each address, and `limb_setLimb` for the exponents. -/
theorem hostWriteStoresRegisters : Obligations.HostWriteStoresRegisters := by
  intro s v hidle
  have hL := inst_L_le s.inst
  refine ⟨⟨v.setWidth 32, BitVec.toNat_setWidth 32 v, ?nrounds, ?rclen⟩, fun l hl =>
    ⟨⟨setLimb s.alpha l v, ?alpha, fun k => limb_setLimb s.alpha l k v⟩,
      ⟨setLimb s.alphaInv l v, ?alphaInv, fun k => limb_setLimb s.alphaInv l k v⟩⟩⟩
  case nrounds => exact step_write_idle v hidle (n := 7) (by norm_num) (by norm_num) rfl
  case rclen => exact step_write_idle v hidle (n := 8) (by norm_num) (by norm_num) rfl
  case alpha =>
    refine step_write_idle v hidle (loc := .alpha l) (by omega) (by omega) ?_
    rw [locate_of_lt s.inst (by omega), locateRegister_alpha s.inst (by omega), slotWord_of_lt .alpha hl]
  case alphaInv =>
    refine step_write_idle v hidle (loc := .alphaInv l) (by omega) (by omega) ?_
    rw [locate_of_lt s.inst (by omega), locateRegister_alphaInv s.inst (by omega),
      slotWord_of_lt .alphaInv hl]

end Sys2Proof.Machine
end

