-- ==== Sys2Proof/Proofs/Sequencer.lean ====
section
/-! PROOFS. A turn of the sequencer (spec/10_state.md R45): which command it performs, and that what only host
transactions touch plays no part in it. -/

namespace Sys2Proof.Machine

/-! ### The command in `OPL` (R45, R46) -/

theorem sequencer_runs_opl {s : State} {i : Instr} (hbusy : s.busy = true) (hopl : decode s.opl = .ok i)
    (hexec : executing i = true) : sequencer s = exec i s := by
  simp only [sequencer, hbusy, hopl, hexec, if_true]

/-- Settles O9: a silent turn and the end of the events both perform the sequencer's turn. -/
theorem stepRunsTheCommandInOpl : Obligations.StepRunsTheCommandInOpl := by
  intro s i hbusy hopl hexec
  refine ⟨fun hsilent => ?silent, fun rest htick => ?tick⟩
  case silent =>
    rw [step, hsilent]
    exact sequencer_runs_opl hbusy hopl hexec
  case tick =>
    rw [step, htick]
    exact sequencer_runs_opl (s := { s with inputs := rest }) hbusy hopl hexec

/-- While busy, the invariant says which command is in `OPL`, and whether it is before its check step or inside
its rounds (R46, R49, R142). -/
theorem sequencerOk_busy_iff {s : State} (hbusy : s.busy = true) :
    s.sequencerOk = true ↔ ∃ i, decode s.opl = .ok i ∧ executing i = true ∧
      ((s.checked = false ∧ s.phase = .sboxF) ∨ (s.checked = true ∧ s.runs i = true)) := by
  rw [State.sequencerOk, if_pos hbusy]
  cases decode s.opl with
  | error r => simp
  | ok i => cases s.checked <;> simp

theorem sequencerOk_idle_iff {s : State} (hidle : s.busy = false) :
    s.sequencerOk = true ↔ s.checked = false ∧ s.phase = .sboxF := by
  simp [State.sequencerOk, hidle]

/-! ### The host's side of the state (R45, R65, R71) -/

/-- The fields that host transactions write and no command reads: the events to come, `DROP`, and the record of
the reads. -/
structure HostSide where
  inputs : List Input
  drop : Bool
  readData : Word
  busyReads : Nat

/-- `s` with another host's side. -/
def State.withHost (s : State) (h : HostSide) : State :=
  { s with inputs := h.inputs, drop := h.drop, readData := h.readData, busyReads := h.busyReads }

theorem checkedStep_withHost (h : HostSide) (s : State) (test : Option ErrRecord) (ok : State) :
    (s.withHost h).checkedStep test (ok.withHost h) = (s.checkedStep test ok).withHost h := by
  cases test with
  | none => rfl
  | some e => rfl

theorem mdsgenMatrix_withHost (h : HostSide) (s : State) (r : Matrix × Option Nat) :
    (s.withHost h).mdsgenMatrix r = (s.mdsgenMatrix r).withHost h := by
  obtain ⟨V, pivot⟩ := r
  cases pivot with
  | none => rfl
  | some k => rfl

@[simp] theorem withHost_inst (h : HostSide) (s : State) : (s.withHost h).inst = s.inst := rfl
@[simp] theorem withHost_checked (h : HostSide) (s : State) : (s.withHost h).checked = s.checked := rfl
@[simp] theorem withHost_phase (h : HostSide) (s : State) : (s.withHost h).phase = s.phase := rfl

theorem phaseWork_withHost (h : HostSide) (s : State) :
    (s.withHost h).phaseWork = s.phaseWork.withHost h := by
  simp only [State.phaseWork, withHost_phase]
  cases s.phase <;> rfl

theorem advance_withHost (h : HostSide) (s : State) (last : Bool) :
    (s.withHost h).advance last = (s.advance last).withHost h := by
  simp only [State.advance, withHost_phase]
  cases s.phase <;> cases last <;> rfl

theorem phaseStep_withHost (h : HostSide) (s : State) (last : Bool) :
    (s.withHost h).phaseStep last = (s.phaseStep last).withHost h := by
  rw [State.phaseStep, phaseWork_withHost, advance_withHost, State.phaseStep]

/-- A command of rounds: a phase step once checked, the check step before. -/
theorem roundsStep_withHost (h : HostSide) (s : State) (last : Bool) (test : Option ErrRecord) (r : BitVec 32) :
    (if (s.withHost h).checked then (s.withHost h).phaseStep last
      else (s.withHost h).checkedStep test ((s.withHost h).startAt r)) =
    (if s.checked then s.phaseStep last else s.checkedStep test (s.startAt r)).withHost h := by
  rw [phaseStep_withHost]
  cases hc : s.checked with
  | true => rw [withHost_checked, hc]; rfl
  | false => rw [withHost_checked, hc]; exact checkedStep_withHost h s test (s.startAt r)

theorem execMdsgen_withHost (h : HostSide) {s t : State} (ht : execMdsgen s = .next t) :
    execMdsgen (s.withHost h) = .next (t.withHost h) := by
  obtain rfl := Host.Outcome.next.inj ht
  rw [execMdsgen, withHost_inst]
  cases checkPoints s.inst.P s.inst.G s.inst.m with
  | some b => rfl
  | none => exact congrArg Host.Outcome.next (mdsgenMatrix_withHost h s _)

theorem exec_next (i : Instr) (s : State) : ∃ t, exec i s = .next t := by
  cases i <;> exact ⟨_, rfl⟩

/-- An executing command neither reads nor writes the host's side. -/
theorem exec_withHost (h : HostSide) {i : Instr} {s t : State} (hexec : executing i = true)
    (ht : exec i s = .next t) : exec i (s.withHost h) = .next (t.withHost h) := by
  cases i with
  | nop => simp [executing] at hexec
  | clrstat => simp [executing] at hexec
  | sboxF =>
    obtain rfl := Host.Outcome.next.inj ht
    exact congrArg Host.Outcome.next (checkedStep_withHost h s s.sboxChecks (s.sboxStep false).complete)
  | sboxI =>
    obtain rfl := Host.Outcome.next.inj ht
    exact congrArg Host.Outcome.next (checkedStep_withHost h s s.sboxChecks (s.sboxStep true).complete)
  | mdsmul =>
    obtain rfl := Host.Outcome.next.inj ht
    exact congrArg Host.Outcome.next (checkedStep_withHost h s s.mdsmulChecks s.mdsStep.complete)
  | addrc k =>
    obtain rfl := Host.Outcome.next.inj ht
    exact congrArg Host.Outcome.next (checkedStep_withHost h s (s.addrcChecks k) (s.injStep k).complete)
  | round i =>
    obtain rfl := Host.Outcome.next.inj ht
    exact congrArg Host.Outcome.next (roundsStep_withHost h s _ _ _)
  | permute =>
    obtain rfl := Host.Outcome.next.inj ht
    exact congrArg Host.Outcome.next (roundsStep_withHost h s _ _ _)
  | mdsgen => exact execMdsgen_withHost h ht

/-! ### Reads between sequencer steps (R45, R282) -/

theorem stepN_succ_of_next {n : Nat} {s t : State} (h : step s = .next t) : stepN (n + 1) s = stepN n t := by
  rw [stepN, h]

/-- Settles O55: the read touches only the host's side, which `exec_withHost` carries past the step. -/
theorem readsCommuteWithSequencerSteps : Obligations.ReadsCommuteWithSequencerSteps := by
  intro s a hinv hbusy
  obtain ⟨_, _, _, _, hseq⟩ := hinv
  obtain ⟨i, hopl, hexec, _⟩ := (sequencerOk_busy_iff hbusy).mp hseq
  obtain ⟨v, hv⟩ := exec_next i s
  have hturn (h : HostSide) : sequencer (s.withHost h) = .next (v.withHost h) :=
    (sequencer_runs_opl (s := s.withHost h) hbusy hopl hexec).trans (exec_withHost h hexec hv)
  have hread : stepN 2 { s with inputs := [.read a, .tick] } =
      stepN 1 (State.hostRead { s with inputs := [.tick] } a) := stepN_succ_of_next rfl
  have htick : stepN 2 { s with inputs := [.tick, .read a] } =
      stepN 1 (v.withHost ⟨[.read a], s.drop, s.readData, s.busyReads⟩) :=
    stepN_succ_of_next (hturn ⟨[.read a], s.drop, s.readData, s.busyReads⟩)
  refine ⟨_, _, hread.trans (stepN_succ_of_next (hturn ⟨[], s.drop, s.portWord a.toNat, _⟩)),
    htick.trans (stepN_succ_of_next rfl), rfl⟩

end Sys2Proof.Machine
end

