-- ==== Sys2Proof/Proofs/Invariant.lean ====
section
/-! PROOFS. The invariant (spec/10_state.md R38, R46, R49; spec/43_round_permute.md R142; spec/60_exceptions.md
R233): it holds after reset, and each operation a step is made of keeps it. -/

namespace Sys2Proof.Machine

open Sys2Proof.Config

/-! ### The parts of the invariant as propositions -/

/-- A matrix of `m` rows of `2m` field elements (R26). -/
def IsScratch (I : Instance) (V : Matrix) : Prop :=
  V.length = I.m ∧ ∀ row ∈ V, row.length = 2 * I.m ∧ ∀ a ∈ row, a < I.P

theorem scratchOk_iff (s : State) : s.scratchOk = true ↔ IsScratch s.inst s.v := by
  simp [State.scratchOk, IsScratch]

/-- The status flags are those of no error or of one error (R38, R49). -/
theorem statusOk_iff (s : State) : s.statusOk = true ↔
    (s.err = false ∧ s.errcode = .noError ∧ s.errinfo = 0 ∧ (s.busy = true → s.done = false)) ∨
      (s.err = true ∧ s.errcode ≠ .noError ∧ s.busy = false ∧ s.done = false) := by
  simp only [State.statusOk]
  cases s.err <;> cases s.busy <;> cases s.done <;> simp

theorem runs_round_iff (s : State) (i : Nat) :
    s.runs (.round i) = true ↔ s.round.toNat = i ∧ s.roundChecks i = none := by
  simp [State.runs]

theorem runs_permute_iff (s : State) :
    s.runs .permute = true ↔ s.round.toNat < s.nrounds.toNat ∧ s.permuteChecks = none := by
  simp [State.runs]

/-- Only a command of rounds is ever past its check step. -/
theorem runs_cases {s : State} {i : Instr} (h : s.runs i = true) : (∃ r, i = .round r) ∨ i = .permute := by
  cases i <;> simp [State.runs] at h ⊢

/-! ### Reset (R48, R49) -/

/-- Settles O13: every named part of the reset state is a constant. -/
theorem resetLeavesTheStatedValues : Obligations.ResetLeavesTheStatedValues := fun _ _ =>
  ⟨BitVec.eq_of_toNat_eq ((statusWord_toNat _).trans rfl), rfl, rfl, rfl, rfl, rfl, rfl, fun _ => ⟨rfl, rfl, rfl⟩⟩

theorem isScratch_zero (I : Instance) :
    IsScratch I (List.replicate I.m (List.replicate (2 * I.m) 0)) := by
  refine ⟨List.length_replicate, fun row hrow => ?_⟩
  obtain rfl := List.eq_of_mem_replicate hrow
  refine ⟨List.length_replicate, fun a ha => ?_⟩
  rw [List.eq_of_mem_replicate ha]
  exact inst_pos I

/-- Settles O15: empty stores, zero exponents, the zero scratch matrix, an idle sequencer. -/
theorem resetSatisfiesInv : Obligations.ResetSatisfiesInv := by
  intro I n
  refine ⟨rfl, ?exponents, (scratchOk_iff _).mpr (isScratch_zero I), rfl, rfl⟩
  case exponents => simp [State.exponentsOk, State.resetOf]

/-! ### Tests: what they answer is an error (R223), and they read no more of `x` than that it is reduced -/

/-- A test that fails, fails with one of the eight errors of R223. -/
def NamesError (test : Option ErrRecord) : Prop := ∀ e, test = some e → e.1 ≠ .noError

theorem NamesError.errIf {cond : Bool} {code : ErrCode} {info : Word} (h : code ≠ .noError) :
    NamesError (errIf cond code info) := by
  intro e he
  cases cond with
  | false => simp [Machine.errIf] at he
  | true =>
    obtain rfl : (code, info) = e := by simpa [Machine.errIf] using he
    exact h

theorem NamesError.checkRange {P region n k : Nat} {f : Nat → Nat} :
    NamesError (checkRange P region f n k) := by
  intro e he
  obtain ⟨bad, _, rfl⟩ := Option.map_eq_some_iff.mp he
  exact nofun

theorem NamesError.nil : NamesError (firstError []) := nofun

theorem NamesError.cons {test : Option ErrRecord} {rest : List (Option ErrRecord)} (h : NamesError test)
    (hrest : NamesError (firstError rest)) : NamesError (firstError (test :: rest)) := by
  cases test with
  | none => exact hrest
  | some e => exact h

theorem namesError_sboxChecks (s : State) : NamesError s.sboxChecks :=
  .cons (.errIf nofun) <| .cons .checkRange .nil

theorem namesError_mdsmulChecks (s : State) : NamesError s.mdsmulChecks :=
  .cons .checkRange <| .cons .checkRange .nil

theorem namesError_addrcChecks (s : State) (k : Nat) : NamesError (s.addrcChecks k) :=
  .cons (.errIf nofun) <| .cons (.errIf nofun) <| .cons .checkRange <| .cons .checkRange .nil

theorem namesError_roundChecks (s : State) (i : Nat) : NamesError (s.roundChecks i) :=
  .cons (.errIf nofun) <| .cons (.errIf nofun) <| .cons (.errIf nofun) <| .cons .checkRange <|
    .cons .checkRange <| .cons .checkRange .nil

theorem namesError_permuteChecks (s : State) : NamesError s.permuteChecks :=
  .cons (.errIf nofun) <| .cons (.errIf nofun) <| .cons (.errIf nofun) <| .cons .checkRange <|
    .cons .checkRange <| .cons .checkRange .nil

theorem checkX_setX {s : State} {f : Nat → Nat} (hf : ∀ j < s.inst.m, f j < s.inst.P) :
    (s.setX f).checkX = none := by
  refine checkRange_eq_none_iff.mpr fun j _ hj => ?_
  rw [State.setX_inst, Nat.zero_add] at hj
  rw [xVal_setX hj (hf j hj)]
  exact hf j hj

/-- A command that has passed its check still passes it after a vector write of field elements (R233). -/
theorem runs_setX {s : State} {i : Instr} {f : Nat → Nat} (h : s.runs i = true)
    (hf : ∀ j < s.inst.m, f j < s.inst.P) : (s.setX f).runs i = true := by
  obtain ⟨r, rfl⟩ | rfl := runs_cases h
  · obtain ⟨hround, hchecks⟩ := (runs_round_iff s r).mp h
    refine (runs_round_iff _ r).mpr ⟨hround, ?_⟩
    simp only [State.roundChecks, firstError_eq_none_iff, List.forall_mem_cons] at hchecks ⊢
    obtain ⟨hfits, hindex, halpha, _, hrest⟩ := hchecks
    exact ⟨hfits, hindex, halpha, checkX_setX hf, hrest⟩
  · obtain ⟨hround, hchecks⟩ := (runs_permute_iff s).mp h
    refine (runs_permute_iff _).mpr ⟨hround, ?_⟩
    simp only [State.permuteChecks, firstError_eq_none_iff, List.forall_mem_cons] at hchecks ⊢
    obtain ⟨hnrounds, hrclen, halpha, _, hrest⟩ := hchecks
    exact ⟨hnrounds, hrclen, halpha, checkX_setX hf, hrest⟩

theorem runs_setPosition (s : State) (i : Instr) (ph : Phase) :
    (s.setPosition s.round ph).runs i = s.runs i := by
  cases i <;> rfl

/-! ### The stores, the exponents and the scratch matrix (R20, R35, R68, R73) -/

theorem storesOk_iff (s : State) : s.storesOk = true ↔
    storeWf s.inst.m s.inst.L s.x = true ∧ storeWf (s.inst.m * s.inst.m) s.inst.L s.mds = true ∧
      storeWf s.inst.rcDepth s.inst.L s.rc = true := by
  simp [State.storesOk, and_assoc]

theorem storesOk_setX {s : State} (f : Nat → Nat) (h : s.storesOk = true) : (s.setX f).storesOk = true := by
  obtain ⟨hx, hmds, hrc⟩ := (storesOk_iff s).mp h
  exact (storesOk_iff _).mpr ⟨storeWf_setX f hx, hmds, hrc⟩

theorem storesOk_setMds {s : State} (f : Nat → Nat) (h : s.storesOk = true) :
    (s.setMds f).storesOk = true := by
  obtain ⟨hx, hmds, hrc⟩ := (storesOk_iff s).mp h
  exact (storesOk_iff _).mpr ⟨hx, storeWf_setMds f hmds, hrc⟩

theorem exponentsOk_iff (s : State) : s.exponentsOk = true ↔
    s.alpha < 2 ^ (64 * s.inst.L) ∧ s.alphaInv < 2 ^ (64 * s.inst.L) := by
  simp [State.exponentsOk]

/-- Replacing a limb of a number keeps it within its limbs (R35). -/
theorem setLimb_lt {v l L : Nat} (w : Word) (hv : v < 2 ^ (64 * L)) (hl : l < L) :
    setLimb v l w < 2 ^ (64 * L) := by
  rw [pow64_split hl] at hv ⊢
  have hlow : v % 2 ^ (64 * l) < 2 ^ (64 * l) := Nat.mod_lt _ (by positivity)
  have hhigh : v / 2 ^ (64 * (l + 1)) < 2 ^ (64 * (L - l - 1)) := by
    rw [← mul_assoc, ← pow_add, show 64 * l + 64 = 64 * (l + 1) by ring] at hv
    exact Nat.div_lt_of_lt_mul hv
  have hmid : w.toNat + 2 ^ 64 * (v / 2 ^ (64 * (l + 1))) < 2 ^ 64 * 2 ^ (64 * (L - l - 1)) := by
    have hw := w.isLt
    omega
  rw [setLimb_eq]
  calc v % 2 ^ (64 * l) + 2 ^ (64 * l) * (w.toNat + 2 ^ 64 * (v / 2 ^ (64 * (l + 1))))
      < 2 ^ (64 * l) * (w.toNat + 2 ^ 64 * (v / 2 ^ (64 * (l + 1))) + 1) :=
        (Nat.add_lt_add_right hlow _).trans_eq (by ring)
    _ ≤ _ := Nat.mul_le_mul_left _ hmid

theorem isScratch_buildMatrix {I : Instance} {f : Nat → Nat → Nat} (hf : ∀ r c, f r c < I.P) :
    IsScratch I (buildMatrix I.m (2 * I.m) f) := by
  simp only [IsScratch, buildMatrix, List.length_map, List.length_range, List.forall_mem_map]
  exact ⟨trivial, fun r _ => ⟨trivial, fun c _ => hf r c⟩⟩

theorem isScratch_eliminateColumn (I : Instance) (k : Nat) (V : Matrix) :
    IsScratch I (eliminateColumn I.P I.m k V) := by
  refine isScratch_buildMatrix fun r c => ?_
  split
  · exact fmul_lt (inst_pos I) _ _
  · exact fsub_lt (inst_pos I) _ _

theorem isScratch_eliminateFrom {I : Instance} {n k : Nat} {V : Matrix} (hV : IsScratch I V) :
    IsScratch I (eliminateFrom I.P I.m n k V).1 := by
  induction n generalizing k V with
  | zero => exact hV
  | succ n ih =>
    obtain ⟨_, heq⟩ | ⟨_, heq⟩ := eliminateFrom_succ I.P I.m n k V
    · rwa [heq]
    · rw [heq]
      exact ih (isScratch_eliminateColumn I k V)

theorem isScratch_eliminate (I : Instance) : IsScratch I (eliminate I.P I.G I.m).1 :=
  isScratch_eliminateFrom (isScratch_buildMatrix fun _ _ => fpow_lt (inst_pos I) _ _)

/-! ### Before the check step (R233): error entry, completion, the start of the rounds -/

/-- A busy engine whose command has not made its check step. -/
structure State.AtCheck (s : State) : Prop where
  inv : s.Inv
  busy : s.busy = true
  unchecked : s.checked = false
  phase : s.phase = .sboxF

theorem status_of_busy {s : State} (h : s.Inv) (hbusy : s.busy = true) :
    s.err = false ∧ s.errcode = .noError ∧ s.errinfo = 0 ∧ s.done = false := by
  obtain ⟨_, _, _, hstatus, _⟩ := h
  obtain ⟨herr, hcode, hinfo, hdone⟩ | ⟨_, _, hidle, _⟩ := (statusOk_iff s).mp hstatus
  · exact ⟨herr, hcode, hinfo, hdone hbusy⟩
  · simp [hbusy] at hidle

/-- Error entry keeps the invariant wherever no phase step has been made. -/
theorem inv_raise {s : State} {e : ErrRecord} (h : s.Inv) (hunchecked : s.checked = false)
    (hphase : s.phase = .sboxF) (he : e.1 ≠ .noError) : (s.raise e).Inv := by
  obtain ⟨hstores, hexps, hscratch, _, _⟩ := h
  exact ⟨hstores, hexps, hscratch, (statusOk_iff _).mpr (.inr ⟨rfl, he, rfl, rfl⟩),
    (sequencerOk_idle_iff rfl).mpr ⟨hunchecked, hphase⟩⟩

/-- Completion keeps the invariant when the position is left at phase 0 (R49, R143). -/
theorem inv_complete_setPosition {s : State} (r : BitVec 32) (h : s.Inv) (hbusy : s.busy = true) :
    (s.setPosition r .sboxF).complete.Inv := by
  obtain ⟨herr, hcode, hinfo, _⟩ := status_of_busy h hbusy
  obtain ⟨hstores, hexps, hscratch, _, _⟩ := h
  exact ⟨hstores, hexps, hscratch, (statusOk_iff _).mpr (.inl ⟨herr, hcode, hinfo, nofun⟩),
    (sequencerOk_idle_iff rfl).mpr ⟨rfl, rfl⟩⟩

namespace State.AtCheck

variable {s : State}

theorem raise (h : s.AtCheck) {e : ErrRecord} (he : e.1 ≠ .noError) : (s.raise e).Inv :=
  inv_raise h.inv h.unchecked h.phase he

theorem complete (h : s.AtCheck) : s.complete.Inv := by
  have heq : s.setPosition s.round .sboxF = s := by rw [← h.phase]; rfl
  have hinv := inv_complete_setPosition s.round h.inv h.busy
  rwa [heq] at hinv

/-- A step that makes all its tests first keeps the invariant if its work does (R232, R233). -/
theorem checkedStep (h : s.AtCheck) {test : Option ErrRecord} {ok : State} (htest : NamesError test)
    (hok : test = none → ok.Inv) : (s.checkedStep test ok).Inv := by
  obtain ⟨e, he, heq⟩ | ⟨hnone, heq⟩ := checkedStep_cases s test ok
  · rw [heq]
    exact h.raise (htest e he)
  · rw [heq]
    exact hok hnone

theorem sequencerOk (h : s.AtCheck) : ∃ i, decode s.opl = .ok i ∧ executing i = true := by
  obtain ⟨_, _, _, _, hseq⟩ := h.inv
  obtain ⟨i, hopl, hexec, _⟩ := (sequencerOk_busy_iff h.busy).mp hseq
  exact ⟨i, hopl, hexec⟩

theorem withStores (h : s.AtCheck) {x mds : Store}
    (hstores : State.storesOk { s with x := x, mds := mds } = true) :
    State.AtCheck { s with x := x, mds := mds } := by
  obtain ⟨i, hopl, hexec⟩ := h.sequencerOk
  obtain ⟨_, hexps, hscratch, hstatus, _⟩ := h.inv
  have hseq : State.sequencerOk { s with x := x, mds := mds } = true :=
    (sequencerOk_busy_iff (s := { s with x := x, mds := mds }) h.busy).mpr
      ⟨i, hopl, hexec, .inl ⟨h.unchecked, h.phase⟩⟩
  exact ⟨⟨hstores, hexps, hscratch, hstatus, hseq⟩, h.busy, h.unchecked, h.phase⟩

theorem setX (h : s.AtCheck) (f : Nat → Nat) : (s.setX f).AtCheck := by
  obtain ⟨hstores, _⟩ := h.inv
  exact h.withStores (storesOk_setX f hstores)

theorem setMds (h : s.AtCheck) (f : Nat → Nat) : (s.setMds f).AtCheck := by
  obtain ⟨hstores, _⟩ := h.inv
  exact h.withStores (storesOk_setMds f hstores)

theorem setScratch (h : s.AtCheck) {V : Matrix} (hV : IsScratch s.inst V) :
    State.AtCheck { s with v := V } := by
  obtain ⟨hstores, hexps, _, hstatus, hseq⟩ := h.inv
  exact ⟨⟨hstores, hexps, (scratchOk_iff _).mpr hV, hstatus, hseq⟩, h.busy, h.unchecked, h.phase⟩

/-- A check step that has passed begins the rounds (R141, R147). -/
theorem startAt (h : s.AtCheck) {i : Instr} {r : BitVec 32} (hopl : decode s.opl = .ok i)
    (hexec : executing i = true) (hruns : (s.startAt r).runs i = true) : (s.startAt r).Inv := by
  obtain ⟨hstores, hexps, hscratch, hstatus, _⟩ := h.inv
  exact ⟨hstores, hexps, hscratch, hstatus,
    (sequencerOk_busy_iff (s := s.startAt r) h.busy).mpr ⟨i, hopl, hexec, .inr ⟨rfl, hruns⟩⟩⟩

end State.AtCheck

/-! ### Inside the rounds (R142, R143) -/

/-- The work of a phase is a vector write of field elements (R142). -/
theorem phaseWork_eq_setX (s : State) : ∃ f, s.phaseWork = s.setX f ∧ ∀ j, f j < s.inst.P := by
  have hP := inst_pos s.inst
  unfold State.phaseWork
  cases s.phase with
  | sboxF => exact ⟨_, rfl, fun _ => fpow_lt hP _ _⟩
  | mdsA => exact ⟨_, rfl, fun _ => Nat.mod_lt _ hP⟩
  | injA => exact ⟨_, rfl, fun _ => fadd_lt hP _ _⟩
  | sboxI => exact ⟨_, rfl, fun _ => fpow_lt hP _ _⟩
  | mdsB => exact ⟨_, rfl, fun _ => Nat.mod_lt _ hP⟩
  | injB => exact ⟨_, rfl, fun _ => fadd_lt hP _ _⟩

/-- All the advance can do: complete the command's last round, go on to the next round, or to the next phase
(R143). -/
theorem advance_cases (s : State) (last : Bool) :
    (s.phase = .injB ∧ last = true ∧ s.advance last = (s.setPosition (s.round + 1) .sboxF).complete) ∨
      (s.phase = .injB ∧ last = false ∧ s.advance last = s.setPosition (s.round + 1) .sboxF) ∨
      (s.phase ≠ .injB ∧ s.advance last = s.setPosition s.round s.phase.next) := by
  unfold State.advance
  cases s.phase <;> cases last <;> simp

/-- A busy engine inside the rounds of command `i`. -/
structure State.InRounds (s : State) (i : Instr) : Prop where
  inv : s.Inv
  busy : s.busy = true
  checked : s.checked = true
  opl : decode s.opl = .ok i
  exec : executing i = true
  runs : s.runs i = true

/-- A busy engine with the invariant is before its command's check step or inside its rounds. -/
theorem atCheck_or_inRounds {s : State} {i : Instr} (h : s.Inv) (hbusy : s.busy = true)
    (hopl : decode s.opl = .ok i) : s.AtCheck ∨ s.InRounds i := by
  obtain ⟨_, _, _, _, hseq⟩ := id h
  obtain ⟨j, hj, hexec, hmode⟩ := (sequencerOk_busy_iff hbusy).mp hseq
  obtain rfl : j = i := Except.ok.inj (hj.symm.trans hopl)
  obtain ⟨hunchecked, hphase⟩ | ⟨hchecked, hruns⟩ := hmode
  · exact .inl ⟨h, hbusy, hunchecked, hphase⟩
  · exact .inr ⟨h, hbusy, hchecked, hj, hexec, hruns⟩

namespace State.InRounds

variable {s : State} {i : Instr}

theorem setX (h : s.InRounds i) {f : Nat → Nat} (hf : ∀ j < s.inst.m, f j < s.inst.P) :
    (s.setX f).InRounds i := by
  obtain ⟨hstores, hexps, hscratch, hstatus, _⟩ := h.inv
  have hruns : (s.setX f).runs i = true := runs_setX h.runs hf
  exact ⟨⟨storesOk_setX f hstores, hexps, hscratch, hstatus,
    (sequencerOk_busy_iff (s := s.setX f) h.busy).mpr ⟨i, h.opl, h.exec, .inr ⟨h.checked, hruns⟩⟩⟩,
    h.busy, h.checked, h.opl, h.exec, hruns⟩

theorem setPosition (h : s.InRounds i) {r : BitVec 32} {ph : Phase}
    (hruns : (s.setPosition r ph).runs i = true) : (s.setPosition r ph).Inv := by
  obtain ⟨hstores, hexps, hscratch, hstatus, _⟩ := h.inv
  exact ⟨hstores, hexps, hscratch, hstatus,
    (sequencerOk_busy_iff (s := s.setPosition r ph) h.busy).mpr ⟨i, h.opl, h.exec, .inr ⟨h.checked, hruns⟩⟩⟩

/-- The advance keeps the invariant if the command still runs at the next round, where it goes on to one. -/
theorem advance (h : s.InRounds i) {last : Bool}
    (hnext : last = false → (s.setPosition (s.round + 1) .sboxF).runs i = true) : (s.advance last).Inv := by
  obtain ⟨_, _, heq⟩ | ⟨_, hlast, heq⟩ | ⟨_, heq⟩ := advance_cases s last
  · rw [heq]
    exact inv_complete_setPosition _ h.inv h.busy
  · rw [heq]
    exact h.setPosition (hnext hlast)
  · rw [heq]
    exact h.setPosition ((runs_setPosition s i _).trans h.runs)

theorem phaseStep (h : s.InRounds i) {last : Bool}
    (hnext : last = false → (s.setPosition (s.round + 1) .sboxF).runs i = true) : (s.phaseStep last).Inv := by
  obtain ⟨f, heq, hf⟩ := phaseWork_eq_setX s
  rw [State.phaseStep, heq]
  exact (h.setX fun j _ => hf j).advance fun hlast =>
    runs_setX (s := s.setPosition (s.round + 1) .sboxF) (hnext hlast) fun j _ => hf j

end State.InRounds

/-- Before the last round there is a next one, and `PERMUTE` still runs there. -/
theorem runs_permute_next {s : State} (h : s.runs .permute = true) (hlast : s.atLastRound = false) :
    (s.setPosition (s.round + 1) .sboxF).runs .permute = true := by
  obtain ⟨hround, hchecks⟩ := (runs_permute_iff s).mp h
  have hne : s.round.toNat + 1 ≠ s.nrounds.toNat := by simpa [State.atLastRound] using hlast
  have hsucc : (s.round + 1).toNat = s.round.toNat + 1 := by bv_omega
  refine (runs_permute_iff _).mpr ⟨?_, hchecks⟩
  rw [State.setPosition_round, State.setPosition_nrounds, hsucc]
  omega

/-! ### Every command (R45) -/

theorem decodePlain_ok {i j : Instr} {w : Word} (h : decodePlain i w = .ok j) : j = i := by
  unfold decodePlain at h
  split_ifs at h
  exact (Except.ok.inj h).symm

theorem decodeImm_ok {mk : Nat → Instr} {w : Word} {j : Instr} (h : decodeImm mk w = .ok j) :
    j = mk (immField w).toNat := by
  unfold decodeImm at h
  split_ifs at h
  exact (Except.ok.inj h).symm

/-- The round index of a decoded word is a 32-bit immediate (R92). -/
theorem decode_round_lt {w : Word} {i : Nat} (h : decode w = .ok (.round i)) : i < 2 ^ 32 := by
  unfold decode at h
  split_ifs at h
  -- the arms of the opcode map in its order (R93): `SBOX` is the second, `ADDRC` and `ROUND` follow `MDSMUL`
  split at h
  case h_2 =>
    unfold decodeSbox at h
    split_ifs at h <;> simp at h
  case h_4 => exact absurd (decodeImm_ok h) nofun
  case h_5 =>
    obtain rfl := Instr.round.inj (decodeImm_ok h)
    exact (immField w).isLt
  case h_9 => simp at h
  all_goals exact absurd (decodePlain_ok h) nofun

theorem startAt_runs_round {s : State} {i : Nat} (hi : i < 2 ^ 32) (h : s.roundChecks i = none) :
    (s.startAt (BitVec.ofNat 32 i)).runs (.round i) = true := by
  refine (runs_round_iff _ i).mpr ⟨?_, h⟩
  rw [State.startAt_round, BitVec.toNat_ofNat, Nat.mod_eq_of_lt hi]

/-- A permutation whose check passes has a round 0 (R225). -/
theorem startAt_runs_permute {s : State} (h : s.permuteChecks = none) :
    (s.startAt 0).runs .permute = true := by
  refine (runs_permute_iff _).mpr ⟨?_, h⟩
  simp only [State.permuteChecks, firstError_eq_none_iff, List.forall_mem_cons] at h
  obtain ⟨hnrounds, _⟩ := h
  simp only [State.checkNrounds, errIf_eq_none_iff, Bool.or_eq_false_iff, beq_eq_false_iff_ne] at hnrounds
  obtain ⟨hne, _⟩ := hnrounds
  have hpos : s.nrounds.toNat ≠ 0 := fun h0 => hne (BitVec.eq_of_toNat_eq h0)
  exact Nat.pos_of_ne_zero hpos

theorem inv_mdsgenMatrix {s : State} (h : s.AtCheck) {r : Matrix × Option Nat} (hV : IsScratch s.inst r.1) :
    (s.mdsgenMatrix r).Inv := by
  obtain ⟨V, pivot⟩ := r
  cases pivot with
  | none => exact ((h.setScratch hV).setMds _).complete
  | some k => exact (h.setScratch hV).raise nofun

theorem inv_execMdsgen {s t : State} (h : s.AtCheck) (ht : execMdsgen s = .next t) : t.Inv := by
  obtain rfl := Host.Outcome.next.inj ht
  cases checkPoints s.inst.P s.inst.G s.inst.m with
  | some b => exact h.raise nofun
  | none => exact inv_mdsgenMatrix h (isScratch_eliminate s.inst)

/-- The first step of every executing command keeps the invariant. -/
theorem inv_exec_atCheck {s t : State} {i : Instr} (h : s.AtCheck) (hopl : decode s.opl = .ok i)
    (hexec : executing i = true) (ht : exec i s = .next t) : t.Inv := by
  cases i with
  | nop => simp [executing] at hexec
  | clrstat => simp [executing] at hexec
  | sboxF =>
    obtain rfl := Host.Outcome.next.inj ht
    exact h.checkedStep (namesError_sboxChecks s) fun _ => (h.setX _).complete
  | sboxI =>
    obtain rfl := Host.Outcome.next.inj ht
    exact h.checkedStep (namesError_sboxChecks s) fun _ => (h.setX _).complete
  | mdsmul =>
    obtain rfl := Host.Outcome.next.inj ht
    exact h.checkedStep (namesError_mdsmulChecks s) fun _ => (h.setX _).complete
  | addrc k =>
    obtain rfl := Host.Outcome.next.inj ht
    exact h.checkedStep (namesError_addrcChecks s k) fun _ => (h.setX _).complete
  | round r =>
    obtain rfl := Host.Outcome.next.inj ht
    rw [h.unchecked]
    exact h.checkedStep (namesError_roundChecks s r) fun hnone =>
      h.startAt hopl hexec (startAt_runs_round (decode_round_lt hopl) hnone)
  | permute =>
    obtain rfl := Host.Outcome.next.inj ht
    rw [h.unchecked]
    exact h.checkedStep (namesError_permuteChecks s) fun hnone =>
      h.startAt hopl hexec (startAt_runs_permute hnone)
  | mdsgen => exact inv_execMdsgen h ht

/-- A phase step keeps the invariant: `ROUND` ends at its one round, `PERMUTE` goes on while there is a next. -/
theorem inv_exec_inRounds {s t : State} {i : Instr} (h : s.InRounds i) (ht : exec i s = .next t) : t.Inv := by
  obtain ⟨r, rfl⟩ | rfl := runs_cases h.runs
  · obtain rfl := Host.Outcome.next.inj ht
    rw [h.checked]
    exact h.phaseStep nofun
  · obtain rfl := Host.Outcome.next.inj ht
    rw [h.checked]
    exact h.phaseStep (runs_permute_next h.runs)

/-! ### Every event (R45, R76) -/

/-- The invariant says nothing of the host's side. -/
theorem inv_withHost (s : State) (h : HostSide) : (s.withHost h).Inv ↔ s.Inv := Iff.rfl

theorem inv_dropWrite {s : State} (h : s.Inv) : s.dropWrite.Inv :=
  (inv_withHost s ⟨s.inputs, true, s.readData, s.busyReads⟩).mpr h

theorem inv_hostRead {s : State} (a : HostAddr) (h : s.Inv) : (s.hostRead a).Inv :=
  (inv_withHost s ⟨s.inputs, s.drop, _, _⟩).mpr h

theorem inv_hostReset (s : State) : s.hostReset.Inv :=
  (inv_withHost (.resetOf s.inst (s.resets + 1)) ⟨s.inputs, false, s.readData, s.busyReads⟩).mpr
    (resetSatisfiesInv s.inst (s.resets + 1))

theorem inv_sequencer {s t : State} (h : s.Inv) (ht : sequencer s = .next t) : t.Inv := by
  obtain ⟨_, heq⟩ | ⟨hbusy, i, hopl, hexec, heq⟩ | ⟨_, heq⟩ := sequencer_cases s
  · obtain rfl := Host.Outcome.next.inj (heq.symm.trans ht)
    exact h
  · rw [heq] at ht
    obtain hcheck | hrounds := atCheck_or_inRounds h hbusy hopl
    · exact inv_exec_atCheck hcheck hopl hexec ht
    · exact inv_exec_inRounds hrounds ht
  · exact absurd (heq.symm.trans ht) nofun

/-- `NOP` and `CLRSTAT` keep the invariant of an idle engine (R99). -/
theorem inv_exec_immediate {s t : State} {i : Instr} (h : s.Inv)
    (hi : executing i = false) (ht : exec i s = .next t) : t.Inv := by
  cases i with
  | nop =>
    obtain rfl := Host.Outcome.next.inj ht
    exact h
  | clrstat =>
    obtain rfl := Host.Outcome.next.inj ht
    obtain ⟨hstores, hexps, hscratch, _, hseq⟩ := h
    exact ⟨hstores, hexps, hscratch, (statusOk_iff _).mpr (.inl ⟨rfl, rfl, rfl, fun _ => rfl⟩), hseq⟩
  | sboxF | sboxI | mdsmul | addrc _ | round _ | permute | mdsgen => simp [executing] at hi

theorem inv_accept {s : State} {w : Word} {i : Instr} (h : s.Inv) (hidle : s.busy = false)
    (herr : s.err = false) (hw : decode w = .ok i) (hexec : executing i = true) : (s.accept w).Inv := by
  obtain ⟨hstores, hexps, hscratch, hstatus, hseq⟩ := h
  obtain ⟨_, hphase⟩ := (sequencerOk_idle_iff hidle).mp hseq
  refine ⟨hstores, hexps, hscratch, (statusOk_iff _).mpr ?status,
    (sequencerOk_busy_iff rfl).mpr ⟨i, hw, hexec, .inl ⟨rfl, hphase⟩⟩⟩
  case status =>
    obtain ⟨_, hcode, hinfo, _⟩ | ⟨herr', _⟩ := (statusOk_iff s).mp hstatus
    · exact .inl ⟨herr, hcode, hinfo, fun _ => rfl⟩
    · simp [herr] at herr'

theorem inv_issue {s t : State} {w : Word} (h : s.Inv) (hidle : s.busy = false)
    (ht : issue w s = .next t) : t.Inv := by
  obtain ⟨i, hw, hexec, heq⟩ | ⟨i, _, hexec, heq⟩ | ⟨r, _, heq⟩ := issue_cases w s
  · obtain rfl := Host.Outcome.next.inj (heq.symm.trans ht)
    cases herr : s.err with
    | true => exact inv_dropWrite h
    | false => exact inv_accept h hidle herr hw hexec
  · exact inv_exec_immediate h hexec (heq.symm.trans ht)
  · obtain rfl := Host.Outcome.next.inj (heq.symm.trans ht)
    cases herr : s.err with
    | true => exact inv_dropWrite h
    | false =>
      obtain ⟨_, _, _, _, hseq⟩ := id h
      obtain ⟨hunchecked, hphase⟩ := (sequencerOk_idle_iff hidle).mp hseq
      exact inv_raise h hunchecked hphase nofun

/-- A location whose slot and limb the engine has (R73). -/
def Loc.OnInstance (I : Instance) : Loc → Prop
  | .alpha l | .alphaInv l => l < I.L
  | .x off => off / 8 < I.m ∧ off % 8 < I.L
  | .mds off => off / 8 < I.m * I.m ∧ off % 8 < I.L
  | .rc off => off / 8 < I.rcDepth ∧ off % 8 < I.L
  | .id | .param0 | .param1 | .cmd | .status | .errcode | .errinfo | .nrounds | .rclen | .p _ | .g _
  | .reserved => True

theorem slotWord_onInstance {I : Instance} (loc : Nat → Loc) (hloc : ∀ l < I.L, (loc l).OnInstance I)
    (l : Nat) : (slotWord I loc l).OnInstance I := by
  unfold slotWord
  split
  · next hl => exact hloc l hl
  · trivial

theorem regionWord_onInstance {I : Instance} {slots : Nat} (loc : Nat → Loc)
    (hloc : ∀ off, off / 8 < slots ∧ off % 8 < I.L → (loc off).OnInstance I) (off : Nat) :
    (regionWord I slots loc off).OnInstance I := by
  unfold regionWord
  split
  · next hoff => exact hloc off hoff
  · trivial

theorem locateRegister_onInstance (I : Instance) (n : Nat) : (locateRegister I n).OnInstance I := by
  rcases Nat.lt_or_ge n 9 with hn | hn
  · interval_cases n <;> trivial
  · rw [locateRegister_of_le I hn]
    split_ifs
    · exact slotWord_onInstance .p (fun _ _ => trivial) _
    · exact slotWord_onInstance .g (fun _ _ => trivial) _
    · exact slotWord_onInstance .alpha (fun _ hl => hl) _
    · exact slotWord_onInstance .alphaInv (fun _ hl => hl) _
    · trivial

theorem locate_onInstance (I : Instance) (n : Nat) : (locate I n).OnInstance I := by
  unfold locate
  split_ifs
  · exact regionWord_onInstance .x (fun _ hoff => hoff) _
  · exact regionWord_onInstance .mds (fun _ hoff => hoff) _
  · exact regionWord_onInstance .rc (fun _ hoff => hoff) _
  · exact locateRegister_onInstance I n

/-- While idle only three fields matter to the sequencer's part of the invariant. -/
theorem sequencerOk_of_idle {s t : State} (h : s.sequencerOk = true) (hidle : s.busy = false)
    (hbusy : t.busy = s.busy) (hchecked : t.checked = s.checked) (hphase : t.phase = s.phase) :
    t.sequencerOk = true := by
  rw [sequencerOk_idle_iff (hbusy.trans hidle), hchecked, hphase]
  exact (sequencerOk_idle_iff hidle).mp h

theorem inv_withExponents {s : State} {e d : Nat} (h : s.Inv) (hidle : s.busy = false)
    (he : e < 2 ^ (64 * s.inst.L)) (hd : d < 2 ^ (64 * s.inst.L)) :
    State.Inv { s with alpha := e, alphaInv := d } := by
  obtain ⟨hstores, _, hscratch, hstatus, hseq⟩ := h
  exact ⟨hstores, (exponentsOk_iff _).mpr ⟨he, hd⟩, hscratch, hstatus,
    sequencerOk_of_idle hseq hidle rfl rfl rfl⟩

theorem inv_withStores {s : State} {x mds rc : Store} (h : s.Inv) (hidle : s.busy = false)
    (hx : storeWf s.inst.m s.inst.L x = true) (hmds : storeWf (s.inst.m * s.inst.m) s.inst.L mds = true)
    (hrc : storeWf s.inst.rcDepth s.inst.L rc = true) :
    State.Inv { s with x := x, mds := mds, rc := rc } := by
  obtain ⟨_, hexps, hscratch, hstatus, hseq⟩ := h
  exact ⟨(storesOk_iff _).mpr ⟨hx, hmds, hrc⟩, hexps, hscratch, hstatus,
    sequencerOk_of_idle hseq hidle rfl rfl rfl⟩

/-- A data write while idle keeps the invariant: it stores only words that exist (R70, R73). -/
theorem inv_storeLoc {s : State} {loc : Loc} (v : Word) (h : s.Inv) (hidle : s.busy = false)
    (hloc : loc.OnInstance s.inst) : (s.storeLoc loc v).Inv := by
  obtain ⟨hstores, hexps, hscratch, hstatus, hseq⟩ := id h
  obtain ⟨hx, hmds, hrc⟩ := (storesOk_iff s).mp hstores
  obtain ⟨halpha, halphaInv⟩ := (exponentsOk_iff s).mp hexps
  cases loc with
  | nrounds => exact ⟨hstores, hexps, hscratch, hstatus, sequencerOk_of_idle hseq hidle rfl rfl rfl⟩
  | rclen => exact ⟨hstores, hexps, hscratch, hstatus, sequencerOk_of_idle hseq hidle rfl rfl rfl⟩
  | alpha l => exact inv_withExponents h hidle (setLimb_lt v halpha hloc) halphaInv
  | alphaInv l => exact inv_withExponents h hidle halpha (setLimb_lt v halphaInv hloc)
  | x off =>
    obtain ⟨hslot, hlimb⟩ := hloc
    exact inv_withStores h hidle (storeWf_writeCell v hx hslot hlimb) hmds hrc
  | mds off =>
    obtain ⟨hslot, hlimb⟩ := hloc
    exact inv_withStores h hidle hx (storeWf_writeCell v hmds hslot hlimb) hrc
  | rc off =>
    obtain ⟨hslot, hlimb⟩ := hloc
    exact inv_withStores h hidle hx hmds (storeWf_writeCell v hrc hslot hlimb)
  | id | param0 | param1 | cmd | status | errcode | errinfo | p _ | g _ | reserved => exact h

theorem inv_hostWrite {s t : State} {a : HostAddr} {v : Word} (h : s.Inv)
    (ht : hostWrite a v s = .next t) : t.Inv := by
  obtain ⟨_, heq⟩ | ⟨hidle, _, heq⟩ | ⟨hidle, _, heq⟩ := hostWrite_cases a v s
  · obtain rfl := Host.Outcome.next.inj (heq.symm.trans ht)
    exact inv_dropWrite h
  · exact inv_issue h hidle (heq.symm.trans ht)
  · obtain rfl := Host.Outcome.next.inj (heq.symm.trans ht)
    exact inv_storeLoc v h hidle (locate_onInstance s.inst a.toNat)

theorem inv_perform {s t : State} {e : Input} (h : s.Inv) (ht : perform e s = .next t) : t.Inv := by
  cases e with
  | tick => exact inv_sequencer h ht
  | read a =>
    obtain rfl := Host.Outcome.next.inj ht
    exact inv_hostRead a h
  | write a v => exact inv_hostWrite h ht
  | reset =>
    obtain rfl := Host.Outcome.next.inj ht
    exact inv_hostReset s

/-- Settles O16: every event keeps the invariant, and taking it off the list touches the host's side alone. -/
theorem everyStepKeepsInv : Obligations.EveryStepKeepsInv := by
  intro s t h ht
  unfold step at ht
  split at ht
  · exact inv_perform h ht
  · next e rest _ => exact inv_perform ((inv_withHost s ⟨rest, s.drop, s.readData, s.busyReads⟩).mpr h) ht

end Sys2Proof.Machine
end

