-- ==== Sys2Proof/Proofs/Memory.lean ====
section
/-! PROOFS. Transactions over the memory map (spec/20_memory.md R65 to R73): dropped writes, reads, the
reserved and read-only addresses, and the one limb that a data write stores. -/

namespace Sys2Proof.Machine

open Sys2Proof.Config

/-! ### Dropped writes (R71) -/

/-- Settles O21: the busy branch of a write comes before its address is looked at. -/
theorem busyDropsEveryWrite : Obligations.BusyDropsEveryWrite := by
  intro s a v rest hbusy hin
  rw [step, hin]
  exact if_pos hbusy

/-- The host's side of a state. -/
def State.host (s : State) : HostSide := ⟨s.inputs, s.drop, s.readData, s.busyReads⟩

theorem sequencer_withHost (h : HostSide) {s t : State} (ht : sequencer s = .next t) :
    sequencer (s.withHost h) = .next (t.withHost h) := by
  obtain ⟨hidle, heq⟩ | ⟨hbusy, i, hopl, hexec, heq⟩ | ⟨_, heq⟩ := sequencer_cases s
  · obtain rfl := Host.Outcome.next.inj (heq.symm.trans ht)
    exact if_neg (Bool.eq_false_iff.mp hidle)
  · have hrun : sequencer (s.withHost h) = exec i (s.withHost h) := sequencer_runs_opl hbusy hopl hexec
    exact hrun.trans (exec_withHost h hexec (heq.symm.trans ht))
  · exact absurd (heq.symm.trans ht) nofun

/-- A turn of the sequencer leaves the host's side as it was: replacing that side by itself gives the same turn. -/
theorem host_of_sequencer {s t : State} (ht : sequencer s = .next t) : t.host = s.host := by
  have hself : sequencer s = .next (t.withHost s.host) := sequencer_withHost s.host ht
  have heq : t = t.withHost s.host := Host.Outcome.next.inj (ht.symm.trans hself)
  calc t.host = (t.withHost s.host).host := congrArg State.host heq
    _ = s.host := rfl

/-- Settles O22: `DROP` is on the host's side, which the turn does not read (`sequencer_withHost`) and leaves
as it was (`host_of_sequencer`). -/
theorem droppedWriteDoesNotDisturb : Obligations.DroppedWriteDoesNotDisturb := by
  intro s t ht
  change sequencer (s.withHost { s.host with drop := true }) =
    .next (t.withHost { t.host with drop := true })
  rw [host_of_sequencer ht]
  exact sequencer_withHost _ ht

/-! ### Reads (R65, R72) -/

/-- Settles O25: `hostRead` writes the word returned and the counter of free words. -/
theorem readsHaveNoSideEffect : Obligations.ReadsHaveNoSideEffect := by
  intro s a rest hin
  rw [step, hin]
  exact ⟨_, _, rfl⟩

theorem readIsFree_iff (s : State) (n : Nat) :
    s.readIsFree n = true ↔ s.busy = true ∧ freeWhileBusy n := by
  simp [State.readIsFree, inXRegion, inMdsRegion]

theorem hostRead_of_free {s : State} {a : HostAddr} (h : s.readIsFree a.toNat = true) :
    s.hostRead a = { s with readData := busyReadWord s.busyReads, busyReads := s.busyReads + 1 } := by
  rw [State.hostRead, State.portWord, if_pos h, if_pos h]

/-- Settles O26: the first part by the free branch of a read, the second as at any time. -/
theorem busyReadsAreFree : Obligations.BusyReadsAreFree := by
  intro s a hbusy
  refine ⟨fun hregion => ?free, fun k l hk hl ha => ?constant⟩
  case free =>
    exact congrArg Host.Outcome.next
      (hostRead_of_free (s := { s with inputs := [] }) ((readIsFree_iff _ _).mpr ⟨hbusy, hregion⟩))
  case constant =>
    have hread := readReturns_rc hk hl
    rwa [← ha, BitVec.ofNat_toNat, BitVec.setWidth_eq] at hread

/-! ### Reserved and read-only addresses (R70, R73) -/

theorem regionWord_reserved {I : Instance} {slots off : Nat} (loc : Nat → Loc)
    (h : slots ≤ off / 8 ∨ I.L ≤ off % 8) : regionWord I slots loc off = .reserved :=
  if_neg (by omega)

/-- Outside the three regions of the stores an address is that of a register or in a gap (R66). -/
theorem locate_outside_regions {n : Nat} (I : Instance) (hx : n < 0x100 ∨ 0x200 ≤ n)
    (hmds : n < 0x2000 ∨ 0x4000 ≤ n) (hrc : n < 0x100000 ∨ 0x200000 ≤ n) :
    locate I n = locateRegister I n := by
  have hx' : inXRegion n = false := by
    simp only [inXRegion, Bool.and_eq_false_iff, decide_eq_false_iff_not]
    omega
  have hmds' : inMdsRegion n = false := by
    simp only [inMdsRegion, Bool.and_eq_false_iff, decide_eq_false_iff_not]
    omega
  have hrc' : inRcRegion n = false := by
    simp only [inRcRegion, Bool.and_eq_false_iff, decide_eq_false_iff_not]
    omega
  simp [locate, hx', hmds', hrc']

theorem locateRegister_reserved {I : Instance} {n : Nat} (hn : 9 ≤ n)
    (h : n < 0x10 ∨ 0x30 ≤ n ∨ I.L ≤ n % 8) : locateRegister I n = .reserved := by
  rw [locateRegister_of_le I hn]
  split_ifs
  · exact slotWord_of_le .p (by omega)
  · exact slotWord_of_le .g (by omega)
  · exact slotWord_of_le .alpha (by omega)
  · exact slotWord_of_le .alphaInv (by omega)
  · rfl

/-- Every reserved address of R73 is reserved in the map, region by region. -/
theorem locate_reserved {I : Instance} {n : Nat} (h : reservedAddress I n) : locate I n = .reserved := by
  by_cases hx : 0x100 ≤ n ∧ n < 0x200
  · obtain ⟨hle, _⟩ := hx
    obtain ⟨off, rfl⟩ := Nat.exists_eq_add_of_le hle
    rw [locate_x I (by omega)]
    exact regionWord_reserved .x (by omega)
  by_cases hmds : 0x2000 ≤ n ∧ n < 0x4000
  · obtain ⟨hle, _⟩ := hmds
    obtain ⟨off, rfl⟩ := Nat.exists_eq_add_of_le hle
    rw [locate_mds I (by omega)]
    exact regionWord_reserved .mds (by omega)
  by_cases hrc : 0x100000 ≤ n ∧ n < 0x200000
  · obtain ⟨hle, _⟩ := hrc
    obtain ⟨off, rfl⟩ := Nat.exists_eq_add_of_le hle
    rw [locate_rc I (by omega)]
    exact regionWord_reserved .rc (by omega)
  · rw [locate_outside_regions I (by omega) (by omega) (by omega)]
    exact locateRegister_reserved (by omega) (by omega)

theorem storeLoc_slotWord {s : State} {loc : Nat → Loc} (v : Word) (l : Nat)
    (h : ∀ k, s.storeLoc (loc k) v = s) : s.storeLoc (slotWord s.inst loc l) v = s := by
  unfold slotWord
  split
  · exact h l
  · rfl

theorem storeLoc_readOnly {s : State} {n : Nat} (v : Word) (h : readOnlyAddress n) :
    s.storeLoc (locate s.inst n) v = s := by
  obtain rfl | rfl | rfl | rfl | rfl | rfl | ⟨hlow, hhigh⟩ := h
  iterate 6 rfl
  rw [locate_of_lt s.inst (by omega), locateRegister_of_le s.inst (by omega)]
  split_ifs
  · exact storeLoc_slotWord v _ fun _ => rfl
  · exact storeLoc_slotWord v _ fun _ => rfl
  all_goals omega

/-- A write while idle changes nothing if its data write stores nothing (R70, R73). -/
theorem step_write_inert {s : State} {a : HostAddr} {v : Word} (hidle : s.busy = false)
    (hcmd : a.toNat ≠ 3)
    (hinert : State.storeLoc { s with inputs := [] } (locate s.inst a.toNat) v = { s with inputs := [] }) :
    step { s with inputs := [.write a v] } = .next { s with inputs := [] } := by
  have hne : a ≠ cmdAddr := fun h => hcmd (by rw [h]; rfl)
  obtain ⟨hbusy, _⟩ | ⟨_, ha, _⟩ | ⟨_, _, heq⟩ := hostWrite_cases a v { s with inputs := [] }
  · simp [hidle] at hbusy
  · exact absurd ha hne
  · exact heq.trans (congrArg Host.Outcome.next hinert)

/-- Settles O28: reads by the map (`locate_reserved`), writes by what the location stores. -/
theorem reservedAddressesAreInert : Obligations.ReservedAddressesAreInert := by
  intro s a
  refine ⟨fun hreserved hopen => ?read, fun hidle haddr v => ?write⟩
  case read =>
    have hfree : s.readIsFree a.toNat = false := by
      rw [Bool.eq_false_iff, ne_eq, readIsFree_iff]
      rintro ⟨hbusy, hregion⟩
      exact hopen.elim (fun hidle => by simp [hidle] at hbusy) fun hnot => hnot hregion
    refine ⟨_, rfl, ?_⟩
    change s.portWord a.toNat = 0
    rw [State.portWord, hfree, locate_reserved hreserved]
    rfl
  case write =>
    refine step_write_inert hidle (by omega) ?_
    obtain hreserved | hro := haddr
    · rw [locate_reserved hreserved]
      rfl
    · exact storeLoc_readOnly (s := { s with inputs := [] }) v hro

/-! ### The limb that a data write stores (R67 to R70) -/

theorem limb_slotValue {f : Nat → Word} {limbs k l : Nat} (h : l < limbs) :
    limb (slotValue f limbs k) l = f (8 * k + l) := limb_limbsValue h

theorem storeWord_writeCell (st : Store) (resets base a off : Nat) (v : Word) :
    storeWord (writeCell st a v) resets base off = if off = a then v else storeWord st resets base off := by
  rw [storeWord, readCell_writeCell]
  split <;> rfl

/-- The words `g` are the words `f` with `v` at limb `l` of slot `k`: that limb is `v`, the slot's other limbs
and every other word are as before. -/
def ReplacesLimb (f g : Nat → Word) (limbs k l : Nat) (v : Word) : Prop :=
  limb (slotValue g limbs k) l = v ∧
    (∀ n < limbs, n ≠ l → limb (slotValue g limbs k) n = limb (slotValue f limbs k) n) ∧
    ∀ off, off ≠ 8 * k + l → g off = f off

theorem replacesLimb_writeCell (st : Store) (resets base k : Nat) {limbs l : Nat} (v : Word)
    (hl : l < limbs) : ReplacesLimb (storeWord st resets base)
      (storeWord (writeCell st (8 * k + l) v) resets base) limbs k l v := by
  have hother (off : Nat) (hne : off ≠ 8 * k + l) :
      storeWord (writeCell st (8 * k + l) v) resets base off = storeWord st resets base off := by
    rw [storeWord_writeCell, if_neg hne]
  refine ⟨?written, fun n hn hne => ?others, hother⟩
  case written => rw [limb_slotValue hl, storeWord_writeCell, if_pos rfl]
  case others => rw [limb_slotValue hn, limb_slotValue hn, hother _ (by omega)]

/-- Settles O29: the address is that of word `8 * j + l` of the `x` region. -/
theorem hostWriteStoresXLimb : Obligations.HostWriteStoresXLimb := by
  intro s j l v hidle hj hl
  have hm := inst_m_le s.inst
  have hL := inst_L_le s.inst
  have hloc : locate s.inst (0x000100 + 8 * j + l) = .x (8 * j + l) := by
    rw [Nat.add_assoc, locate_x s.inst (by omega), regionWord_limb .x hj hl]
  obtain ⟨hwritten, hlimbs, hwords⟩ := replacesLimb_writeCell s.x s.resets xBase j v hl
  exact ⟨_, step_write_idle v hidle (by omega) (by omega) hloc, hwritten, hlimbs, hwords, rfl⟩

/-- Settles O30: the address is that of word `8 * (i * m + j) + l` of the `MDS` region. -/
theorem hostWriteStoresMdsLimb : Obligations.HostWriteStoresMdsLimb := by
  intro s i j l v hidle hi hj hl
  obtain ⟨hslot, hslots⟩ := mdsIndex_lt hi hj
  have hL := inst_L_le s.inst
  have hloc : locate s.inst (0x002000 + 8 * (i * s.inst.m + j) + l) = .mds (8 * (i * s.inst.m + j) + l) := by
    rw [Nat.add_assoc, locate_mds s.inst (by omega), regionWord_limb .mds hslot hl]
  obtain ⟨hwritten, hlimbs, hwords⟩ :=
    replacesLimb_writeCell s.mds s.resets mdsBase (i * s.inst.m + j) v hl
  exact ⟨_, step_write_idle v hidle (by omega) (by omega) hloc, hwritten, hlimbs, hwords, rfl⟩

/-- Settles O31: the address is that of word `8 * k + l` of the `RC` region. -/
theorem hostWriteStoresRcLimb : Obligations.HostWriteStoresRcLimb := by
  intro s k l v hidle hk hl
  have hdepth := inst_depth_le s.inst
  have hL := inst_L_le s.inst
  have hloc : locate s.inst (0x100000 + 8 * k + l) = .rc (8 * k + l) := by
    rw [Nat.add_assoc, locate_rc s.inst (by omega), regionWord_limb .rc hk hl]
  obtain ⟨hwritten, hlimbs, hwords⟩ := replacesLimb_writeCell s.rc s.resets rcBase k v hl
  exact ⟨_, step_write_idle v hidle (by omega) (by omega) hloc, hwritten, hlimbs, hwords, rfl⟩

end Sys2Proof.Machine
end

