-- ==== Sys2Proof/Proofs/Encoding.lean ====
section
/-! PROOFS. Decoding against encoding (spec/30_encoding.md R90 to R94): the five fields of a word, the rows of the
opcode map, and that a word decodes to a command exactly when it is the command's encoding. -/

namespace Sys2Proof.Machine

open Sys2Proof.Laws.ReservedFieldsZero (formatC_reserved)

/-! ### The fields of a word (R91) -/

theorem opField_toNat (w : Word) : (opField w).toNat = w.toNat % 2 ^ 8 := by
  rw [opField, BitVec.extractLsb'_toNat, Nat.shiftRight_zero]

theorem invField_toNat (w : Word) : (invField w).toNat = w.toNat / 2 ^ 8 % 2 := by
  rw [invField, BitVec.extractLsb'_toNat, Nat.shiftRight_eq_div_pow, pow_one]

theorem rsv0Field_toNat (w : Word) : (rsv0Field w).toNat = w.toNat / 2 ^ 9 % 2 ^ 7 := by
  rw [rsv0Field, BitVec.extractLsb'_toNat, Nat.shiftRight_eq_div_pow]

theorem immField_toNat (w : Word) : (immField w).toNat = w.toNat / 2 ^ 16 % 2 ^ 32 := by
  rw [immField, BitVec.extractLsb'_toNat, Nat.shiftRight_eq_div_pow]

/-- `rsv1` is the top field, so it is all that is left above bit 47. -/
theorem rsv1Field_toNat (w : Word) : (rsv1Field w).toNat = w.toNat / 2 ^ 48 := by
  rw [rsv1Field, BitVec.extractLsb'_toNat, Nat.shiftRight_eq_div_pow, Nat.mod_eq_of_lt (by omega)]

theorem invField_eq_one_iff (w : Word) : invField w = 1 ↔ invField w ≠ 0 := by
  have hlt := (invField w).isLt
  simp only [ne_eq, ← BitVec.toNat_inj, BitVec.ofNat_eq_ofNat, BitVec.toNat_ofNat]
  omega

/-! ### Format `C` (R91) -/

theorem formatC_toNat (imm : Nat) (inv : BitVec 1) (op : BitVec 8) :
    (formatC imm inv op).toNat = imm % 2 ^ 32 * 2 ^ 16 + inv.toNat * 2 ^ 8 + op.toNat := by
  simp only [formatC, toNat_append_eq_add, BitVec.ofNat_eq_ofNat, BitVec.toNat_ofNat]
  omega

@[simp] theorem rsv1Field_formatC (imm : Nat) (inv : BitVec 1) (op : BitVec 8) :
    rsv1Field (formatC imm inv op) = 0 := (formatC_reserved imm inv op).1

@[simp] theorem rsv0Field_formatC (imm : Nat) (inv : BitVec 1) (op : BitVec 8) :
    rsv0Field (formatC imm inv op) = 0 := (formatC_reserved imm inv op).2

@[simp] theorem opField_formatC (imm : Nat) (inv : BitVec 1) (op : BitVec 8) :
    opField (formatC imm inv op) = op := by
  refine BitVec.eq_of_toNat_eq ?_
  have hop := op.isLt
  rw [opField_toNat, formatC_toNat]
  omega

@[simp] theorem invField_formatC (imm : Nat) (inv : BitVec 1) (op : BitVec 8) :
    invField (formatC imm inv op) = inv := by
  refine BitVec.eq_of_toNat_eq ?_
  have hop := op.isLt
  have hinv := inv.isLt
  rw [invField_toNat, formatC_toNat]
  omega

@[simp] theorem immField_formatC (imm : Nat) (inv : BitVec 1) (op : BitVec 8) :
    immField (formatC imm inv op) = BitVec.ofNat 32 imm := by
  refine BitVec.eq_of_toNat_eq ?_
  have hop := op.isLt
  have hinv := inv.isLt
  rw [immField_toNat, formatC_toNat, BitVec.toNat_ofNat]
  omega

/-- A word with zero reserved fields is its other three fields in format `C`. -/
theorem formatC_fields {w : Word} (hrsv1 : rsv1Field w = 0) (hrsv0 : rsv0Field w = 0) :
    formatC (immField w).toNat (invField w) (opField w) = w := by
  have h1 := rsv1Field_toNat w
  have h0 := rsv0Field_toNat w
  rw [hrsv1] at h1
  rw [hrsv0] at h0
  simp only [BitVec.ofNat_eq_ofNat, BitVec.toNat_ofNat] at h1 h0
  refine BitVec.eq_of_toNat_eq ?_
  rw [formatC_toNat, immField_toNat, invField_toNat, opField_toNat]
  omega

/-! ### The three kinds of rows: what each accepts and rejects (R91, R92) -/

theorem decodePlain_ok_iff {i j : Instr} {w : Word} :
    decodePlain i w = .ok j ↔ invField w = 0 ∧ immField w = 0 ∧ i = j := by
  unfold decodePlain
  split_ifs <;> simp_all

theorem decodePlain_error_iff {i : Instr} {w : Word} :
    (∃ r, decodePlain i w = .error r) ↔ invField w ≠ 0 ∨ immField w ≠ 0 := by
  unfold decodePlain
  split_ifs <;> simp_all

theorem decodeSbox_ok_iff {j : Instr} {w : Word} :
    decodeSbox w = .ok j ↔
      immField w = 0 ∧ (invField w = 0 ∧ .sboxF = j ∨ invField w = 1 ∧ .sboxI = j) := by
  rw [invField_eq_one_iff]
  unfold decodeSbox
  split_ifs <;> simp_all

theorem decodeSbox_error_iff {w : Word} : (∃ r, decodeSbox w = .error r) ↔ immField w ≠ 0 := by
  unfold decodeSbox
  split_ifs <;> simp_all

theorem decodeImm_ok_iff {mk : Nat → Instr} {j : Instr} {w : Word} :
    decodeImm mk w = .ok j ↔ invField w = 0 ∧ mk (immField w).toNat = j := by
  unfold decodeImm
  split_ifs <;> simp_all

theorem decodeImm_error_iff {mk : Nat → Instr} {w : Word} :
    (∃ r, decodeImm mk w = .error r) ↔ invField w ≠ 0 := by
  unfold decodeImm
  split_ifs <;> simp_all

/-! ### The opcode map (R93) -/

/-- The rows of R93 with neither selector nor immediate. -/
inductive PlainRow : (op : Nat) → Instr → Prop
  | nop : PlainRow 0 .nop
  | mdsmul : PlainRow 2 .mdsmul
  | permute : PlainRow 5 .permute
  | mdsgen : PlainRow 6 .mdsgen
  | clrstat : PlainRow 7 .clrstat

/-- The rows of R93 with an immediate. -/
inductive ImmRow : (op : Nat) → (Nat → Instr) → Prop
  | addrc : ImmRow 3 .addrc
  | round : ImmRow 4 .round

/-- Below `0x08` each opcode has its row. -/
theorem opcode_row {op : Nat} (h : op < 8) :
    (∃ i, PlainRow op i) ∨ op = 1 ∨ ∃ mk, ImmRow op mk :=
  match op with
  | 0 => .inl ⟨_, .nop⟩
  | 1 => .inr (.inl rfl)
  | 2 => .inl ⟨_, .mdsmul⟩
  | 3 => .inr (.inr ⟨_, .addrc⟩)
  | 4 => .inr (.inr ⟨_, .round⟩)
  | 5 => .inl ⟨_, .permute⟩
  | 6 => .inl ⟨_, .mdsgen⟩
  | 7 => .inl ⟨_, .clrstat⟩
  | _ + 8 => absurd h (by omega)

namespace PlainRow

variable {op : Nat} {i : Instr}

theorem wellFormed (h : PlainRow op i) : i.wellFormed = true := by cases h <;> rfl

theorem encode_eq (h : PlainRow op i) : encode i = formatC 0 0 (BitVec.ofNat 8 op) := by cases h <;> rfl

theorem op_mem (h : PlainRow op i) : op < 8 ∧ op ≠ 1 ∧ op ≠ 3 ∧ op ≠ 4 := by cases h <;> decide

theorem decode_eq (h : PlainRow op i) {w : Word} (hrsv1 : rsv1Field w = 0) (hrsv0 : rsv0Field w = 0)
    (hop : (opField w).toNat = op) : decode w = decodePlain i w := by
  cases h <;> simp [decode, hrsv1, hrsv0, hop]

end PlainRow

namespace ImmRow

variable {op : Nat} {mk : Nat → Instr}

theorem wellFormed_iff (h : ImmRow op mk) (k : Nat) : (mk k).wellFormed = true ↔ k < 2 ^ 32 := by
  cases h <;> exact decide_eq_true_iff

theorem encode_eq (h : ImmRow op mk) (k : Nat) : encode (mk k) = formatC k 0 (BitVec.ofNat 8 op) := by
  cases h <;> rfl

theorem op_mem (h : ImmRow op mk) : op = 3 ∨ op = 4 := by cases h <;> decide

theorem decode_eq (h : ImmRow op mk) {w : Word} (hrsv1 : rsv1Field w = 0) (hrsv0 : rsv0Field w = 0)
    (hop : (opField w).toNat = op) : decode w = decodeImm mk w := by
  cases h <;> simp [decode, hrsv1, hrsv0, hop]

end ImmRow

theorem decode_of_sbox {w : Word} (hrsv1 : rsv1Field w = 0) (hrsv0 : rsv0Field w = 0)
    (hop : (opField w).toNat = 1) : decode w = decodeSbox w := by
  simp [decode, hrsv1, hrsv0, hop]

/-- A reserved field that is not 0, or an opcode without a row, is enough for a word to be illegal. -/
theorem decode_error_of_no_row {w : Word}
    (h : rsv1Field w ≠ 0 ∨ rsv0Field w ≠ 0 ∨ 8 ≤ (opField w).toNat) : ∃ r, decode w = .error r := by
  unfold decode
  split_ifs with hrsv1 hrsv0
  · exact ⟨_, rfl⟩
  · exact ⟨_, rfl⟩
  · have hop : 8 ≤ (opField w).toNat := by tauto
    split
    case h_9 => exact ⟨_, rfl⟩
    all_goals omega

/-- All that decoding a word can be: rejected for want of a row, or what its opcode's row answers. -/
theorem decode_cases (w : Word) :
    ((rsv1Field w ≠ 0 ∨ rsv0Field w ≠ 0 ∨ 8 ≤ (opField w).toNat) ∧ ∃ r, decode w = .error r) ∨
      (rsv1Field w = 0 ∧ rsv0Field w = 0 ∧
        ((∃ i, PlainRow (opField w).toNat i ∧ decode w = decodePlain i w) ∨
          ((opField w).toNat = 1 ∧ decode w = decodeSbox w) ∨
          ∃ mk, ImmRow (opField w).toNat mk ∧ decode w = decodeImm mk w)) := by
  by_cases h : rsv1Field w ≠ 0 ∨ rsv0Field w ≠ 0 ∨ 8 ≤ (opField w).toNat
  · exact .inl ⟨h, decode_error_of_no_row h⟩
  · obtain ⟨hrsv1, hrsv0, hop⟩ : rsv1Field w = 0 ∧ rsv0Field w = 0 ∧ (opField w).toNat < 8 := by
      simpa only [not_or, not_not, not_le] using h
    refine .inr ⟨hrsv1, hrsv0, ?_⟩
    obtain ⟨i, hrow⟩ | hone | ⟨mk, hrow⟩ := opcode_row hop
    · exact .inl ⟨i, hrow, hrow.decode_eq hrsv1 hrsv0 rfl⟩
    · exact .inr (.inl ⟨hone, decode_of_sbox hrsv1 hrsv0 hone⟩)
    · exact .inr (.inr ⟨mk, hrow, hrow.decode_eq hrsv1 hrsv0 rfl⟩)

/-! ### Decode and encode (R91 to R93) -/

theorem decode_encode_plainRow {op : Nat} {i : Instr} (h : PlainRow op i) : decode (encode i) = .ok i := by
  have hop : (BitVec.ofNat 8 op).toNat = op := by
    rw [BitVec.toNat_ofNat, Nat.mod_eq_of_lt (by have := h.op_mem; omega)]
  rw [h.encode_eq, h.decode_eq (by simp) (by simp) (by simpa using hop), decodePlain_ok_iff]
  simp

theorem decode_encode_immRow {op k : Nat} {mk : Nat → Instr} (h : ImmRow op mk) (hk : k < 2 ^ 32) :
    decode (encode (mk k)) = .ok (mk k) := by
  have hop : (BitVec.ofNat 8 op).toNat = op := by
    rw [BitVec.toNat_ofNat, Nat.mod_eq_of_lt (by have := h.op_mem; omega)]
  rw [h.encode_eq, h.decode_eq (by simp) (by simp) (by simpa using hop), decodeImm_ok_iff,
    immField_formatC, BitVec.toNat_ofNat, Nat.mod_eq_of_lt hk]
  simp

/-- Settles O1: each command's encoding has its own fields back, and the row of its opcode accepts them. -/
theorem decodeOfEncode : Obligations.DecodeOfEncode := by
  intro i hwf
  cases i with
  | nop => exact decode_encode_plainRow .nop
  | sboxF => rfl
  | sboxI => rfl
  | mdsmul => exact decode_encode_plainRow .mdsmul
  | addrc k => exact decode_encode_immRow .addrc ((ImmRow.addrc.wellFormed_iff k).mp hwf)
  | round i => exact decode_encode_immRow .round ((ImmRow.round.wellFormed_iff i).mp hwf)
  | permute => exact decode_encode_plainRow .permute
  | mdsgen => exact decode_encode_plainRow .mdsgen
  | clrstat => exact decode_encode_plainRow .clrstat

/-- Settles O2: a row accepts only the fields that its command's encoding writes, and with the reserved fields 0
these are the whole word (`formatC_fields`). -/
theorem encodeOfDecode : Obligations.EncodeOfDecode := by
  intro w i h
  obtain ⟨_, r, hr⟩ | ⟨hrsv1, hrsv0, hrow⟩ := decode_cases w
  · exact absurd (hr.symm.trans h) nofun
  have hw := formatC_fields hrsv1 hrsv0
  obtain ⟨j, hplain, hj⟩ | ⟨hop, hj⟩ | ⟨mk, himm, hj⟩ := hrow
  · obtain ⟨hinv, hzero, rfl⟩ := decodePlain_ok_iff.mp (hj.symm.trans h)
    refine ⟨hplain.wellFormed, ?_⟩
    rw [hplain.encode_eq]
    simpa [hinv, hzero] using hw
  · have hop' : opField w = 1 := BitVec.eq_of_toNat_eq hop
    obtain ⟨hzero, ⟨hinv, rfl⟩ | ⟨hinv, rfl⟩⟩ := decodeSbox_ok_iff.mp (hj.symm.trans h)
    · exact ⟨rfl, by rwa [hinv, hzero, hop'] at hw⟩
    · exact ⟨rfl, by rwa [hinv, hzero, hop'] at hw⟩
  · obtain ⟨hinv, rfl⟩ := decodeImm_ok_iff.mp (hj.symm.trans h)
    refine ⟨(himm.wellFormed_iff _).mpr (immField w).isLt, ?_⟩
    rw [himm.encode_eq]
    simpa [hinv] using hw

/-- The encoding is the one word that decodes to a well-formed command. -/
theorem decode_eq_ok_iff {w : Word} {i : Instr} (hwf : i.wellFormed = true) :
    decode w = .ok i ↔ w = encode i :=
  ⟨fun h => (encodeOfDecode w i h).2.symm, fun h => h ▸ decodeOfEncode i hwf⟩

/-! ### Illegal words (R94, R105) -/

/-- The five cases of R94, over the fields. -/
theorem decode_error_iff (w : Word) : (∃ r, decode w = .error r) ↔
    8 ≤ (opField w).toNat ∨ rsv1Field w ≠ 0 ∨ rsv0Field w ≠ 0 ∨
      (invField w ≠ 0 ∧ (opField w).toNat ≠ 1) ∨
      (immField w ≠ 0 ∧ (opField w).toNat ≠ 3 ∧ (opField w).toNat ≠ 4) := by
  obtain ⟨hno, herr⟩ | ⟨hrsv1, hrsv0, ⟨i, hrow, heq⟩ | ⟨hop, heq⟩ | ⟨mk, hrow, heq⟩⟩ := decode_cases w
  · exact iff_of_true herr (by tauto)
  · have hop := hrow.op_mem
    rw [heq, decodePlain_error_iff]
    simp [hrsv1, hrsv0, hop]
  · rw [heq, decodeSbox_error_iff]
    simp [hrsv1, hrsv0, hop]
  · rw [heq, decodeImm_error_iff]
    obtain hop | hop := hrow.op_mem <;> simp [hrsv1, hrsv0, hop]

/-- Settles O3: `decode_error_iff` with each field as a number; `0` is the encoding of `NOP`. -/
theorem illegalWordsExactly : Obligations.IllegalWordsExactly := by
  intro w
  refine ⟨?illegal, decode_eq_ok_iff (i := .nop) rfl⟩
  rw [decode_error_iff]
  simp only [ne_eq, ← BitVec.toNat_inj, opField_toNat, rsv1Field_toNat, rsv0Field_toNat, invField_toNat,
    immField_toNat, BitVec.ofNat_eq_ofNat, BitVec.toNat_ofNat, Nat.zero_mod, Nat.mod_two_not_eq_zero]

/-- Settles O4: nineteen closed evaluations of `decode`. -/
theorem encodingExamples : Obligations.EncodingExamples := by
  unfold Obligations.EncodingExamples
  decide

end Sys2Proof.Machine
end

