-- ==== Sys2Proof/Proofs/Issue.lean ====
section
/-! PROOFS. The issue of commands (spec/30_encoding.md R95 to R99): what a write to `CMD` does while idle, for each
kind of word, and the step after `withFetchWord`. -/

namespace Sys2Proof.Machine

/-! ### A word given to `CMD` (R96 to R99) -/

theorem issue_executing {w : Word} {i : Instr} (hw : decode w = .ok i) (hexec : executing i = true) (s : State) :
    issue w s = .next (if s.err then s.dropWrite else s.accept w) := by
  rw [issue, hw]
  exact if_pos hexec

theorem issue_immediate {w : Word} {i : Instr} (hw : decode w = .ok i) (hexec : executing i = false) (s : State) :
    issue w s = exec i s := by
  rw [issue, hw]
  exact if_neg (by rw [hexec]; exact Bool.false_ne_true)

theorem issue_illegal {w : Word} {r : IllegalWord} (hw : decode w = .error r) (s : State) :
    issue w s = .next (if s.err then s.dropWrite else s.raise (.illcmd, w)) := by
  rw [issue, hw]

/-- While idle, a write to `CMD` issues the word (R95). -/
theorem step_write_cmd {s : State} {w : Word} {rest : List Input} (hidle : s.busy = false)
    (hin : s.inputs = .write cmdAddr w :: rest) : step s = issue w { s with inputs := rest } := by
  rw [step, hin]
  change hostWrite cmdAddr w { s with inputs := rest } = _
  rw [hostWrite, if_neg (by simp [hidle]), if_pos rfl]

/-- Settles O18: the accepting branch of the issue of an executing command. -/
theorem executingCommandIsAccepted : Obligations.ExecutingCommandIsAccepted := by
  intro s i rest hidle herr hexec hwf hin
  rw [step_write_cmd hidle hin, issue_executing (decodeOfEncode i hwf) hexec]
  exact congrArg Host.Outcome.next (if_neg (by simp [herr]))

/-- Settles O19: the error branch of the issue of an illegal word. -/
theorem illegalWordIsReported : Obligations.IllegalWordIsReported := by
  intro s w r rest hidle herr hw hin
  have hstep : step s = .next (State.raise { s with inputs := rest } (.illcmd, w)) := by
    rw [step_write_cmd hidle hin, issue_illegal hw]
    exact congrArg Host.Outcome.next (if_neg (by simp [herr]))
  exact ⟨_, hstep, rfl, rfl, by rw [State.raise, hidle]⟩

/-- Settles O20: with `ERR = 1` executing commands and illegal words take the same branch. -/
theorem errGatesCommands : Obligations.ErrGatesCommands := by
  intro s w rest hidle herr hw hin
  rw [step_write_cmd hidle hin]
  obtain ⟨i, hi, hexec⟩ | ⟨r, hr⟩ := hw
  · rw [issue_executing hi hexec]
    exact congrArg Host.Outcome.next (if_pos herr)
  · rw [issue_illegal hr]
    exact congrArg Host.Outcome.next (if_pos herr)

/-! ### Commands inside the write transaction (R99) -/

/-- A write of `NOP` or `CLRSTAT` while idle is its effect, whatever `ERR` is. -/
theorem step_write_immediate {s : State} {i : Instr} {rest : List Input} (hwf : i.wellFormed = true)
    (hexec : executing i = false) (hidle : s.busy = false) (hin : s.inputs = .write cmdAddr (encode i) :: rest) :
    step s = exec i { s with inputs := rest } := by
  rw [step_write_cmd hidle hin, issue_immediate (decodeOfEncode i hwf) hexec]

/-- Settles O10: `exec .nop` is the identity, and the write runs it. -/
theorem nopCompletes : Obligations.NopCompletes := fun _ =>
  ⟨rfl, fun _ hidle hin => step_write_immediate (i := .nop) rfl rfl hidle hin⟩

/-- Settles O11: `exec .clrstat` is the acknowledgement, and the write runs it. -/
theorem clrstatCompletes : Obligations.ClrstatCompletes := fun _ =>
  ⟨rfl, fun _ hidle hin => step_write_immediate (i := .clrstat) rfl rfl hidle hin⟩

/-! ### The step after `withFetchWord` (notes/assumptions/10.md) -/

theorem withFetchWord_eq_withCommand (s : State) (w : Word) : s.withFetchWord 64 w.toNat = s.withCommand w := by
  rw [State.withFetchWord, Nat.mod_eq_of_lt w.isLt, BitVec.ofNat_toNat, BitVec.setWidth_eq]

theorem withCommand_executing {w : Word} {i : Instr} (hw : decode w = .ok i) (hexec : executing i = true)
    (s : State) : s.withCommand w = { s.accept w with inputs := .tick :: s.inputs } := by
  simp [State.withCommand, hw, Except.toOption, hexec]

theorem withCommand_immediate {w : Word} {i : Instr} (hw : decode w = .ok i) (hexec : executing i = false)
    (s : State) : s.withCommand w = { s with busy := false, inputs := .write cmdAddr w :: s.inputs } := by
  simp [State.withCommand, hw, Except.toOption, hexec]

/-- Settles O12: an executing command runs in the sequencer's turn, any other in its write transaction. -/
theorem nextStepRunsThePlacedCommand : Obligations.NextStepRunsThePlacedCommand := by
  intro s i hwf
  have hw : decode (encode i) = .ok i := decodeOfEncode i hwf
  rw [withFetchWord_eq_withCommand]
  cases hexec : executing i with
  | true =>
    rw [withCommand_executing hw hexec, if_pos rfl]
    exact sequencer_runs_opl (s := s.accept (encode i)) rfl hw hexec
  | false =>
    rw [withCommand_immediate hw hexec, if_neg Bool.false_ne_true]
    exact step_write_immediate hwf hexec rfl rfl

end Sys2Proof.Machine
end

