-- ==== Sys2Proof/Proofs/Sbox.lean ====
section
/-! PROOFS. The two commands of the S-box layer (spec/40_sbox.md): when their tests pass, what they leave in `x`
and unchanged, and that each undoes the other. -/

namespace Sys2Proof.Machine

/-! ### The tests of the S-box commands (R112, R228, R229) -/

/-- `P - 1` is at least 2, so the 1 of the product test is the number 1. -/
theorem one_mod_pred_P (I : Config.Instance) : 1 % (I.P - 1) = 1 := by
  have := inst_three_le I
  exact Nat.mod_eq_of_lt (by omega)

theorem checkAlpha_eq_none_iff (s : State) : s.checkAlpha = none ↔ s.pairOk := by
  rw [State.checkAlpha, errIf_eq_none_iff, one_mod_pred_P, bne_eq_false_iff_eq]

theorem checkX_eq_none_iff (s : State) : s.checkX = none ↔ s.xReduced := by
  simp [State.checkX, checkRange_eq_none_iff]

theorem sboxChecks_eq_none_iff (s : State) : s.sboxChecks = none ↔ s.pairOk ∧ s.xReduced := by
  simp [State.sboxChecks, firstError_eq_none_iff, checkAlpha_eq_none_iff, checkX_eq_none_iff]

/-! ### One S-box layer (R114) -/

/-- A command that ends with a vector write changes `x` and the status and nothing else: the reserved words of
the region are no limb of an element (R36, R73). -/
theorem doneChangingX_complete_setX (s : State) (f : Nat → Nat) : doneChangingX s (s.setX f).complete := by
  refine ⟨rfl, fun off hreserved => ?_⟩
  have hnotLimb : ¬ (off / 8 < s.inst.m ∧ off % 8 < s.inst.L) := by omega
  exact (xWord_setX s f off).trans (if_neg hnotLimb)

theorem xVal_sboxStep (s : State) (sel : Bool) {j : Nat} (hj : j < s.inst.m) :
    (s.sboxStep sel).xVal j = s.xVal j ^ s.exponent sel % s.inst.P := by
  have hlt : fpow s.inst.P (s.xVal j) (s.exponent sel) < s.inst.P := fpow_lt (inst_pos s.inst) _ _
  exact (xVal_setX hj hlt).trans (fpow_eq_pow_mod _ _ _)

theorem sboxCommand_of_passing {s : State} (hpair : s.pairOk) (hx : s.xReduced) (sel : Bool) :
    s.sboxCommand sel = (s.sboxStep sel).complete := by
  rw [State.sboxCommand, (sboxChecks_eq_none_iff s).mpr ⟨hpair, hx⟩, State.checkedStep]

/-- A lone S-box layer whose tests pass: its frame, and the power it leaves in every element (R112, R114). -/
theorem sboxCommand_powers {s : State} (hpair : s.pairOk) (hx : s.xReduced) (sel : Bool) :
    doneChangingX s (s.sboxCommand sel) ∧
      ∀ j < s.inst.m, (s.sboxCommand sel).xVal j = s.xVal j ^ s.exponent sel % s.inst.P := by
  rw [sboxCommand_of_passing hpair hx]
  exact ⟨doneChangingX_complete_setX s _, fun j hj => xVal_sboxStep s sel hj⟩

/-- Settles O33: each command is the lone layer with its selector. -/
theorem sboxRaisesEveryElement : Obligations.SboxRaisesEveryElement := fun _ hpair hx =>
  ⟨⟨_, rfl, sboxCommand_powers hpair hx false⟩, ⟨_, rfl, sboxCommand_powers hpair hx true⟩⟩

/-! ### The two layers undo each other (R17, R115) -/

/-- An exponent that is 1 modulo `P - 1` leaves every field element alone: Fermat's little theorem, and 0 apart
(R17). -/
theorem pow_mod_eq_self {P a n : Nat} (hP : P.Prime) (hn : n % (P - 1) = 1) (ha : a < P) : a ^ n % P = a := by
  obtain rfl | hpos := Nat.eq_zero_or_pos a
  case inl =>
    have hne : n ≠ 0 := by
      rintro rfl
      simp at hn
    rw [zero_pow hne, Nat.zero_mod]
  case inr =>
    have hcoprime : a.Coprime P := (Nat.coprime_of_lt_prime hpos.ne' ha hP).symm
    have hfermat : a ^ (P - 1) ≡ 1 [MOD P] := Nat.ModEq.pow_card_sub_one_eq_one hP hcoprime
    calc a ^ n % P = a ^ ((P - 1) * (n / (P - 1)) + n % (P - 1)) % P := by rw [Nat.div_add_mod]
      _ = (a ^ (P - 1)) ^ (n / (P - 1)) * a % P := by rw [hn, pow_succ, pow_mul]
      _ = 1 ^ (n / (P - 1)) * a % P := (hfermat.pow _).mul_right a
      _ = a := by rw [one_pow, one_mul, Nat.mod_eq_of_lt ha]

/-- The product test does not tell the two selectors apart. -/
theorem exponent_mul_exponent_not {s : State} (hpair : s.pairOk) (sel : Bool) :
    s.exponent sel * s.exponent (!sel) % (s.inst.P - 1) = 1 := by
  cases sel with
  | false => exact hpair
  | true => exact (congrArg (· % (s.inst.P - 1)) (Nat.mul_comm _ _)).trans hpair

/-- A lone S-box layer leaves the exponents alone and field elements in `x`, so the tests still pass. -/
theorem sboxCommand_passing {s : State} (hpair : s.pairOk) (hx : s.xReduced) (sel : Bool) :
    (s.sboxCommand sel).pairOk ∧ (s.sboxCommand sel).xReduced := by
  rw [sboxCommand_of_passing hpair hx]
  refine ⟨hpair, fun j hj => ?_⟩
  exact (xVal_sboxStep s sel hj).trans_lt (Nat.mod_lt _ (inst_pos s.inst))

/-- Either layer and then the other end without error and with the `x` they started from (R115). -/
theorem sboxCommand_sboxCommand_not {s : State} (hpair : s.pairOk) (hx : s.xReduced) (sel : Bool) :
    ((s.sboxCommand sel).sboxCommand !sel).done = true ∧
      ∀ j < s.inst.m, ((s.sboxCommand sel).sboxCommand !sel).xVal j = s.xVal j := by
  obtain ⟨hpair', hx'⟩ := sboxCommand_passing hpair hx sel
  rw [sboxCommand_of_passing hpair' hx', sboxCommand_of_passing hpair hx]
  refine ⟨rfl, fun j hj => ?_⟩
  calc ((s.sboxStep sel).complete.sboxStep !sel).xVal j
      = (s.sboxStep sel).xVal j ^ s.exponent (!sel) % s.inst.P :=
        xVal_sboxStep (s.sboxStep sel).complete (!sel) hj
    _ = s.xVal j ^ (s.exponent sel * s.exponent (!sel)) % s.inst.P := by
        rw [xVal_sboxStep s sel hj, ← Nat.pow_mod, pow_mul]
    _ = s.xVal j := pow_mod_eq_self (inst_prime s.inst) (exponent_mul_exponent_not hpair sel) (hx j hj)

/-- Settles O36: both orders are one layer and then the layer of the other selector. -/
theorem sboxRoundTrip : Obligations.SboxRoundTrip := fun _ hpair hx =>
  ⟨⟨_, _, rfl, rfl, sboxCommand_sboxCommand_not hpair hx false⟩,
    ⟨_, _, rfl, rfl, sboxCommand_sboxCommand_not hpair hx true⟩⟩

end Sys2Proof.Machine
end

