-- ==== Sys2Proof/Proofs/MdsMul.lean ====
section
/-! PROOFS. The matrix multiplier and its command (spec/41_mdsmul.md): the product over the field is linear, when
the tests of `MDSMUL` pass, and what the command leaves in `x` and unchanged. -/

namespace Sys2Proof.Machine

/-! ### The product over the field (R121, R123, R149) -/

/-- The product looks at one row of the matrix and no further. -/
theorem mdsVec_congr_row {P m i : Nat} {M M' : Nat → Nat → Nat} (h : ∀ j < m, M i j = M' i j)
    (x : Nat → Nat) : mdsVec P m M x i = mdsVec P m M' x i := by
  have hsum : ∑ j ∈ Finset.range m, M i j * x j = ∑ j ∈ Finset.range m, M' i j * x j :=
    Finset.sum_congr rfl fun j hj => by rw [h j (Finset.mem_range.mp hj)]
  rw [mdsVec, hsum, mdsVec]

/-- The product sees its vector modulo `P` only. -/
theorem mdsVec_congr_mod {P m : Nat} {x y : Nat → Nat} (h : ∀ j < m, x j ≡ y j [MOD P])
    (M : Nat → Nat → Nat) (i : Nat) : mdsVec P m M x i = mdsVec P m M y i :=
  Nat.ModEq.sum fun j hj => (h j (Finset.mem_range.mp hj)).mul_left (M i j)

/-- A combination computed with `fadd` and `fmul` may as well be reduced once, at the end (R12, R14). -/
theorem fadd_fmul_fmul (P c a d b : Nat) : fadd P (fmul P c a) (fmul P d b) = (c * a + d * b) % P :=
  (Nat.add_mod _ _ _).symm

/-- The product of a matrix and a linear combination of vectors is that combination of the products (R123). -/
theorem mdsVec_linear (P m : Nat) (M : Nat → Nat → Nat) {x u v : Nat → Nat} {c d : Nat}
    (hx : ∀ j < m, x j = fadd P (fmul P c (u j)) (fmul P d (v j))) (i : Nat) :
    mdsVec P m M x i = fadd P (fmul P c (mdsVec P m M u i)) (fmul P d (mdsVec P m M v i)) := by
  have hmod : ∀ j < m, x j ≡ c * u j + d * v j [MOD P] := fun j hj => by
    rw [hx j hj, fadd_fmul_fmul]
    exact Nat.mod_modEq _ P
  have hsum : ∑ j ∈ Finset.range m, M i j * (c * u j + d * v j) =
      c * ∑ j ∈ Finset.range m, M i j * u j + d * ∑ j ∈ Finset.range m, M i j * v j := by
    rw [Finset.mul_sum, Finset.mul_sum, ← Finset.sum_add_distrib]
    exact Finset.sum_congr rfl fun j _ => by ring
  calc mdsVec P m M x i = mdsVec P m M (fun j => c * u j + d * v j) i := mdsVec_congr_mod hmod M i
    _ = fadd P (fmul P c (∑ j ∈ Finset.range m, M i j * u j))
          (fmul P d (∑ j ∈ Finset.range m, M i j * v j)) := by rw [mdsVec, hsum, fadd_fmul_fmul]
    _ = fadd P (fmul P c (mdsVec P m M u i)) (fmul P d (mdsVec P m M v i)) := by
        rw [mdsVec, mdsVec, fmul, fmul, fmul, fmul, Nat.mul_mod_mod, Nat.mul_mod_mod]

/-! ### One linear layer (R121) -/

theorem xVal_mdsStep (s : State) {i : Nat} (hi : i < s.inst.m) :
    s.mdsStep.xVal i = mdsVec s.inst.P s.inst.m s.mdsVal s.xVal i :=
  calc s.mdsStep.xVal i = sumTo (fun j => s.mdsVal i j * s.xVal j) s.inst.m % s.inst.P :=
        xVal_setX hi (Nat.mod_lt _ (inst_pos s.inst))
    _ = mdsVec s.inst.P s.inst.m s.mdsVal s.xVal i := by rw [sumTo_eq_sum, mdsVec]

/-! ### The command (R122) -/

theorem checkMds_eq_none_iff (s : State) : s.checkMds = none ↔ s.mdsReduced := by
  simp [State.checkMds, checkRange_eq_none_iff]

theorem mdsmulChecks_eq_none_iff (s : State) : s.mdsmulChecks = none ↔ s.xReduced ∧ s.mdsReduced := by
  simp [State.mdsmulChecks, firstError_eq_none_iff, checkX_eq_none_iff, checkMds_eq_none_iff]

theorem exec_mdsmul_of_passing {s : State} (hx : s.xReduced) (hM : s.mdsReduced) :
    exec .mdsmul s = .next s.mdsStep.complete := by
  have hstep : s.checkedStep s.mdsmulChecks s.mdsStep.complete = s.mdsStep.complete := by
    rw [(mdsmulChecks_eq_none_iff s).mpr ⟨hx, hM⟩, State.checkedStep]
  exact congrArg Host.Outcome.next hstep

/-- Settles O34: a passing `MDSMUL` is one linear layer, and a layer writes the product of the old matrix and
vector. -/
theorem mdsmulMultiplies : Obligations.MdsmulMultiplies := fun s hx hM =>
  ⟨_, exec_mdsmul_of_passing hx hM, doneChangingX_complete_setX s _, fun _ hi => xVal_mdsStep s hi⟩

/-- States whose matrix stores hold the same slots hold the same matrix. -/
theorem mdsVal_congr {s t : State} (hinst : t.inst = s.inst)
    (h : ∀ e < s.inst.m * s.inst.m, t.mdsSlot e = s.mdsSlot e) {i j : Nat} (hi : i < s.inst.m)
    (hj : j < s.inst.m) : t.mdsVal i j = s.mdsVal i j := by
  rw [State.mdsVal, hinst, h _ (mdsIndex_lt hi hj).1, State.mdsVal]

/-- `MDSMUL` in a state with the instance and the matrix of another, in the other's terms. -/
theorem exec_mdsmul_of_same_matrix {s t : State} (hinst : t.inst = s.inst)
    (hslots : ∀ e < s.inst.m * s.inst.m, t.mdsSlot e = s.mdsSlot e) (hx : t.xReduced) (hM : s.mdsReduced) :
    ∃ t', exec .mdsmul t = .next t' ∧
      ∀ i < s.inst.m, t'.xVal i = mdsVec s.inst.P s.inst.m s.mdsVal t.xVal i := by
  have hM' : t.mdsReduced := by
    rw [State.mdsReduced, hinst]
    exact fun e he => (hslots e he).trans_lt (hM e he)
  refine ⟨_, exec_mdsmul_of_passing hx hM', fun i hi => ?_⟩
  calc t.mdsStep.complete.xVal i = mdsVec t.inst.P t.inst.m t.mdsVal t.xVal i := xVal_mdsStep t (hinst ▸ hi)
    _ = mdsVec s.inst.P s.inst.m t.mdsVal t.xVal i := by rw [hinst]
    _ = mdsVec s.inst.P s.inst.m s.mdsVal t.xVal i :=
        mdsVec_congr_row (fun j hj => mdsVal_congr hinst hslots hi hj) t.xVal

/-- Settles O37: the three commands multiply by one matrix, and that product is linear. -/
theorem mdsmulIsLinear : Obligations.MdsmulIsLinear := by
  intro s u v c d hxs hxu hxv hM hu hv hslots hcomb
  obtain ⟨s', hs', hsx⟩ := exec_mdsmul_of_same_matrix rfl (fun _ _ => rfl) hxs hM
  obtain ⟨u', hu', hux⟩ := exec_mdsmul_of_same_matrix hu (fun e he => (hslots e he).1) hxu hM
  obtain ⟨v', hv', hvx⟩ := exec_mdsmul_of_same_matrix hv (fun e he => (hslots e he).2) hxv hM
  refine ⟨s', u', v', hs', hu', hv', fun i hi => ?_⟩
  rw [hsx i hi, hux i hi, hvx i hi]
  exact mdsVec_linear s.inst.P s.inst.m s.mdsVal hcomb i

end Sys2Proof.Machine
end

