-- ==== Sys2Proof/Proofs/AddRc.lean ====
section
/-! PROOFS. The round-constant injector and its command (spec/42_addrc.md): when the tests of `ADDRC` pass, and
what the command leaves in `x` and unchanged. -/

namespace Sys2Proof.Machine

/-! ### The tests (R133, R226, R227, R229) -/

theorem checkRclenFits_eq_none_iff (s : State) : s.checkRclenFits = none ↔ s.rclen.toNat ≤ s.inst.rcDepth := by
  rw [State.checkRclenFits, errIf_eq_none_iff, decide_eq_false_iff_not, Nat.not_lt]

theorem checkIndex_eq_none_iff (s : State) (last imm : Nat) :
    s.checkIndex last imm = none ↔ last ≤ s.rclen.toNat := by
  rw [State.checkIndex, errIf_eq_none_iff, decide_eq_false_iff_not, Nat.not_lt]

/-- The range test counts store slots, `rcReduced` the constants from slot `k` on. -/
theorem checkRc_eq_none_iff (s : State) (n k : Nat) : s.checkRc n k = none ↔ s.rcReduced k n := by
  rw [State.checkRc, checkRange_eq_none_iff]
  constructor
  · intro hslots j hj
    exact hslots (k + j) (Nat.le_add_right k j) (Nat.add_lt_add_left hj k)
  · intro hconstants a hka ha
    obtain ⟨j, rfl⟩ := Nat.exists_eq_add_of_le hka
    exact hconstants j (Nat.lt_of_add_lt_add_left ha)

theorem addrcChecks_eq_none_iff (s : State) (k : Nat) :
    s.addrcChecks k = none ↔
      s.rclen.toNat ≤ s.inst.rcDepth ∧ k + s.inst.m ≤ s.rclen.toNat ∧ s.xReduced ∧ s.rcReduced k s.inst.m := by
  simp [State.addrcChecks, firstError_eq_none_iff, checkRclenFits_eq_none_iff, checkIndex_eq_none_iff,
    checkX_eq_none_iff, checkRc_eq_none_iff]

/-! ### One injection (R131, R134) -/

theorem xVal_injStep (s : State) (b : Nat) {j : Nat} (hj : j < s.inst.m) :
    (s.injStep b).xVal j = injVec s.inst.P s.rcVal b s.xVal j :=
  xVal_setX hj (fadd_lt (inst_pos s.inst) (s.xVal j) (s.rcVal (b + j)))

/-! ### The command (R133) -/

theorem exec_addrc_of_passing {s : State} {k : Nat} (hpass : s.addrcChecks k = none) :
    exec (.addrc k) s = .next (s.injStep k).complete := by
  have hstep : s.checkedStep (s.addrcChecks k) (s.injStep k).complete = (s.injStep k).complete := by
    rw [hpass, State.checkedStep]
  exact congrArg Host.Outcome.next hstep

/-- Settles O35: a passing `ADDRC k` is one injection from slot `k`. -/
theorem addrcAddsTheChunk : Obligations.AddrcAddsTheChunk := by
  intro s k hfits hindex hx hrc
  have hpass : s.addrcChecks k = none := (addrcChecks_eq_none_iff s k).mpr ⟨hfits, hindex, hx, hrc⟩
  exact ⟨_, exec_addrc_of_passing hpass, doneChangingX_complete_setX s _, fun _ hj => xVal_injStep s k hj⟩

end Sys2Proof.Machine
end

