-- ==== Sys2Proof/Proofs/Progress.lean ====
section
/-! PROOFS. Every event has an outcome (spec/10_state.md R45, R46; spec/60_exceptions.md R233): the one fault of the
model needs a busy engine without a command, which the invariant excludes (notes/assumptions/11.md). -/

namespace Sys2Proof.Machine

theorem sequencer_next {s : State} (h : s.Inv) : ∃ t, sequencer s = .next t := by
  obtain ⟨_, heq⟩ | ⟨_, i, _, _, heq⟩ | ⟨hbusy, _⟩ := sequencer_cases s
  · exact ⟨s, heq⟩
  · rw [heq]
    exact exec_next i s
  · obtain ⟨_, _, _, _, hseq⟩ := h
    obtain ⟨i, hopl, hexec, _⟩ := (sequencerOk_busy_iff hbusy).mp hseq
    rw [sequencer_runs_opl hbusy hopl hexec]
    exact exec_next i s

theorem issue_next (w : Word) (s : State) : ∃ t, issue w s = .next t := by
  obtain ⟨_, _, _, heq⟩ | ⟨i, _, _, heq⟩ | ⟨_, _, heq⟩ := issue_cases w s
  · exact ⟨_, heq⟩
  · rw [heq]
    exact exec_next i s
  · exact ⟨_, heq⟩

theorem hostWrite_next (a : HostAddr) (v : Word) (s : State) : ∃ t, hostWrite a v s = .next t := by
  obtain ⟨_, heq⟩ | ⟨_, _, heq⟩ | ⟨_, _, heq⟩ := hostWrite_cases a v s
  · exact ⟨_, heq⟩
  · rw [heq]
    exact issue_next v s
  · exact ⟨_, heq⟩

theorem perform_next {s : State} (e : Input) (h : s.Inv) : ∃ t, perform e s = .next t := by
  cases e with
  | tick => exact sequencer_next h
  | read a => exact ⟨_, rfl⟩
  | write a v => exact hostWrite_next a v s
  | reset => exact ⟨_, rfl⟩

/-- Settles O17: every event has an outcome, and the invariant says nothing of the events still to come. -/
theorem legalStatesNeverStop : Obligations.LegalStatesNeverStop := by
  intro s h
  unfold step
  split
  · exact perform_next .tick h
  · next e rest _ => exact perform_next e ((inv_withHost s ⟨rest, s.drop, s.readData, s.busyReads⟩).mpr h)

end Sys2Proof.Machine
end

