-- ==== Sys2Proof/Proofs/PhaseStep.lean ====
section
/-! PROOFS. The single sequencer steps of `ROUND` and `PERMUTE` (spec/43_round_permute.md R141 to R143, R147): when
the check step passes and what it sets, what a phase does to the vector `x` and how it moves the position. -/

namespace Sys2Proof.Machine

/-! ### The check steps (R141, R147, R225 to R229) -/

theorem roundChecks_eq_none_iff (s : State) (i : Nat) : s.roundChecks i = none ↔ s.roundReady i := by
  simp [State.roundChecks, firstError_eq_none_iff, checkRclenFits_eq_none_iff, checkIndex_eq_none_iff,
    checkAlpha_eq_none_iff, checkX_eq_none_iff, checkMds_eq_none_iff, checkRc_eq_none_iff, injBase]

theorem checkNrounds_eq_none_iff (s : State) :
    s.checkNrounds = none ↔ s.nrounds.toNat ≠ 0 ∧ 2 * s.inst.m * s.nrounds.toNat ≤ s.inst.rcDepth := by
  simp [State.checkNrounds, ← BitVec.toNat_inj]

theorem checkRclenExact_eq_none_iff (s : State) :
    s.checkRclenExact = none ↔ s.rclen.toNat = 2 * s.inst.m * s.nrounds.toNat := by
  rw [State.checkRclenExact, errIf_eq_none_iff, bne_eq_false_iff_eq]

theorem permuteChecks_eq_none_iff (s : State) : s.permuteChecks = none ↔ s.permuteReady := by
  simp [State.permuteChecks, firstError_eq_none_iff, checkNrounds_eq_none_iff, checkRclenExact_eq_none_iff,
    checkAlpha_eq_none_iff, checkX_eq_none_iff, checkMds_eq_none_iff, checkRc_eq_none_iff, and_assoc]

theorem exec_round_of_ready {s : State} {i : Nat} (hunchecked : s.checked = false) (hready : s.roundReady i) :
    exec (.round i) s = .next (s.startAt (BitVec.ofNat 32 i)) := by
  have hpass : s.roundChecks i = none := (roundChecks_eq_none_iff s i).mpr hready
  change execRound i s = _
  rw [execRound, hunchecked, if_neg Bool.false_ne_true, hpass, State.checkedStep]

theorem exec_permute_of_ready {s : State} (hunchecked : s.checked = false) (hready : s.permuteReady) :
    exec .permute s = .next (s.startAt 0) := by
  have hpass : s.permuteChecks = none := (permuteChecks_eq_none_iff s).mpr hready
  change execPermute s = _
  rw [execPermute, hunchecked, if_neg Bool.false_ne_true, hpass, State.checkedStep]

/-- Settles O38: a check step whose tests pass is the start at the command's first position. -/
theorem checkStepsSetThePosition : Obligations.CheckStepsSetThePosition := fun _ hunchecked =>
  ⟨fun _ hready => exec_round_of_ready hunchecked hready, exec_permute_of_ready hunchecked⟩

/-! ### A phase as a function on vectors (R142, R149) -/

/-- What a phase of round `i` makes of a vector (R142). -/
def phaseVec (A : PermArgs) (i : Nat) : Phase → (Nat → Nat) → Nat → Nat
  | .sboxF => sboxVec A.P A.alpha
  | .mdsA => mdsVec A.P A.m A.M
  | .injA => injVec A.P A.rc (2 * i * A.m)
  | .sboxI => sboxVec A.P A.alphaInv
  | .mdsB => mdsVec A.P A.m A.M
  | .injB => injVec A.P A.rc (2 * i * A.m + A.m)

theorem phaseVec_lt {A : PermArgs} (hP : 0 < A.P) (i : Nat) (ph : Phase) (x : Nat → Nat) (j : Nat) :
    phaseVec A i ph x j < A.P := by
  cases ph <;> exact Nat.mod_lt _ hP

/-- A phase looks at the `m` elements of its vector and no further. -/
theorem phaseVec_congr {A : PermArgs} {x y : Nat → Nat} (h : ∀ k < A.m, x k = y k) (i : Nat) (ph : Phase)
    {j : Nat} (hj : j < A.m) : phaseVec A i ph x j = phaseVec A i ph y j := by
  have hmds : mdsVec A.P A.m A.M x j = mdsVec A.P A.m A.M y j :=
    mdsVec_congr_mod (fun k hk => congrArg (· % A.P) (h k hk)) A.M j
  cases ph with
  | sboxF | sboxI => exact congrArg (fun a => a ^ _ % A.P) (h j hj)
  | mdsA | mdsB => exact hmds
  | injA | injB => exact congrArg (fun a => (a + _) % A.P) (h j hj)

/-! ### The work of a phase on the state (R114, R121, R134) -/

theorem xVal_phaseWork (s : State) {j : Nat} (hj : j < s.inst.m) :
    s.phaseWork.xVal j = phaseVec s.permArgs s.round.toNat s.phase s.xVal j := by
  have hfirst : injBase s.inst.m s.round.toNat 0 = 2 * s.round.toNat * s.inst.m := by
    rw [injBase, Nat.zero_mul, Nat.add_zero]
  have hsecond : injBase s.inst.m s.round.toNat 1 = 2 * s.round.toNat * s.inst.m + s.inst.m := by
    rw [injBase, Nat.one_mul]
  rw [State.phaseWork]
  cases s.phase with
  | sboxF => exact xVal_sboxStep s false hj
  | mdsA => exact xVal_mdsStep s hj
  | injA => exact hfirst ▸ xVal_injStep s _ hj
  | sboxI => exact xVal_sboxStep s true hj
  | mdsB => exact xVal_mdsStep s hj
  | injB => exact hsecond ▸ xVal_injStep s _ hj

theorem sameReservedX_phaseWork (s : State) : sameReservedX s s.phaseWork := by
  obtain ⟨f, heq, _⟩ := phaseWork_eq_setX s
  obtain ⟨_, hreserved⟩ := doneChangingX_complete_setX s f
  rw [heq]
  exact hreserved

/-! ### The phase step of a command of rounds (R142, R143) -/

/-- `ROUND` and `PERMUTE`, the commands whose work is phase steps. -/
def HasRounds (i : Instr) : Prop := (∃ r, i = .round r) ∨ i = .permute

/-- The command completes with the round at the position (R143). -/
def State.endsWithRound (s : State) : Instr → Bool
  | .permute => s.atLastRound
  | .nop | .sboxF | .sboxI | .mdsmul | .addrc _ | .round _ | .mdsgen | .clrstat => true

theorem exec_of_checked {s : State} {i : Instr} (hi : HasRounds i) (hchecked : s.checked = true) :
    exec i s = .next (s.phaseStep (s.endsWithRound i)) := by
  obtain ⟨r, rfl⟩ | rfl := hi
  · change execRound r s = _
    rw [execRound, hchecked, if_pos rfl, State.endsWithRound]
  · change execPermute s = _
    rw [execPermute, hchecked, if_pos rfl, State.endsWithRound]

theorem xWord_advance (s : State) (last : Bool) (off : Nat) : (s.advance last).xWord off = s.xWord off := by
  obtain ⟨_, _, heq⟩ | ⟨_, _, heq⟩ | ⟨_, heq⟩ := advance_cases s last <;> rw [heq] <;> rfl

theorem xVal_advance (s : State) (last : Bool) (j : Nat) : (s.advance last).xVal j = s.xVal j := by
  obtain ⟨_, _, heq⟩ | ⟨_, _, heq⟩ | ⟨_, heq⟩ := advance_cases s last <;> rw [heq] <;> rfl

theorem sameReservedX_phaseStep (s : State) (last : Bool) : sameReservedX s (s.phaseStep last) :=
  fun off hreserved => (xWord_advance _ last off).trans (sameReservedX_phaseWork s off hreserved)

theorem xVal_phaseStep (s : State) (last : Bool) {j : Nat} (hj : j < s.inst.m) :
    (s.phaseStep last).xVal j = phaseVec s.permArgs s.round.toNat s.phase s.xVal j :=
  (xVal_advance _ last j).trans (xVal_phaseWork s hj)

/-- Settles O39: the step is `phaseStep`, whose work is `phaseVec` and whose advance goes phase by phase. -/
theorem phaseStepWorksAndAdvances : Obligations.PhaseStepWorksAndAdvances := by
  intro s i last hchecked hi
  have hexec : exec i s = .next (s.phaseStep last) := by
    obtain ⟨r, rfl, rfl⟩ | ⟨rfl, rfl⟩ := hi
    · exact exec_of_checked (.inl ⟨r, rfl⟩) hchecked
    · exact exec_of_checked (.inr rfl) hchecked
  refine ⟨_, hexec, sameReservedX_phaseStep s last, fun j hj => (xVal_phaseStep s last hj).trans ?work, ?frame⟩
  case work => cases s.phase <;> rfl
  case frame =>
    obtain ⟨f, hwork, _⟩ := phaseWork_eq_setX s
    rw [State.phaseStep, hwork, State.advance, State.setX_phase]
    cases s.phase with
    | sboxF | mdsA | injA | sboxI | mdsB => rfl
    | injB => cases last <;> rfl

end Sys2Proof.Machine
end

