-- ==== Sys2Proof/Proofs/RoundRun.lean ====
section
/-! PROOFS. Whole runs of `ROUND` and `PERMUTE` (spec/43_round_permute.md R143, R149): the states that differ from a
given one only in what commands write, the six phase steps of a round, the rounds of a permutation. -/

namespace Sys2Proof.Machine

/-! ### Rounds and permutations of vectors (R149) -/

/-- The phase after `n` phases of a round. -/
def phaseAt (n : Nat) : Phase := Phase.next^[n] .sboxF

/-- What the first `n` phases of round `i` make of a vector. -/
def phasesVec (A : PermArgs) (i : Nat) (x : Nat → Nat) : (n : Nat) → Nat → Nat
  | 0 => x
  | n + 1 => phaseVec A i (phaseAt n) (phasesVec A i x n)

/-- A round is its six phases (R140, R142). -/
theorem phasesVec_six (A : PermArgs) (i : Nat) (x : Nat → Nat) : phasesVec A i x 6 = roundVec A i x := rfl

theorem phaseAt_succ (n : Nat) : phaseAt (n + 1) = (phaseAt n).next := Function.iterate_succ_apply' _ n _

theorem phaseAt_ne_injB {n : Nat} (h : n < 5) : phaseAt n ≠ .injB := by
  interval_cases n <;> decide

theorem phasesVec_congr {A : PermArgs} {x y : Nat → Nat} (h : ∀ k < A.m, x k = y k) (i n : Nat) :
    ∀ j < A.m, phasesVec A i x n j = phasesVec A i y n j := by
  induction n with
  | zero => exact h
  | succ n ih => exact fun j hj => phaseVec_congr ih i (phaseAt n) hj

theorem roundVec_congr {A : PermArgs} {x y : Nat → Nat} (h : ∀ k < A.m, x k = y k) (i : Nat) {j : Nat}
    (hj : j < A.m) : roundVec A i x j = roundVec A i y j := by
  rw [← phasesVec_six, ← phasesVec_six]
  exact phasesVec_congr h i 6 j hj

/-- Field elements stay field elements. -/
theorem permVec_lt {A : PermArgs} (hP : 0 < A.P) {x : Nat → Nat} (hx : ∀ j < A.m, x j < A.P) (n : Nat) :
    ∀ j < A.m, permVec A n x j < A.P := by
  cases n with
  | zero => exact hx
  | succ n => exact fun j _ => Nat.mod_lt _ hP

/-! ### States that differ in what commands write -/

/-- `s` with what the commands on `x` write taken from `t`: `x`, `OPL`, the position, `DONE`, `BUSY`, and the
model's `checked`. -/
def State.withWritten (s t : State) : State :=
  { s with x := t.x, opl := t.opl, round := t.round, phase := t.phase, done := t.done, busy := t.busy,
           checked := t.checked }

theorem phaseWork_changes_x (s : State) : s.phaseWork = { s with x := s.phaseWork.x } := by
  obtain ⟨f, heq, _⟩ := phaseWork_eq_setX s
  rw [heq]
  rfl

theorem phaseWork_withWritten (s : State) : s.phaseWork = s.withWritten s.phaseWork := by
  obtain ⟨f, heq, _⟩ := phaseWork_eq_setX s
  rw [heq]
  rfl

/-- `t` is `s` but for what the commands on `x` write, and holds the vector `f`. -/
structure HoldsVec (s : State) (f : Nat → Nat) (t : State) : Prop where
  frame : t = s.withWritten t
  reserved : sameReservedX s t
  xVal : ∀ j < s.inst.m, t.xVal j = f j

namespace HoldsVec

variable {s t u : State} {f g : Nat → Nat}

theorem refl (s : State) : HoldsVec s s.xVal s := ⟨rfl, fun _ _ => rfl, fun _ _ => rfl⟩

theorem inst_eq (h : HoldsVec s f t) : t.inst = s.inst :=
  (congrArg State.inst h.frame :)

theorem inputs_eq (h : HoldsVec s f t) : t.inputs = s.inputs :=
  (congrArg State.inputs h.frame :)

theorem err_eq (h : HoldsVec s f t) : t.err = s.err :=
  (congrArg State.err h.frame :)

theorem nrounds_eq (h : HoldsVec s f t) : t.nrounds = s.nrounds :=
  (congrArg State.nrounds h.frame :)

theorem permArgs_eq (h : HoldsVec s f t) : t.permArgs = s.permArgs :=
  (congrArg State.permArgs h.frame :)

theorem congr (h : HoldsVec s f t) (hfg : ∀ j < s.inst.m, f j = g j) : HoldsVec s g t :=
  ⟨h.frame, h.reserved, fun j hj => (h.xVal j hj).trans (hfg j hj)⟩

theorem trans (h : HoldsVec s f t) (h' : HoldsVec t g u) : HoldsVec s g u where
  frame := h'.frame.trans (congrArg (·.withWritten u) h.frame)
  reserved off hoff := (h'.reserved off (h.inst_eq ▸ hoff)).trans (h.reserved off hoff)
  xVal j hj := h'.xVal j (h.inst_eq ▸ hj)

theorem accept (h : HoldsVec s f t) (w : Word) : HoldsVec s f (t.accept w) :=
  ⟨congrArg (·.accept w) h.frame, h.reserved, h.xVal⟩

theorem startAt (h : HoldsVec s f t) (r : BitVec 32) : HoldsVec s f (t.startAt r) :=
  ⟨congrArg (·.startAt r) h.frame, h.reserved, h.xVal⟩

theorem setPosition (h : HoldsVec s f t) (r : BitVec 32) (ph : Phase) : HoldsVec s f (t.setPosition r ph) :=
  ⟨congrArg (·.setPosition r ph) h.frame, h.reserved, h.xVal⟩

theorem complete (h : HoldsVec s f t) : HoldsVec s f t.complete :=
  ⟨congrArg State.complete h.frame, h.reserved, h.xVal⟩

/-- The work of a phase, in terms of the state that the operands are those of (R142). -/
theorem phaseWork (h : HoldsVec s f t) :
    HoldsVec s (phaseVec s.permArgs t.round.toNat t.phase f) t.phaseWork := by
  have hwork : HoldsVec t (phaseVec t.permArgs t.round.toNat t.phase t.xVal) t.phaseWork :=
    ⟨phaseWork_withWritten t, sameReservedX_phaseWork t, fun _ hj => xVal_phaseWork t hj⟩
  rw [h.permArgs_eq] at hwork
  exact (h.trans hwork).congr fun _ hj => phaseVec_congr h.xVal _ _ hj

end HoldsVec

/-! ### A command of rounds past its check step (R142, R143) -/

/-- The engine is inside the rounds of command `i` and the host is silent. -/
structure State.PastCheck (s : State) (i : Instr) : Prop where
  silent : s.inputs = []
  busy : s.busy = true
  checked : s.checked = true
  opl : decode s.opl = .ok i
  rounds : HasRounds i

theorem executing_of_hasRounds {i : Instr} (h : HasRounds i) : executing i = true := by
  obtain ⟨r, rfl⟩ | rfl := h <;> rfl

theorem State.PastCheck.step {s : State} {i : Instr} (h : s.PastCheck i) :
    Machine.step s = .next (s.phaseStep (s.endsWithRound i)) := by
  obtain ⟨hstep, _⟩ := stepRunsTheCommandInOpl s i h.busy h.opl (executing_of_hasRounds h.rounds)
  exact (hstep h.silent).trans (exec_of_checked h.rounds h.checked)

/-- `t` is `s` moved to the position `(r, ph)`, with the vector `f` in `x`. -/
structure MovedTo (s : State) (r : BitVec 32) (ph : Phase) (f : Nat → Nat) (t : State) : Prop where
  holds : HoldsVec s f t
  frame : t = { s with x := t.x, round := r, phase := ph }

namespace MovedTo

variable {s t u : State} {r r' : BitVec 32} {ph ph' : Phase} {f g : Nat → Nat} {i : Instr}

theorem refl (s : State) : MovedTo s s.round s.phase s.xVal s := ⟨.refl s, rfl⟩

theorem trans (h : MovedTo s r ph f t) (h' : MovedTo t r' ph' g u) : MovedTo s r' ph' g u where
  holds := h.holds.trans h'.holds
  frame := h'.frame.trans (congrArg (fun v => { v with x := u.x, round := r', phase := ph' }) h.frame)

theorem congr (h : MovedTo s r ph f t) (hfg : ∀ j < s.inst.m, f j = g j) : MovedTo s r ph g t :=
  ⟨h.holds.congr hfg, h.frame⟩

theorem round_eq (h : MovedTo s r ph f t) : t.round = r := (congrArg State.round h.frame :)

theorem phase_eq (h : MovedTo s r ph f t) : t.phase = ph := (congrArg State.phase h.frame :)

theorem busy_eq (h : MovedTo s r ph f t) : t.busy = s.busy := (congrArg State.busy h.frame :)

theorem pastCheck (h : MovedTo s r ph f t) (hs : s.PastCheck i) : t.PastCheck i where
  silent := h.holds.inputs_eq.trans hs.silent
  busy := h.busy_eq.trans hs.busy
  checked := (congrArg State.checked h.frame :).trans hs.checked
  opl := (congrArg (decode ·.opl) h.frame :).trans hs.opl
  rounds := hs.rounds

theorem endsWithRound_eq (h : MovedTo s s.round ph f t) (i : Instr) : t.endsWithRound i = s.endsWithRound i :=
  (congrArg (·.endsWithRound i) h.frame :).trans (by cases i <;> rfl)

theorem setPosition (h : MovedTo s r ph f t) (r' : BitVec 32) (ph' : Phase) :
    MovedTo s r' ph' f (t.setPosition r' ph') :=
  ⟨h.holds.setPosition r' ph', congrArg (·.setPosition r' ph') h.frame⟩

theorem phaseWork (h : MovedTo s r ph f t) :
    MovedTo s r ph (phaseVec s.permArgs r.toNat ph f) t.phaseWork := by
  have hholds := h.holds.phaseWork
  rw [h.round_eq, h.phase_eq] at hholds
  exact ⟨hholds, (phaseWork_changes_x t).trans (congrArg (fun v => { v with x := t.phaseWork.x }) h.frame)⟩

/-- A phase step before phase 5 goes on to the next phase (R143). -/
theorem phaseStep (h : MovedTo s r ph f t) (hph : ph ≠ .injB) (last : Bool) :
    MovedTo s r ph.next (phaseVec s.permArgs r.toNat ph f) (t.phaseStep last) := by
  have hwork := h.phaseWork
  rw [State.phaseStep]
  obtain ⟨hinjB, _⟩ | ⟨hinjB, _⟩ | ⟨_, heq⟩ := advance_cases t.phaseWork last
  · exact absurd (hwork.phase_eq.symm.trans hinjB) hph
  · exact absurd (hwork.phase_eq.symm.trans hinjB) hph
  · rw [heq, hwork.round_eq, hwork.phase_eq]
    exact hwork.setPosition r ph.next

/-- The step of phase 5 goes on to the next round, and completes the command if this was its last (R143). -/
theorem phaseStep_injB (h : MovedTo s r .injB f t) (last : Bool) :
    ∃ u, MovedTo s (r + 1) .sboxF (phaseVec s.permArgs r.toNat .injB f) u ∧
      t.phaseStep last = if last then u.complete else u := by
  have hwork := h.phaseWork
  refine ⟨_, hwork.setPosition (r + 1) .sboxF, ?_⟩
  rw [State.phaseStep]
  obtain ⟨_, rfl, heq⟩ | ⟨_, rfl, heq⟩ | ⟨hne, _⟩ := advance_cases t.phaseWork last
  · rw [heq, hwork.round_eq, if_pos rfl]
  · rw [heq, hwork.round_eq, if_neg Bool.false_ne_true]
  · exact absurd hwork.phase_eq hne

end MovedTo

/-! ### Runs of many steps -/

theorem stepN_add_of_next {n : Nat} {s t : State} (h : stepN n s = .next t) (k : Nat) :
    stepN (n + k) s = stepN k t := by
  induction n generalizing s with
  | zero =>
    obtain rfl := Host.Outcome.next.inj h
    rw [Nat.zero_add]
  | succ n ih =>
    rw [stepN] at h
    split at h
    case h_1 u hu =>
      rw [Nat.succ_add, stepN_succ_of_next hu]
      exact ih h
    all_goals exact absurd h nofun

/-- The engine is busy after every number of steps below `n`. -/
def BusyFor (n : Nat) (s : State) : Prop := ∀ k < n, ∃ t, stepN k s = .next t ∧ t.busy = true

namespace BusyFor

variable {n m : Nat} {s t : State}

theorem zero (s : State) : BusyFor 0 s := nofun

theorem one (h : s.busy = true) : BusyFor 1 s := fun k hk => by
  obtain rfl : k = 0 := by omega
  exact ⟨s, rfl, h⟩

theorem add (h : BusyFor n s) (hrun : stepN n s = .next t) (h' : BusyFor m t) : BusyFor (n + m) s := by
  intro k hk
  rcases Nat.lt_or_ge k n with hlt | hge
  · exact h k hlt
  · obtain ⟨j, rfl⟩ := Nat.exists_eq_add_of_le hge
    rw [stepN_add_of_next hrun]
    exact h' j (by omega)

end BusyFor

/-! ### One round (R140, R142, R143) -/

theorem phases_run {s : State} {i : Instr} (hs : s.PastCheck i) (hph : s.phase = .sboxF) {n : Nat} (hn : n ≤ 5) :
    BusyFor n s ∧ ∃ t, stepN n s = .next t ∧
      MovedTo s s.round (phaseAt n) (phasesVec s.permArgs s.round.toNat s.xVal n) t := by
  have hstart : MovedTo s s.round .sboxF s.xVal s := hph ▸ .refl s
  induction n with
  | zero => exact ⟨.zero s, s, rfl, hstart⟩
  | succ n ih =>
    obtain ⟨hbusy, t, hrun, hmoved⟩ := ih (by omega)
    have ht : t.PastCheck i := hmoved.pastCheck hs
    refine ⟨hbusy.add hrun (.one ht.busy), _, (stepN_add_of_next hrun 1).trans (stepN_succ_of_next ht.step), ?_⟩
    rw [phaseAt_succ]
    exact hmoved.phaseStep (phaseAt_ne_injB (by omega)) _

/-- Six steps from phase 0 are one round: the next position, with `Round_i` of the vector in `x`; the command
completes there if the round was its last. -/
theorem round_run {s : State} {i : Instr} (hs : s.PastCheck i) (hph : s.phase = .sboxF) :
    BusyFor 6 s ∧ ∃ t, MovedTo s (s.round + 1) .sboxF (roundVec s.permArgs s.round.toNat s.xVal) t ∧
      stepN 6 s = .next (if s.endsWithRound i then t.complete else t) := by
  obtain ⟨hbusy, t, hrun, hmoved⟩ := phases_run hs hph le_rfl
  have ht : t.PastCheck i := hmoved.pastCheck hs
  obtain ⟨u, hu, hlast⟩ := hmoved.phaseStep_injB (t.endsWithRound i)
  have hstep : stepN 6 s = .next (t.phaseStep (t.endsWithRound i)) :=
    (stepN_add_of_next hrun 1).trans (stepN_succ_of_next ht.step)
  rw [hlast, hmoved.endsWithRound_eq] at hstep
  rw [← phasesVec_six]
  exact ⟨hbusy.add hrun (.one ht.busy), u, hu, hstep⟩

/-! ### The rounds of a permutation (R143, R149) -/

theorem ofNat32_succ (k : Nat) : BitVec.ofNat 32 k + 1 = BitVec.ofNat 32 (k + 1) := (BitVec.ofNat_add k 1).symm

/-- `PERMUTE` after `k` rounds goes through round `k`, and completes there if `k + 1 = NROUNDS`. -/
theorem round_run_permute {s t : State} {k : Nat} (hs : s.PastCheck .permute) (hk : k < s.nrounds.toNat)
    (ht : MovedTo s (BitVec.ofNat 32 k) .sboxF (permVec s.permArgs k s.xVal) t) :
    BusyFor 6 t ∧ ∃ u, MovedTo s (BitVec.ofNat 32 (k + 1)) .sboxF (permVec s.permArgs (k + 1) s.xVal) u ∧
      stepN 6 t = .next (if k + 1 = s.nrounds.toNat then u.complete else u) := by
  have hround : t.round.toNat = k := by
    rw [ht.round_eq, BitVec.toNat_ofNat, Nat.mod_eq_of_lt (by omega)]
  have hlast : t.endsWithRound .permute = decide (k + 1 = s.nrounds.toNat) := by
    rw [State.endsWithRound, State.atLastRound, hround, ht.holds.nrounds_eq, beq_eq_decide]
  obtain ⟨hbusy, u, hu, hrun⟩ := round_run (ht.pastCheck hs) ht.phase_eq
  rw [ht.holds.permArgs_eq, hround, ht.round_eq, ofNat32_succ] at hu
  simp only [hlast, decide_eq_true_eq] at hrun
  exact ⟨hbusy, u, (ht.trans hu).congr fun j hj => roundVec_congr ht.holds.xVal k hj, hrun⟩

/-- `6 * k` steps of `PERMUTE` are its first `k` rounds, and no fewer complete it. -/
theorem rounds_run {s : State} (hs : s.PastCheck .permute) (hround : s.round = 0) (hph : s.phase = .sboxF)
    (hN : s.nrounds.toNat ≠ 0) {k : Nat} (hk : k ≤ s.nrounds.toNat) :
    BusyFor (6 * k) s ∧ ∃ t, MovedTo s (BitVec.ofNat 32 k) .sboxF (permVec s.permArgs k s.xVal) t ∧
      stepN (6 * k) s = .next (if k = s.nrounds.toNat then t.complete else t) := by
  have hstart : MovedTo s 0 .sboxF s.xVal s := hround ▸ hph ▸ .refl s
  induction k with
  | zero => exact ⟨.zero s, s, hstart, by rw [if_neg hN.symm]; rfl⟩
  | succ k ih =>
    obtain ⟨hbusy, t, ht, hrun⟩ := ih (by omega)
    rw [if_neg (by omega)] at hrun
    obtain ⟨hbusy', u, hu, hrun'⟩ := round_run_permute hs (by omega) ht
    exact ⟨hbusy.add hrun hbusy', u, hu, (stepN_add_of_next hrun 6).trans hrun'⟩

/-! ### Accepted commands, from their first step on (R96, R45) -/

/-- The first step of an accepted command is its `exec`. -/
theorem acceptAndRun_one {s t : State} {i : Instr} (hsilent : s.inputs = []) (hwf : i.wellFormed = true)
    (hexec : executing i = true) (ht : exec i (s.accept (encode i)) = .next t) :
    acceptAndRun i 1 s = .next t := by
  obtain ⟨hstep, _⟩ := stepRunsTheCommandInOpl (s.accept (encode i)) i rfl (decodeOfEncode i hwf) hexec
  exact stepN_succ_of_next ((hstep hsilent).trans ht)

/-- The state of an accepted command whose check step has set the position `(r, 0)` (R141, R147). -/
def State.started (s : State) (i : Instr) (r : BitVec 32) : State := (s.accept (encode i)).startAt r

theorem pastCheck_started {s : State} {i : Instr} (hsilent : s.inputs = []) (hwf : i.wellFormed = true)
    (hi : HasRounds i) (r : BitVec 32) : (s.started i r).PastCheck i :=
  ⟨hsilent, rfl, rfl, decodeOfEncode i hwf, hi⟩

/-- A round index with its chunks below `RCLEN` fits the immediate (R141). -/
theorem roundReady_lt {s : State} {i : Nat} (h : s.roundReady i) : i < 2 ^ 32 := by
  obtain ⟨_, hindex, _⟩ := h
  have hm : 0 < 2 * s.inst.m := by have := inst_m_pos s.inst; omega
  have hle : i + 1 ≤ 2 * s.inst.m * (i + 1) := Nat.le_mul_of_pos_left _ hm
  omega

/-- What a command of rounds leaves: the vector `f` in `x`, the position `(r, 0)`, `DONE`, its word in `OPL`. -/
structure RoundsDone (s : State) (i : Instr) (r : BitVec 32) (f : Nat → Nat) (t : State) : Prop where
  holds : HoldsVec s f t
  frame : t = { s with x := t.x, opl := encode i, round := r, phase := .sboxF, done := true, busy := false,
                       checked := false }

theorem roundsDone_complete {s t : State} {i : Instr} {r₀ r : BitVec 32} {f : Nat → Nat}
    (h : MovedTo (s.started i r₀) r .sboxF f t) : RoundsDone s i r f t.complete where
  holds := ((((HoldsVec.refl s).accept (encode i)).startAt r₀).trans h.holds).complete
  frame := congrArg State.complete h.frame

theorem acceptAndRun_round {s : State} {i : Nat} (hsilent : s.inputs = []) (hready : s.roundReady i) :
    BusyFor 7 (s.accept (encode (.round i))) ∧ ∃ t, acceptAndRun (.round i) 7 s = .next t ∧
      RoundsDone s (.round i) (BitVec.ofNat 32 (i + 1)) (roundVec s.permArgs i s.xVal) t := by
  have hi : i < 2 ^ 32 := roundReady_lt hready
  have hwf : (Instr.round i).wellFormed = true := decide_eq_true hi
  have hindex : (BitVec.ofNat 32 i).toNat = i := by rw [BitVec.toNat_ofNat, Nat.mod_eq_of_lt hi]
  have hcheck : acceptAndRun (.round i) 1 s = .next (s.started (.round i) (BitVec.ofNat 32 i)) :=
    acceptAndRun_one hsilent hwf rfl (exec_round_of_ready rfl hready)
  obtain ⟨hbusy, t, ht, hrun⟩ := round_run (pastCheck_started hsilent hwf (.inl ⟨i, rfl⟩) _) rfl
  rw [State.started, State.startAt_round, hindex, ofNat32_succ] at ht
  exact ⟨BusyFor.add (.one rfl) hcheck hbusy, _, (stepN_add_of_next hcheck 6).trans hrun, roundsDone_complete ht⟩

theorem acceptAndRun_permute {s : State} (hsilent : s.inputs = []) (hready : s.permuteReady) :
    BusyFor (1 + 6 * s.nrounds.toNat) (s.accept (encode .permute)) ∧
      ∃ t, acceptAndRun .permute (1 + 6 * s.nrounds.toNat) s = .next t ∧
        RoundsDone s .permute s.nrounds (permVec s.permArgs s.nrounds.toNat s.xVal) t := by
  have hcheck : acceptAndRun .permute 1 s = .next (s.started .permute 0) :=
    acceptAndRun_one hsilent rfl rfl (exec_permute_of_ready rfl hready)
  obtain ⟨hN, _⟩ := hready
  obtain ⟨hbusy, t, ht, hrun⟩ :=
    rounds_run (s := s.started .permute 0) (pastCheck_started hsilent rfl (.inr rfl) 0) rfl rfl hN le_rfl
  rw [if_pos rfl] at hrun
  rw [BitVec.ofNat_toNat, BitVec.setWidth_eq] at ht
  exact ⟨BusyFor.add (.one rfl) hcheck hbusy, _, (stepN_add_of_next hcheck _).trans hrun, roundsDone_complete ht⟩

/-- Settles O40: the check step, then `round_run` from the position `(i, 0)`. -/
theorem roundRunsInSevenSteps : Obligations.RoundRunsInSevenSteps := by
  intro s i hsilent hready
  obtain ⟨hbusy, t, hrun, hdone⟩ := acceptAndRun_round hsilent hready
  exact ⟨hbusy, t, hrun, hdone.holds.reserved, hdone.holds.xVal, hdone.frame⟩

/-- Settles O41: the check step, then `rounds_run` from the position `(0, 0)`. -/
theorem permuteComputesThePermutation : Obligations.PermuteComputesThePermutation := by
  intro s hsilent hready
  obtain ⟨hbusy, t, hrun, hdone⟩ := acceptAndRun_permute hsilent hready
  exact ⟨hbusy, t, hrun, hdone.holds.reserved, hdone.holds.xVal, hdone.frame⟩

end Sys2Proof.Machine
end

