-- ==== Sys2Proof/Proofs/RoundEquivalence.lean ====
section
/-! PROOFS. `ROUND` as its six micro-operations and `PERMUTE` as its rounds (spec/43_round_permute.md R144, R148):
each command of the sequence finds its tests passing in the state that the one before left. -/

namespace Sys2Proof.Machine

/-! ### Passing tests along a sequence of commands -/

/-- A vector of field elements keeps the tests of `ROUND i` passing. -/
theorem HoldsVec.roundReady {s t : State} {f : Nat → Nat} {i : Nat} (h : HoldsVec s f t)
    (hf : ∀ j < s.inst.m, f j < s.inst.P) (hready : s.roundReady i) : t.roundReady i := by
  obtain ⟨hfits, hindex, hpair, _, hmds, hrc⟩ := hready
  have hx : (s.withWritten t).xReduced := fun j hj => by
    have hval : (s.withWritten t).xVal j = f j := by
      rw [← h.frame]
      exact h.xVal j hj
    exact hval.trans_lt (hf j hj)
  have hready' : (s.withWritten t).roundReady i := ⟨hfits, hindex, hpair, hx, hmds, hrc⟩
  rwa [← h.frame] at hready'

/-- A permutation that passes its tests has only rounds that pass theirs (R141, R147). -/
theorem permuteReady_roundReady {s : State} (h : s.permuteReady) {i : Nat} (hi : i < s.nrounds.toNat) :
    s.roundReady i := by
  obtain ⟨_, hdepth, hrclen, hpair, hx, hmds, hrc⟩ := h
  have hle : 2 * s.inst.m * (i + 1) ≤ 2 * s.inst.m * s.nrounds.toNat := Nat.mul_le_mul_left _ hi
  have hchunk : 2 * i * s.inst.m + 2 * s.inst.m = 2 * s.inst.m * (i + 1) := by ring
  refine ⟨hrclen.trans_le hdepth, hrclen ▸ hle, hpair, hx, hmds, fun a ha => ?_⟩
  have hconstant := hrc (2 * i * s.inst.m + a) (by omega)
  rwa [Nat.zero_add] at hconstant

/-! ### The six micro-operations (R144) -/

/-- The command that does the work of a phase of round `i` alone. -/
def microOp (m i : Nat) : Phase → Instr
  | .sboxF => .sboxF
  | .mdsA => .mdsmul
  | .injA => .addrc (2 * i * m)
  | .sboxI => .sboxI
  | .mdsB => .mdsmul
  | .injB => .addrc (2 * i * m + m)

theorem executing_microOp (m i : Nat) (ph : Phase) : executing (microOp m i ph) = true := by
  cases ph <;> rfl

/-- Both chunks of a round lie below `RCLEN` (R132, R227). -/
theorem roundReady_chunk_le {s : State} {i : Nat} (h : s.roundReady i) :
    2 * i * s.inst.m + s.inst.m + s.inst.m ≤ s.rclen.toNat := by
  obtain ⟨_, hindex, _⟩ := h
  calc 2 * i * s.inst.m + s.inst.m + s.inst.m = 2 * s.inst.m * (i + 1) := by ring
    _ ≤ s.rclen.toNat := hindex

theorem microOp_wellFormed {s : State} {i : Nat} (h : s.roundReady i) (ph : Phase) :
    (microOp s.inst.m i ph).wellFormed = true := by
  have hle := roundReady_chunk_le h
  cases ph with
  | sboxF | mdsA | sboxI | mdsB => rfl
  | injA | injB => exact decide_eq_true (by omega)

/-- A micro-operation does the work of its phase and ends without error. -/
theorem exec_microOp {s : State} {i : Nat} (h : s.roundReady i) (ph : Phase) :
    ∃ t, exec (microOp s.inst.m i ph) s = .next t ∧ doneChangingX s t ∧
      ∀ j < s.inst.m, t.xVal j = phaseVec s.permArgs i ph s.xVal j := by
  have hle := roundReady_chunk_le h
  obtain ⟨hfits, _, hpair, hx, hmds, hrc⟩ := h
  have hsecond : s.rcReduced (2 * i * s.inst.m + s.inst.m) s.inst.m := fun a ha => by
    rw [Nat.add_assoc]
    exact hrc (s.inst.m + a) (by omega)
  cases ph with
  | sboxF => exact ⟨_, rfl, sboxCommand_powers hpair hx false⟩
  | sboxI => exact ⟨_, rfl, sboxCommand_powers hpair hx true⟩
  | mdsA | mdsB => exact mdsmulMultiplies s hx hmds
  | injA => exact addrcAddsTheChunk s _ hfits (by omega) hx fun a ha => hrc a (by omega)
  | injB => exact addrcAddsTheChunk s _ hfits hle hx hsecond

theorem holdsVec_of_doneChangingX {s t : State} {f : Nat → Nat} (h : doneChangingX s t)
    (hx : ∀ j < s.inst.m, t.xVal j = f j) : HoldsVec s f t := by
  obtain ⟨hframe, hreserved⟩ := h
  refine ⟨?frame, hreserved, hx⟩
  case frame =>
    generalize t.x = x at hframe
    rw [hframe]
    rfl

/-- `t` is `s` after some micro-operations of a round: their vector `f` in `x`, the position left alone. -/
structure AfterMicroOps (s : State) (f : Nat → Nat) (t : State) : Prop where
  holds : HoldsVec s f t
  reduced : ∀ j < s.inst.m, f j < s.inst.P
  round : t.round = s.round
  phase : t.phase = s.phase

/-- The next micro-operation, accepted and run to its end. -/
theorem AfterMicroOps.run {s t : State} {f : Nat → Nat} {i : Nat} (h : AfterMicroOps s f t)
    (hsilent : s.inputs = []) (hready : s.roundReady i) (ph : Phase) :
    ∃ u, acceptAndRun (microOp s.inst.m i ph) 1 t = .next u ∧
      AfterMicroOps s (phaseVec s.permArgs i ph f) u ∧ u.done = true := by
  have haccepted := h.holds.accept (encode (microOp s.inst.m i ph))
  obtain ⟨u, hexec, hdone, hx⟩ := exec_microOp (haccepted.roundReady h.reduced hready) ph
  rw [haccepted.inst_eq] at hexec
  rw [haccepted.permArgs_eq] at hx
  have hu := (haccepted.trans (holdsVec_of_doneChangingX hdone hx)).congr fun j hj =>
    phaseVec_congr haccepted.xVal i ph hj
  obtain ⟨hframe, _⟩ := hdone
  exact ⟨u, acceptAndRun_one (h.holds.inputs_eq.trans hsilent) (microOp_wellFormed hready ph)
      (executing_microOp _ i ph) hexec,
    ⟨hu, fun j _ => phaseVec_lt (inst_pos s.inst) i ph f j,
      (congrArg State.round hframe :).trans h.round, (congrArg State.phase hframe :).trans h.phase⟩,
    (congrArg State.done hframe :)⟩

/-- Settles O42: the six micro-operations are the six phases, and a round of vectors is those (R149). -/
theorem roundEqualsItsMicroOperations : Obligations.RoundEqualsItsMicroOperations := by
  intro s i hsilent hready
  obtain ⟨_, t, hround, ht⟩ := acceptAndRun_round hsilent hready
  obtain ⟨_, _, _, hx, _⟩ := id hready
  have hstart : AfterMicroOps s s.xVal s := ⟨.refl s, hx, rfl, rfl⟩
  obtain ⟨a, hrunA, ha, _⟩ := hstart.run hsilent hready .sboxF
  obtain ⟨b, hrunB, hb, _⟩ := ha.run hsilent hready .mdsA
  obtain ⟨c, hrunC, hc, _⟩ := hb.run hsilent hready .injA
  obtain ⟨d, hrunD, hd, _⟩ := hc.run hsilent hready .sboxI
  obtain ⟨e, hrunE, he, _⟩ := hd.run hsilent hready .mdsB
  obtain ⟨f, hrunF, hf, hdone⟩ := he.run hsilent hready .injB
  exact ⟨t, a, b, c, d, e, f, hround, hrunA, hrunB, hrunC, hrunD, hrunE, hrunF,
    fun j hj => (hf.holds.xVal j hj).trans (ht.holds.xVal j hj).symm, hdone, hf.holds.err_eq, hf.round, hf.phase⟩

/-! ### The rounds (R148) -/

/-- `ROUND n` after the first `n` rounds is `Round_n` on top of them. -/
theorem acceptAndRun_round_after {s t : State} {n : Nat} (hsilent : s.inputs = []) (hready : s.permuteReady)
    (hn : n < s.nrounds.toNat) (ht : HoldsVec s (permVec s.permArgs n s.xVal) t) :
    ∃ u, acceptAndRun (.round n) 7 t = .next u ∧ HoldsVec s (permVec s.permArgs (n + 1) s.xVal) u ∧
      u.round = BitVec.ofNat 32 (n + 1) ∧ u.phase = .sboxF ∧ u.done = true := by
  obtain ⟨_, _, _, _, hx, _⟩ := id hready
  have htready : t.roundReady n :=
    ht.roundReady (permVec_lt (A := s.permArgs) (inst_pos s.inst) hx n) (permuteReady_roundReady hready hn)
  obtain ⟨_, u, hrun, hu⟩ := acceptAndRun_round (ht.inputs_eq.trans hsilent) htready
  have hvec := hu.holds
  rw [ht.permArgs_eq] at hvec
  exact ⟨u, hrun, (ht.trans hvec).congr fun j hj => roundVec_congr ht.xVal n hj,
    (congrArg State.round hu.frame :), (congrArg State.phase hu.frame :), (congrArg State.done hu.frame :)⟩

theorem runRounds_succ_of_next {n : Nat} {s t : State} (h : runRounds n s = .next t) :
    runRounds (n + 1) s = acceptAndRun (.round n) 7 t := by
  rw [runRounds, h]

theorem runRounds_holdsVec {s : State} (hsilent : s.inputs = []) (hready : s.permuteReady) {n : Nat}
    (hn : n ≤ s.nrounds.toNat) :
    ∃ t, runRounds n s = .next t ∧ HoldsVec s (permVec s.permArgs n s.xVal) t := by
  induction n with
  | zero => exact ⟨s, rfl, .refl s⟩
  | succ n ih =>
    obtain ⟨t, hrun, ht⟩ := ih (by omega)
    obtain ⟨u, hround, hu, _⟩ := acceptAndRun_round_after hsilent hready (by omega) ht
    exact ⟨u, (runRounds_succ_of_next hrun).trans hround, hu⟩

/-- Settles O43: `PERMUTE` and its rounds leave `Perm(x)`, and the last round leaves the position and the status. -/
theorem permuteEqualsItsRounds : Obligations.PermuteEqualsItsRounds := by
  intro s hsilent hready
  obtain ⟨_, t, hpermute, ht⟩ := acceptAndRun_permute hsilent hready
  obtain ⟨hN, _⟩ := id hready
  obtain ⟨n, hn⟩ := Nat.exists_eq_succ_of_ne_zero hN
  obtain ⟨v, hrounds, hv⟩ := runRounds_holdsVec hsilent hready (n := n) (by omega)
  obtain ⟨u, hlast, hu, hround, hphase, hdone⟩ := acceptAndRun_round_after hsilent hready (by omega) hv
  rw [← Nat.succ_eq_add_one, ← hn] at hu hround
  refine ⟨t, u, hpermute, ?rounds, fun j hj => (hu.xVal j hj).trans (ht.holds.xVal j hj).symm, ?round,
    hphase.trans (congrArg State.phase ht.frame :).symm, hdone, hu.err_eq⟩
  case rounds =>
    rw [hn]
    exact (runRounds_succ_of_next hrounds).trans hlast
  case round =>
    rw [hround, BitVec.ofNat_toNat, BitVec.setWidth_eq]
    exact (congrArg State.round ht.frame :).symm

end Sys2Proof.Machine
end

