-- ==== Sys2Proof/Proofs/MdsGen.lean ====
section
/-! PROOFS. The matrix generator (spec/44_mdsgen.md): which points the scan passes, what every iteration of the
elimination keeps of the matrix of powers, why no pivot is zero on distinct points, and what `MDSGEN` writes. -/

namespace Sys2Proof.Machine

open Sys2Proof.Config

/-! ### The point scan (R163) -/

/-- The points of the indices `1` to `2m - 1` neither vanish nor repeat. -/
def GoodPoints (I : Instance) : Prop := ∀ b, 1 ≤ b → b < 2 * I.m → ¬ repeatsOrVanishes I.P I.G b

theorem badPoint_iff {P G b : Nat} : badPoint P G b = true ↔ repeatsOrVanishes P G b := by
  simp [badPoint, point, fpow_eq_pow_mod]

theorem badPoint_eq_false_iff {P G b : Nat} : badPoint P G b = false ↔ ¬ repeatsOrVanishes P G b := by
  rw [← badPoint_iff, Bool.not_eq_true]

theorem checkPoints_eq_none_iff (I : Instance) : checkPoints I.P I.G I.m = none ↔ GoodPoints I := by
  have hm := inst_m_pos I
  have hend : 1 + (2 * I.m - 1) = 2 * I.m := by omega
  simp only [checkPoints, firstBadPoint_eq_none_iff, hend, badPoint_eq_false_iff, GoodPoints]

/-- A bad point with only good ones before it is the one the scan reports. -/
theorem checkPoints_eq_some {P G m b : Nat} (hlow : 1 ≤ b) (hhigh : b < 2 * m)
    (hbad : repeatsOrVanishes P G b) (hfirst : ∀ c, 1 ≤ c → c < b → ¬ repeatsOrVanishes P G c) :
    checkPoints P G m = some b := by
  cases hscan : checkPoints P G m with
  | none =>
    have hgood := firstBadPoint_eq_none_iff.mp hscan b hlow (by omega)
    exact absurd hbad (badPoint_eq_false_iff.mp hgood)
  | some d =>
    obtain ⟨hd, _, hdbad, hdfirst⟩ := firstBadPoint_eq_some hscan
    have hdb : ¬ d < b := fun h => hfirst d hd h (badPoint_iff.mp hdbad)
    have hbd : ¬ b < d := fun h => badPoint_eq_false_iff.mp (hdfirst b hlow h) hbad
    exact congrArg some (by omega)

/-- Among good points no two are equal, so `G` separates the columns of the matrix of powers. -/
theorem GoodPoints.cast_pow_ne {I : Instance} (h : GoodPoints I) {j k : Nat} (hjk : j < k)
    (hk : k < 2 * I.m) : (I.G : ZMod I.P) ^ j ≠ (I.G : ZMod I.P) ^ k := by
  intro heq
  refine h k (by omega) hk (.inr ⟨j, hjk, ?_⟩)
  rw [← Nat.cast_pow, ← Nat.cast_pow] at heq
  exact (ZMod.natCast_eq_natCast_iff' _ _ _).mp heq

/-! ### Why distinct points make nonzero pivots (R166) -/

/-- If at one point the powers below `N` combine, with fixed coefficients, from those at other points, then so
do the values of every polynomial of degree below `N`. -/
theorem eval_combines_of_powers_combine {F : Type*} [Field F] {n N : Nat} {x : Nat → F} {y : F} {a : Nat → F}
    (h : ∀ r < N, y ^ r = ∑ j ∈ Finset.range n, a j * x j ^ r) {p : Polynomial F} (hp : p.natDegree < N) :
    p.eval y = ∑ j ∈ Finset.range n, a j * p.eval (x j) :=
  calc p.eval y = ∑ r ∈ Finset.range N, p.coeff r * y ^ r := Polynomial.eval_eq_sum_range' hp y
    _ = ∑ r ∈ Finset.range N, ∑ j ∈ Finset.range n, a j * (p.coeff r * x j ^ r) :=
        Finset.sum_congr rfl fun r hr => by
          rw [h r (Finset.mem_range.mp hr), Finset.mul_sum]
          exact Finset.sum_congr rfl fun j _ => mul_left_comm _ _ _
    _ = ∑ j ∈ Finset.range n, ∑ r ∈ Finset.range N, a j * (p.coeff r * x j ^ r) := Finset.sum_comm
    _ = ∑ j ∈ Finset.range n, a j * p.eval (x j) :=
        Finset.sum_congr rfl fun j _ => by rw [Polynomial.eval_eq_sum_range' hp (x j), Finset.mul_sum]

/-- If at one point the powers below `n + 1` combine from those at `n` other points, then it is one of the
others: the nodal polynomial, whose roots the others are, vanishes there. -/
theorem point_repeats_of_powers_combine {F : Type*} [Field F] {n : Nat} {x : Nat → F} {y : F} {a : Nat → F}
    (h : ∀ r < n + 1, y ^ r = ∑ j ∈ Finset.range n, a j * x j ^ r) : ∃ j < n, x j = y := by
  have hdeg : (Lagrange.nodal (Finset.range n) x).natDegree < n + 1 := by
    rw [Lagrange.natDegree_nodal, Finset.card_range]
    exact n.lt_succ_self
  have hvanishes : (Lagrange.nodal (Finset.range n) x).eval y = 0 := by
    rw [eval_combines_of_powers_combine h hdeg]
    exact Finset.sum_eq_zero fun j hj => by rw [Lagrange.eval_nodal_at_node hj, mul_zero]
  rw [Lagrange.eval_nodal, Finset.prod_eq_zero_iff] at hvanishes
  obtain ⟨j, hj, hzero⟩ := hvanishes
  exact ⟨j, Finset.mem_range.mp hj, (sub_eq_zero.mp hzero).symm⟩

/-! ### The operations over the field (R12 to R16) -/

theorem cast_fmul (P a b : Nat) : (fmul P a b : ZMod P) = a * b := by
  rw [fmul, ZMod.natCast_mod, Nat.cast_mul]

theorem cast_fsub {P b : Nat} (a : Nat) (hb : b < P) : (fsub P a b : ZMod P) = a - b := by
  rw [fsub, ZMod.natCast_mod, Nat.cast_sub (by omega), Nat.cast_add, ZMod.natCast_self, add_zero]

theorem cast_mul_finv {P a : Nat} (hP : P.Prime) (hne : a ≠ 0) (ha : a < P) :
    (a : ZMod P) * (finv P a : ZMod P) = 1 := by
  rw [← cast_fmul, fmul_finv hP (Nat.pos_of_ne_zero hne) ha, Nat.cast_one]

/-! ### One iteration of the elimination over the field (R165) -/

theorem cast_entry_fillV {P G m r j : Nat} (hr : r < m) (hj : j < 2 * m) :
    (entry (fillV P G m) r j : ZMod P) = ((G : ZMod P) ^ j) ^ r := by
  rw [entry_fillV hr hj, fpow_eq_pow_mod, ZMod.natCast_mod, Nat.cast_pow, mul_comm, pow_mul]

theorem entry_lt {I : Instance} {V : Matrix} (h : IsScratch I V) (r j : Nat) : entry V r j < I.P := by
  obtain ⟨_, hrows⟩ := h
  have hpos := inst_pos I
  rw [entry, List.getD_eq_getElem?_getD, List.getD_eq_getElem?_getD]
  cases hrow : V[r]? with
  | none => simpa using hpos
  | some row =>
    obtain ⟨_, hentries⟩ := hrows row (List.mem_of_getElem? hrow)
    cases hcell : row[j]? with
    | none => simpa [hcell] using hpos
    | some v => simpa [hcell] using hentries v (List.mem_of_getElem? hcell)

theorem cast_pivotRow (P k : Nat) (V : Matrix) (j : Nat) :
    (pivotRow P k V j : ZMod P) = entry V k j * (finv P (entry V k k) : ZMod P) := cast_fmul _ _ _

theorem cast_entry_eliminateColumn_self {P m k j : Nat} (V : Matrix) (hk : k < m) (hj : j < 2 * m) :
    (entry (eliminateColumn P m k V) k j : ZMod P) = entry V k j * (finv P (entry V k k) : ZMod P) := by
  rw [entry_eliminateColumn V hk hj, if_pos rfl, cast_pivotRow]

theorem cast_entry_eliminateColumn_ne {P m k r j : Nat} (V : Matrix) (hP : 0 < P) (hr : r < m)
    (hj : j < 2 * m) (hrk : r ≠ k) :
    (entry (eliminateColumn P m k V) r j : ZMod P) =
      entry V r j - entry V r k * (entry V k j * (finv P (entry V k k) : ZMod P)) := by
  rw [entry_eliminateColumn V hr hj, if_neg hrk, cast_fsub _ (fmul_lt hP _ _), cast_fmul, cast_pivotRow]

/-! ### What the elimination keeps: combinations of columns -/

/-- What row `r` has in column `q` beside the combination with coefficients `a` of its first `k` columns. -/
def columnDefect (P k q : Nat) (a : Nat → ZMod P) (V : Matrix) (r : Nat) : ZMod P :=
  entry V r q - ∑ j ∈ Finset.range k, a j * (entry V r j : ZMod P)

/-- On the first `n` rows, column `q` is the combination with coefficients `a` of the first `k` columns. -/
def ColumnCombines (P n k q : Nat) (a : Nat → ZMod P) (V : Matrix) : Prop :=
  ∀ r < n, columnDefect P k q a V r = 0

theorem columnDefect_eliminateColumn_self {P m k q c : Nat} (a : Nat → ZMod P) (V : Matrix) (hc : c < m)
    (hk : k ≤ 2 * m) (hq : q < 2 * m) :
    columnDefect P k q a (eliminateColumn P m c V) c =
      columnDefect P k q a V c * (finv P (entry V c c) : ZMod P) := by
  rw [columnDefect, columnDefect, cast_entry_eliminateColumn_self V hc hq, sub_mul, Finset.sum_mul]
  congr 1
  refine Finset.sum_congr rfl fun j hj => ?_
  rw [cast_entry_eliminateColumn_self V hc ((Finset.mem_range.mp hj).trans_le hk), mul_assoc]

theorem columnDefect_eliminateColumn_ne {P m k q c r : Nat} (a : Nat → ZMod P) (V : Matrix) (hP : 0 < P)
    (hr : r < m) (hk : k ≤ 2 * m) (hq : q < 2 * m) (hrc : r ≠ c) :
    columnDefect P k q a (eliminateColumn P m c V) r = columnDefect P k q a V r -
      entry V r c * (columnDefect P k q a V c * (finv P (entry V c c) : ZMod P)) := by
  have hsum : ∑ j ∈ Finset.range k, a j * (entry (eliminateColumn P m c V) r j : ZMod P) =
      ∑ j ∈ Finset.range k, a j * (entry V r j : ZMod P) - entry V r c *
        ((∑ j ∈ Finset.range k, a j * (entry V c j : ZMod P)) * (finv P (entry V c c) : ZMod P)) := by
    rw [Finset.sum_mul, Finset.mul_sum, ← Finset.sum_sub_distrib]
    refine Finset.sum_congr rfl fun j hj => ?_
    rw [cast_entry_eliminateColumn_ne V hP hr ((Finset.mem_range.mp hj).trans_le hk) hrc]
    ring
  rw [columnDefect, columnDefect, columnDefect, cast_entry_eliminateColumn_ne V hP hr hq hrc, hsum]
  ring

/-- An iteration with a nonzero pivot makes no new combination of columns, on the first `n` rows already if the
pivot row is one of them: the pivot row is scaled by a unit, the others change by multiples of it. -/
theorem ColumnCombines.of_eliminateColumn {I : Instance} {n k q c : Nat} {a : Nat → ZMod I.P} {V : Matrix}
    (hV : IsScratch I V) (hpivot : entry V c c ≠ 0) (hc : c < n) (hn : n ≤ I.m) (hk : k ≤ 2 * I.m)
    (hq : q < 2 * I.m) (h : ColumnCombines I.P n k q a (eliminateColumn I.P I.m c V)) :
    ColumnCombines I.P n k q a V := by
  have hscaled := h c hc
  rw [columnDefect_eliminateColumn_self a V (by omega) hk hq] at hscaled
  have hunit : IsUnit (finv I.P (entry V c c) : ZMod I.P) :=
    .of_mul_eq_one_right _ (cast_mul_finv (inst_prime I) hpivot (entry_lt hV c c))
  intro r hr
  by_cases hrc : r = c
  · rw [hrc]
    exact hunit.mul_left_eq_zero.mp hscaled
  · have hnew := h r hr
    rwa [columnDefect_eliminateColumn_ne a V (inst_pos I) (by omega) hk hq hrc, hscaled, mul_zero,
      sub_zero] at hnew

/-- A combination of columns of the matrix of powers, read as one of the points' powers (R164). -/
theorem ColumnCombines.powers {P G m n k q : Nat} {a : Nat → ZMod P}
    (h : ColumnCombines P n k q a (fillV P G m)) (hn : n ≤ m) (hk : k ≤ 2 * m) (hq : q < 2 * m) {r : Nat}
    (hr : r < n) : ((G : ZMod P) ^ q) ^ r = ∑ j ∈ Finset.range k, a j * ((G : ZMod P) ^ j) ^ r := by
  have hrm : r < m := by omega
  rw [← cast_entry_fillV hrm hq, sub_eq_zero.mp (h r hr)]
  refine Finset.sum_congr rfl fun j hj => ?_
  rw [cast_entry_fillV hrm ((Finset.mem_range.mp hj).trans_le hk)]

/-! ### The state of the elimination before column `k` (R165) -/

/-- `V` is the matrix of powers after `k` iterations: its first `k` columns are those of the identity, and where
a column of it combines from others on the first `n ≥ k` rows, the same column of the matrix of powers does. -/
structure EliminatedTo (I : Instance) (k : Nat) (V : Matrix) : Prop where
  scratch : IsScratch I V
  unit : ∀ r < I.m, ∀ j < k, (entry V r j : ZMod I.P) = if r = j then 1 else 0
  combines : ∀ {n l q : Nat} {a : Nat → ZMod I.P}, k ≤ n → n ≤ I.m → l ≤ 2 * I.m → q < 2 * I.m →
    ColumnCombines I.P n l q a V → ColumnCombines I.P n l q a (fillV I.P I.G I.m)

theorem eliminatedTo_fillV (I : Instance) : EliminatedTo I 0 (fillV I.P I.G I.m) where
  scratch := isScratch_buildMatrix fun _ _ => fpow_lt (inst_pos I) _ _
  unit := nofun
  combines := fun _ _ _ _ h => h

/-- An iteration with a nonzero pivot makes one more column that of the identity. -/
theorem EliminatedTo.step {I : Instance} {k : Nat} {V : Matrix} (h : EliminatedTo I k V) (hk : k < I.m)
    (hpivot : entry V k k ≠ 0) : EliminatedTo I (k + 1) (eliminateColumn I.P I.m k V) where
  scratch := isScratch_eliminateColumn I k V
  unit := by
    have hinv := cast_mul_finv (inst_prime I) hpivot (entry_lt h.scratch k k)
    intro r hr j hj
    have hold : j ≠ k → (entry V k j : ZMod I.P) = 0 := fun hjk => by
      rw [h.unit k hk j (by omega), if_neg (Ne.symm hjk)]
    by_cases hrk : r = k
    · rw [hrk, cast_entry_eliminateColumn_self V hk (by omega)]
      by_cases hjk : j = k
      · rw [hjk, hinv, if_pos rfl]
      · rw [hold hjk, zero_mul, if_neg (Ne.symm hjk)]
    · rw [cast_entry_eliminateColumn_ne V (inst_pos I) hr (by omega) hrk]
      by_cases hjk : j = k
      · rw [hjk, hinv, mul_one, sub_self, if_neg hrk]
      · rw [hold hjk, zero_mul, mul_zero, sub_zero, h.unit r hr j (by omega)]
  combines := fun hkn hn hl hq hnew =>
    h.combines (by omega) hn hl hq (hnew.of_eliminateColumn h.scratch hpivot (by omega) hn hl hq)

/-- Rows on which the first `k` columns are those of the identity spell out every other column. -/
theorem EliminatedTo.columnCombines {I : Instance} {k n q : Nat} {V : Matrix} (h : EliminatedTo I k V)
    (hn : n ≤ I.m) (hlow : ∀ r < n, k ≤ r → (entry V r q : ZMod I.P) = 0) :
    ColumnCombines I.P n k q (fun j => (entry V j q : ZMod I.P)) V := by
  intro r hr
  have hterms : ∀ j ∈ Finset.range k, (entry V j q : ZMod I.P) * (entry V r j : ZMod I.P) =
      if r = j then (entry V j q : ZMod I.P) else 0 := fun j hj => by
    rw [h.unit r (by omega) j (Finset.mem_range.mp hj), mul_ite, mul_one, mul_zero]
  rw [columnDefect, Finset.sum_congr rfl hterms, Finset.sum_ite_eq]
  split
  · exact sub_self _
  · next hrk => rw [hlow r hr (by simpa using hrk), sub_zero]

/-- A zero pivot would make column `k` of the matrix of powers a combination of the columns before it, on
`k + 1` rows, and so its point one of theirs (R166). -/
theorem EliminatedTo.pivot_ne_zero {I : Instance} {k : Nat} {V : Matrix} (h : EliminatedTo I k V)
    (hpoints : GoodPoints I) (hk : k < I.m) : entry V k k ≠ 0 := by
  intro hzero
  have : Fact I.P.Prime := ⟨inst_prime I⟩
  have hlow : ∀ r < k + 1, k ≤ r → (entry V r k : ZMod I.P) = 0 := fun r hr hkr => by
    rw [show r = k by omega, hzero, Nat.cast_zero]
  have hfill := h.combines (by omega) hk (by omega) (by omega) (h.columnCombines hk hlow)
  obtain ⟨j, hj, hrepeats⟩ := point_repeats_of_powers_combine fun _ hr =>
    hfill.powers hk (by omega) (by omega) hr
  exact hpoints.cast_pow_ne hj (by omega) hrepeats

/-- On good points the elimination meets no zero pivot and goes through all columns. -/
theorem EliminatedTo.eliminateFrom {I : Instance} (hpoints : GoodPoints I) {n k : Nat} {V : Matrix}
    (h : EliminatedTo I k V) (hn : k + n = I.m) :
    (eliminateFrom I.P I.m n k V).2 = none ∧ EliminatedTo I I.m (eliminateFrom I.P I.m n k V).1 := by
  induction n generalizing k V with
  | zero => exact ⟨rfl, hn ▸ h⟩
  | succ n ih =>
    obtain ⟨hzero, _⟩ | ⟨hpivot, heq⟩ := eliminateFrom_succ I.P I.m n k V
    · exact absurd hzero (h.pivot_ne_zero hpoints (by omega))
    · rw [heq]
      exact ih (h.step (by omega) hpivot) (by omega)

theorem eliminate_of_goodPoints {I : Instance} (hpoints : GoodPoints I) :
    (eliminate I.P I.G I.m).2 = none ∧ EliminatedTo I I.m (eliminate I.P I.G I.m).1 :=
  (eliminatedTo_fillV I).eliminateFrom hpoints (Nat.zero_add _)

/-- Settles O46: the elimination keeps `EliminatedTo`, under which a zero pivot is a repeated point. -/
theorem distinctPointsGiveNonzeroPivots : Obligations.DistinctPointsGiveNonzeroPivots :=
  fun _ hpoints => (eliminate_of_goodPoints hpoints).1

/-! ### The eliminated matrix in closed form (R165, R168) -/

/-- A completed elimination leaves the identity on the left, as numbers. -/
theorem EliminatedTo.left_block {I : Instance} {V : Matrix} (h : EliminatedTo I I.m V) {r k : Nat}
    (hr : r < I.m) (hk : k < I.m) : entry V r k = if r = k then 1 else 0 := by
  have hone : (if r = k then 1 else 0) < I.P := by
    have := inst_three_le I
    split <;> omega
  have hcast : (entry V r k : ZMod I.P) = ((if r = k then 1 else 0 : Nat) : ZMod I.P) := by
    rw [h.unit r hr k hk, Nat.cast_ite, Nat.cast_one, Nat.cast_zero]
  exact ((ZMod.natCast_eq_natCast_iff _ _ _).mp hcast).eq_of_lt_of_lt (entry_lt h.scratch r k) hone

/-- Each column of a completed elimination solves the system of powers for its own column (R168). -/
theorem EliminatedTo.solves {I : Instance} {V : Matrix} (h : EliminatedTo I I.m V) {i q : Nat}
    (hi : i < I.m) (hq : q < 2 * I.m) :
    (∑ k ∈ Finset.range I.m, I.G ^ (i * k) * entry V k q) % I.P = I.G ^ (i * q) % I.P := by
  have hcombines := h.columnCombines le_rfl (q := q) fun r hr hmr => by omega
  have hpowers := (h.combines le_rfl le_rfl (by omega) hq hcombines).powers le_rfl (by omega) hq hi
  refine (ZMod.natCast_eq_natCast_iff' _ _ _).mp ?_
  rw [Nat.cast_sum, Nat.cast_pow, mul_comm i q, pow_mul, hpowers]
  refine Finset.sum_congr rfl fun k _ => ?_
  rw [Nat.cast_mul, Nat.cast_pow, mul_comm i k, pow_mul, mul_comm]

/-! ### The command (R162, R168, R169) -/

theorem exec_mdsgen_of_badPoint {s : State} {b : Nat}
    (h : checkPoints s.inst.P s.inst.G s.inst.m = some b) :
    exec .mdsgen s = .next (s.raise (.gdist, infoNat b)) := by
  rw [exec, execMdsgen, h]

/-- Settles O47: the scan reports that point, and error entry changes nothing else (R222). -/
theorem mdsgenReportsTheFirstBadPoint : Obligations.MdsgenReportsTheFirstBadPoint :=
  fun _ _ hlow hhigh hbad hfirst => exec_mdsgen_of_badPoint (checkPoints_eq_some hlow hhigh hbad hfirst)

/-- The state after `MDSGEN` has written the right-hand block of `V` (R162). -/
def State.afterMdsgen (s : State) (V : Matrix) : State := (State.writeMds { s with v := V } V).complete

theorem exec_mdsgen_of_goodPoints {s : State} (hpoints : GoodPoints s.inst)
    (hpivots : (eliminate s.inst.P s.inst.G s.inst.m).2 = none) :
    exec .mdsgen s = .next (s.afterMdsgen (eliminate s.inst.P s.inst.G s.inst.m).1) := by
  rw [exec, execMdsgen, (checkPoints_eq_none_iff s.inst).mpr hpoints]
  simp only [State.mdsgenMatrix, hpivots]
  rfl

theorem sameReservedMds_afterMdsgen (s : State) (V : Matrix) : sameReservedMds s (s.afterMdsgen V) := by
  intro off hreserved
  have hnotLimb : ¬ (off / 8 < s.inst.m * s.inst.m ∧ off % 8 < s.inst.L) := by omega
  exact (mdsWord_setMds { s with v := V } _ off).trans (if_neg hnotLimb)

/-- `MDS[i][j]` after `MDSGEN` is the transposed entry of the right-hand block (R168). -/
theorem mdsVal_afterMdsgen {s : State} {V : Matrix} (hV : IsScratch s.inst V) {i j : Nat} (hi : i < s.inst.m)
    (hj : j < s.inst.m) : (s.afterMdsgen V).mdsVal i j = entry V j (s.inst.m + i) := by
  have hcol : (i * s.inst.m + j) % s.inst.m = j := by
    rw [Nat.mul_add_mod_self_right, Nat.mod_eq_of_lt hj]
  have hrow : (i * s.inst.m + j) / s.inst.m = i := by
    rw [Nat.add_comm, Nat.add_mul_div_right _ _ (by omega), Nat.div_eq_of_lt hj, Nat.zero_add]
  have hslot := mdsSlot_setMds (s := { s with v := V })
    (f := fun e => entry V (e % s.inst.m) (s.inst.m + e / s.inst.m)) (mdsIndex_lt hi hj).1 (entry_lt hV _ _)
  rw [hcol, hrow] at hslot
  exact hslot

/-- Settles O44: with its checks passed `MDSGEN` writes the matrix, and the elimination keeps entries reduced. -/
theorem mdsgenWritesTheMatrix : Obligations.MdsgenWritesTheMatrix := by
  intro s hpoints hpivots
  refine ⟨_, exec_mdsgen_of_goodPoints hpoints hpivots, sameReservedMds_afterMdsgen s _, fun i hi j hj => ?_, rfl⟩
  have hval := mdsVal_afterMdsgen (isScratch_eliminate s.inst) hi hj
  exact ⟨hval ▸ entry_lt (isScratch_eliminate s.inst) j _, hval⟩

/-- Settles O45: the eliminated matrix has the identity on the left and solves the system of powers. -/
theorem mdsgenSolvesTheVandermondeSystem : Obligations.MdsgenSolvesTheVandermondeSystem := by
  intro s hpoints hpivots
  obtain ⟨_, helim⟩ := eliminate_of_goodPoints hpoints
  refine ⟨_, exec_mdsgen_of_goodPoints hpoints hpivots, fun r hr k hk => helim.left_block hr hk,
    fun i hi c hc => ?_⟩
  rw [Finset.sum_congr rfl fun k hk => by
    rw [mdsVal_afterMdsgen helim.scratch hc (Finset.mem_range.mp hk)]]
  exact helim.solves hi (by omega)

/-- Settles O48: the point scan and the elimination see `P`, `m`, `G` alone, so both states meet the same bad
point or, there being none, are given the same matrix. -/
theorem mdsgenIsIndependentOfHistory : Obligations.MdsgenIsIndependentOfHistory := by
  intro s s' hinst
  cases hscan : checkPoints s.inst.P s.inst.G s.inst.m with
  | some b =>
    exact ⟨_, _, exec_mdsgen_of_badPoint hscan, exec_mdsgen_of_badPoint (hinst ▸ hscan), rfl, nofun,
      fun _ => ⟨rfl, rfl, rfl, rfl, rfl, rfl⟩⟩
  | none =>
    have hpoints : GoodPoints s.inst := (checkPoints_eq_none_iff s.inst).mp hscan
    obtain ⟨hpivots, helim⟩ := eliminate_of_goodPoints hpoints
    have hexec' := exec_mdsgen_of_goodPoints (s := s') (hinst ▸ hpoints) (hinst ▸ hpivots)
    rw [hinst] at hexec'
    refine ⟨_, _, exec_mdsgen_of_goodPoints hpoints hpivots, hexec', rfl, fun _ i hi j hj => ?_, nofun⟩
    rw [mdsVal_afterMdsgen helim.scratch hi hj,
      mdsVal_afterMdsgen (hinst ▸ helim.scratch) (hinst ▸ hi) (hinst ▸ hj), hinst]

end Sys2Proof.Machine
end

