-- ==== Sys2Proof/Proofs/HostProcedures.lean ====
section
/-! PROOFS. The procedures the host runs before it loads the engine (spec/46_host_procedures.md): the search
for the round count, the stream cut into constants, Euclid's algorithm, and the configuration they make. -/

namespace Sys2Proof.Machine

/-! ### The round count (R190 to R196) -/

theorem levelSupported_iff (level : Nat) : levelSupported level = true ↔ level = 128 ∨ level = 160 := by
  simp [levelSupported]

/-- The quotient of factorials is the library's binomial coefficient, here always with `k ≤ n` (R193). -/
theorem binomial_add_left (k d : Nat) : binomial (k + d) k = (k + d).choose k :=
  (Nat.choose_eq_factorial_div_factorial (Nat.le_add_right k d)).symm

theorem roundsSuffice_iff (m rate level alpha i : Nat) :
    roundsSuffice m rate level alpha i = true ↔
      2 ^ level < (m * (i - 1) + rate + ((alpha - 1) * m * (i - 1) / 2 + 2)).choose (m * (i - 1) + rate) ^ 2 := by
  rw [roundsSuffice, decide_eq_true_iff, binomial_add_left, vbound, dcon]

/-- A lower level asks for less (R193). -/
theorem roundsSuffice_of_le {m rate level level' alpha i : Nat} (hle : level ≤ level')
    (h : roundsSuffice m rate level' alpha i = true) : roundsSuffice m rate level alpha i = true := by
  rw [roundsSuffice_iff] at h ⊢
  exact (Nat.pow_le_pow_right two_pos hle).trans_lt h

/-- The search finds the least candidate that satisfies the inequality: up to it, none but itself does. -/
theorem searchRounds_eq_some_iff {m rate level alpha n i i0 : Nat} :
    searchRounds m rate level alpha n i = some i0 ↔
      i ≤ i0 ∧ i0 < i + n ∧
        ∀ j, i ≤ j → j ≤ i0 → (roundsSuffice m rate level alpha j = true ↔ j = i0) := by
  induction n generalizing i with
  | zero =>
    refine ⟨nofun, ?_⟩
    rintro ⟨hle, hlt, -⟩
    omega
  | succ n ih =>
    rw [searchRounds]
    split
    case isTrue hsuff =>
      constructor
      · rintro ⟨⟩
        refine ⟨le_rfl, by omega, fun j hij hji => ?_⟩
        rw [Nat.le_antisymm hji hij]
        exact iff_of_true hsuff rfl
      · rintro ⟨hle, -, hleast⟩
        rw [(hleast i le_rfl hle).mp hsuff]
    case isFalse hfail =>
      rw [ih]
      constructor
      · rintro ⟨hle, hlt, hleast⟩
        refine ⟨by omega, by omega, fun j hij hji => ?_⟩
        rcases hij.eq_or_lt with rfl | hlater
        · exact iff_of_false hfail (by omega)
        · exact hleast j hlater hji
      · rintro ⟨hle, hlt, hleast⟩
        have hne : i ≠ i0 := fun heq => hfail ((hleast i le_rfl hle).mpr heq)
        exact ⟨by omega, by omega, fun j hij hji => hleast j (by omega) hji⟩

/-- All that the estimator can answer: its three checks passed, and the search's result with the margin. -/
theorem estimateRounds_eq_ok_iff {p m c level alpha N : Nat} :
    estimateRounds p m c level alpha = .ok N ↔
      levelSupported level = true ∧ c + 1 ≤ m ∧ 1 ≤ alpha ∧
        ∃ i0, searchRounds m (m - c) level alpha roundSearchBound 1 = some i0 ∧ N = roundCount i0 := by
  rw [estimateRounds]
  split
  case isTrue hlevel => exact ⟨nofun, fun ⟨hlevel', _⟩ => by simp [hlevel'] at hlevel⟩
  split
  case isTrue hrate => exact ⟨nofun, fun ⟨_, hrate', _⟩ => by omega⟩
  split
  case isTrue halpha => exact ⟨nofun, fun ⟨_, _, halpha', _⟩ => by omega⟩
  case isFalse hlevel hrate halpha =>
    have hchecks : levelSupported level = true ∧ c + 1 ≤ m ∧ 1 ≤ alpha :=
      ⟨by simpa using hlevel, by omega, by omega⟩
    cases searchRounds m (m - c) level alpha roundSearchBound 1 with
    | none => exact ⟨nofun, nofun⟩
    | some i0 => simp [hchecks, eq_comm]

/-- The answers' range: `max(5, i0)` runs from 5 to the bound of the search (R195). -/
theorem roundCount_mem_range {i0 : Nat} (h : i0 ≤ roundSearchBound) : 8 ≤ roundCount i0 ∧ roundCount i0 ≤ 36 := by
  rw [roundSearchBound] at h
  rw [roundCount]
  omega

theorem roundCount_mono {i j : Nat} (h : i ≤ j) : roundCount i ≤ roundCount j := by
  rw [roundCount, roundCount]
  omega

/-- Settles O56: the checks of the estimator, the least candidate of its search, the range of its answer. -/
theorem estimatorFollowsTheSearch : Obligations.EstimatorFollowsTheSearch := by
  intro p m c level alpha N
  rw [estimateRounds_eq_ok_iff, levelSupported_iff]
  refine and_congr_right' (and_congr_right' (and_congr_right' (exists_congr fun i0 => ?_)))
  simp only [searchRounds_eq_some_iff, roundsSuffice_iff]
  constructor
  · rintro ⟨⟨hpos, hlt, hleast⟩, rfl⟩
    have hbound : i0 ≤ roundSearchBound := Nat.le_of_lt_succ (by omega)
    exact ⟨hpos, hbound, hleast, rfl, roundCount_mem_range hbound⟩
  · rintro ⟨hpos, hbound, hleast, rfl, -⟩
    exact ⟨⟨hpos, Nat.lt_of_le_of_lt hbound (by decide), hleast⟩, rfl⟩

/-- Settles O57: what satisfies the inequality at 160 does so at 128, so the search at 128 ends no later. -/
theorem estimatorIsMonotone : Obligations.EstimatorIsMonotone := by
  intro p m c alpha N N' h128 h160
  obtain ⟨-, -, -, i, hi, rfl⟩ := estimateRounds_eq_ok_iff.mp h128
  obtain ⟨-, -, -, i', hi', rfl⟩ := estimateRounds_eq_ok_iff.mp h160
  obtain ⟨-, -, hleast⟩ := searchRounds_eq_some_iff.mp hi
  obtain ⟨hpos', -, hleast'⟩ := searchRounds_eq_some_iff.mp hi'
  have hsuff : roundsSuffice m (m - c) 128 alpha i' = true :=
    roundsSuffice_of_le (by decide) ((hleast' i' hpos' le_rfl).mpr rfl)
  refine roundCount_mono (Nat.le_of_not_lt fun hearlier => ?_)
  exact hearlier.ne ((hleast i' hpos' hearlier.le).mp hsuff)

/-! ### The round constants (R197 to R203) -/

theorem constantAt_lt {p : Nat} (hp : 0 < p) (stream : Nat → Byte) (k : Nat) : constantAt stream p k < p :=
  Nat.mod_lt _ hp

theorem bytesPerInt_eq (p : Nat) : bytesPerInt p = (Nat.log 2 p + 1 + 7) / 8 + 1 := by
  rw [bytesPerInt, Nat.log2_eq_log_two]

theorem constantAt_eq_sum (stream : Nat → Byte) (p k : Nat) :
    constantAt stream p k =
      (∑ t ∈ Finset.range (bytesPerInt p), (stream (k * bytesPerInt p + t)).toNat * 256 ^ t) % p := by
  rw [constantAt, rawChunk, sumTo_eq_sum]

section
variable {xof : List Byte → Nat → Byte} {seed : Nat → Nat → Nat → Nat → List Byte}
  {level p m c N N' : Nat} {cs cs' : List Nat}

/-- All that the generator can answer: the first `2*m*N` constants of the seed's stream. -/
theorem generateConstants_eq_ok_iff :
    generateConstants xof seed level p m c N = .ok cs ↔
      levelSupported level = true ∧
        cs = (List.range (2 * m * N)).map (constantAt (xof (seed p m c level)) p) := by
  rw [generateConstants]
  split
  case isTrue hlevel => exact ⟨nofun, fun ⟨hlevel', _⟩ => by simp [hlevel'] at hlevel⟩
  case isFalse hlevel =>
    have hlevel' : levelSupported level = true := by simpa using hlevel
    rw [Except.ok.injEq, eq_comm, and_iff_right hlevel']

theorem length_of_generateConstants (h : generateConstants xof seed level p m c N = .ok cs) :
    cs.length = 2 * m * N := by
  obtain ⟨-, rfl⟩ := generateConstants_eq_ok_iff.mp h
  rw [List.length_map, List.length_range]

theorem getElem?_of_generateConstants (h : generateConstants xof seed level p m c N = .ok cs) {k : Nat}
    (hk : k < 2 * m * N) : cs[k]? = some (constantAt (xof (seed p m c level)) p k) := by
  obtain ⟨-, rfl⟩ := generateConstants_eq_ok_iff.mp h
  rw [List.getElem?_map, List.getElem?_range hk, Option.map_some]

theorem lt_of_mem_generateConstants (hp : 0 < p) (h : generateConstants xof seed level p m c N = .ok cs) {v : Nat}
    (hv : v ∈ cs) : v < p := by
  obtain ⟨-, rfl⟩ := generateConstants_eq_ok_iff.mp h
  obtain ⟨k, -, rfl⟩ := List.mem_map.mp hv
  exact constantAt_lt hp _ k

/-- The stream does not depend on `N`: more rounds read it further (R203). -/
theorem generateConstants_extends (hN : N ≤ N') (h : generateConstants xof seed level p m c N = .ok cs)
    (h' : generateConstants xof seed level p m c N' = .ok cs') : cs <+: cs' := by
  obtain ⟨-, rfl⟩ := generateConstants_eq_ok_iff.mp h
  obtain ⟨-, rfl⟩ := generateConstants_eq_ok_iff.mp h'
  obtain ⟨d, hd⟩ := Nat.exists_eq_add_of_le (Nat.mul_le_mul_left (2 * m) hN)
  rw [hd, List.range_add, List.map_append]
  exact ⟨_, rfl⟩

end

/-- Settles O58: constant `k` is the chunk's sum modulo `p` whatever `N` is, and `N` sets the length alone. -/
theorem constantsAreReducedChunks : Obligations.ConstantsAreReducedChunks := by
  intro xof seed level p m c N N' cs cs' hp hN h h'
  refine ⟨length_of_generateConstants h, generateConstants_extends hN h h', ?_⟩
  rw [← bytesPerInt_eq]
  rintro _ rfl k hk
  exact ⟨_, getElem?_of_generateConstants h hk, constantAt_lt hp _ k, constantAt_eq_sum _ p k⟩

/-! ### The exponent inverse (R206) -/

/-- Euclid's algorithm keeps both numbers multiples of `a` modulo `n` by the coefficients it carries, and so
ends with the coefficient of the greatest common divisor. -/
theorem mul_euclid_modEq_gcd {n a : Int} {fuel r0 r1 : Nat} {t0 t1 : Int} (hfuel : r1 < fuel)
    (h0 : a * t0 ≡ r0 [ZMOD n]) (h1 : a * t1 ≡ r1 [ZMOD n]) :
    a * euclid fuel r0 r1 t0 t1 ≡ (Nat.gcd r0 r1 : Nat) [ZMOD n] := by
  induction fuel generalizing r0 r1 t0 t1 with
  | zero => omega
  | succ fuel ih =>
    rw [euclid]
    split
    case isTrue hzero => rwa [hzero, Nat.gcd_zero_right]
    case isFalse hne =>
      have hrem : r0 % r1 < r1 := Nat.mod_lt _ (Nat.pos_of_ne_zero hne)
      have hnext : a * (t0 - (r0 / r1 : Nat) * t1) ≡ (r0 % r1 : Nat) [ZMOD n] :=
        calc a * (t0 - (r0 / r1 : Nat) * t1) = a * t0 - (r0 / r1 : Nat) * (a * t1) := by ring
          _ ≡ r0 - (r0 / r1 : Nat) * r1 [ZMOD n] := h0.sub (h1.mul_left _)
          _ = (r0 % r1 : Nat) := by rw [Int.natCast_mod, Int.emod_def, Int.natCast_div, mul_comm]
      have hgcd : Nat.gcd r0 r1 = Nat.gcd r1 (r0 % r1) := by
        rw [Nat.gcd_comm, Nat.gcd_rec, Nat.gcd_comm]
      rw [hgcd]
      exact ih (by omega) h1 hnext

theorem natCast_modInverse {n : Nat} (hn : 0 < n) (a : Nat) :
    (modInverse a n : Int) = euclid (n + 1) n (a % n) 0 1 % n :=
  Int.toNat_of_nonneg (Int.emod_nonneg _ (by omega))

theorem modInverse_lt {n : Nat} (hn : 0 < n) (a : Nat) : modInverse a n < n := by
  have hlt := Int.emod_lt_of_pos (euclid (n + 1) n (a % n) 0 1) (Int.natCast_pos.mpr hn)
  rw [← natCast_modInverse hn] at hlt
  exact Int.ofNat_lt.mp hlt

/-- Started on `(n, a mod n)` with the coefficients 0 and 1 of `a`, the algorithm answers the inverse. -/
theorem mul_modInverse_mod {a n : Nat} (hn : 1 < n) (hcop : Nat.gcd a n = 1) : a * modInverse a n % n = 1 := by
  have hstart0 : (a : Int) * 0 ≡ n [ZMOD n] := by simp [Int.ModEq]
  have hstart1 : (a : Int) * 1 ≡ (a % n : Nat) [ZMOD n] := by simp [Int.ModEq]
  have hend := mul_euclid_modEq_gcd (fuel := n + 1) (Nat.lt_succ_of_lt (Nat.mod_lt a (by omega))) hstart0 hstart1
  have hgcd : Nat.gcd n (a % n) = 1 := by rw [← hcop, Nat.gcd_comm, ← Nat.gcd_rec, Nat.gcd_comm]
  have hinv : ((a * modInverse a n : Nat) : Int) ≡ (1 : Nat) [ZMOD n] := by
    rw [Nat.cast_mul, natCast_modInverse (by omega)]
    exact ((Int.mod_modEq _ _).mul_left _).trans (hgcd ▸ hend)
  have hmod : a * modInverse a n % n = 1 % n := Int.natCast_modEq_iff.mp hinv
  rw [hmod, Nat.mod_eq_of_lt hn]

/-- All that the derivation can answer when the check passes. -/
theorem deriveAlphaInv_eq_ok_iff {p alpha v : Nat} :
    deriveAlphaInv p alpha = .ok v ↔ Nat.gcd alpha (p - 1) = 1 ∧ v = modInverse alpha (p - 1) := by
  rw [deriveAlphaInv]
  split
  case isTrue hne => exact ⟨nofun, fun ⟨heq, _⟩ => absurd heq hne⟩
  case isFalse heq => rw [Except.ok.injEq, eq_comm, and_iff_right (not_not.mp heq)]

/-- Settles O59: Euclid's algorithm gives the inverse, which is not 0 because 0 has no product 1. -/
theorem derivedExponentIsTheInverse : Obligations.DerivedExponentIsTheInverse := by
  refine fun p alpha hp => ⟨fun hcop => ?_, fun hne => if_pos hne⟩
  have hprod : alpha * modInverse alpha (p - 1) % (p - 1) = 1 := mul_modInverse_mod (by omega) hcop
  have hpos : modInverse alpha (p - 1) ≠ 0 := by
    intro hzero
    rw [hzero, Nat.mul_zero, Nat.zero_mod] at hprod
    exact zero_ne_one hprod
  exact ⟨_, deriveAlphaInv_eq_ok_iff.mpr ⟨hcop, rfl⟩, by omega, modInverse_lt (by omega) alpha, hprod⟩

/-! ### The configuration as a whole (R207) -/

/-- Settles O60: a configuration is the three procedures' answers, so it has what each of them promises. -/
theorem derivedValuesFitOneTuple : Obligations.DerivedValuesFitOneTuple := by
  intro xof seed t c hp h
  obtain ⟨hinv, hrounds, hconstants, htuple⟩ := (configure_ok_iff xof seed t c).mp h
  obtain ⟨hcop, hv⟩ := deriveAlphaInv_eq_ok_iff.mp hinv
  obtain ⟨-, -, -, i0, -, hbound, -, -, hmin, -⟩ := (estimatorFollowsTheSearch _ _ _ _ _ _).mp hrounds
  refine ⟨htuple, hrounds, hconstants, ?_, ?_, hmin, length_of_generateConstants hconstants,
    fun v hmem => lt_of_mem_generateConstants (by omega) hconstants hmem⟩
  · rw [hv]
    exact mul_modInverse_mod (by omega) hcop
  · rw [hv]
    exact modInverse_lt (by omega) _

end Sys2Proof.Machine
end

