-- ==== Sys2Proof/Proofs/Exceptions.lean ====
section
/-! PROOFS. The errors (spec/60_exceptions.md): what each test records when it fails, which test of a command is the
first to fail (R232), that error entry changes nothing else (R222), and what passing the product test implies. -/

namespace Sys2Proof.Machine

/-! ### The product test (R17, R228) -/

theorem ne_zero_of_mul_mod_eq_one {a b n : Nat} (h : a * b % n = 1) : a ≠ 0 := by
  rintro rfl
  simp at h

/-- Settles O8: a product that is 1 modulo `P - 1` makes both factors units there, and two powers in a row are the
power by the product. -/
theorem passingPairInverts : Obligations.PassingPairInverts := by
  intro I e d hpair
  have hunit : e * d ≡ 1 [MOD I.P - 1] := hpair.trans (one_mod_pred_P I).symm
  refine ⟨Nat.coprime_of_mul_modEq_one d hunit, ne_zero_of_mul_mod_eq_one hpair,
    ne_zero_of_mul_mod_eq_one (Nat.mul_comm e d ▸ hpair), fun a ha => ?_⟩
  calc fpow I.P (fpow I.P a e) d = (a ^ e % I.P) ^ d % I.P := by rw [fpow_eq_pow_mod, fpow_eq_pow_mod]
    _ = a ^ (e * d) % I.P := by rw [← Nat.pow_mod, pow_mul]
    _ = a := pow_mod_eq_self (inst_prime I) hpair ha

/-! ### What a failing test records (R223, R225 to R229) -/

theorem errIf_of_ne_none {cond : Bool} {code : ErrCode} {info : Word} (h : errIf cond code info ≠ none) :
    errIf cond code info = some (code, info) := by
  cases cond with
  | false => exact absurd rfl h
  | true => rfl

theorem checkAlpha_of_not_pairOk {s : State} (h : ¬ s.pairOk) : s.checkAlpha = some (.alpha, 0) :=
  errIf_of_ne_none (mt (checkAlpha_eq_none_iff s).mp h)

theorem checkNrounds_of_bad {s : State}
    (h : s.nrounds.toNat = 0 ∨ s.inst.rcDepth < 2 * s.inst.m * s.nrounds.toNat) :
    s.checkNrounds = some (.nrounds, infoNat s.nrounds.toNat) := by
  refine errIf_of_ne_none (mt (checkNrounds_eq_none_iff s).mp ?_)
  rintro ⟨hne, hle⟩
  exact h.elim hne hle.not_gt

theorem checkRclenExact_of_ne {s : State} (h : s.rclen.toNat ≠ 2 * s.inst.m * s.nrounds.toNat) :
    s.checkRclenExact = some (.rclen, infoNat s.rclen.toNat) :=
  errIf_of_ne_none (mt (checkRclenExact_eq_none_iff s).mp h)

theorem checkRclenFits_of_lt {s : State} (h : s.inst.rcDepth < s.rclen.toNat) :
    s.checkRclenFits = some (.rclen, infoNat s.rclen.toNat) :=
  errIf_of_ne_none (mt (checkRclenFits_eq_none_iff s).mp h.not_ge)

theorem checkIndex_of_lt {s : State} {last : Nat} (imm : Nat) (h : s.rclen.toNat < last) :
    s.checkIndex last imm = some (.index, infoNat imm) :=
  errIf_of_ne_none (mt (checkIndex_eq_none_iff s last imm).mp h.not_ge)

/-- The region and the index stand in the two halves of the detail word (R223). -/
theorem rangeInfo_eq {region index : Nat} (hregion : region < 2 ^ 32) (hindex : index < 2 ^ 32) :
    rangeInfo region index = BitVec.ofNat 64 (region * 2 ^ 32 + index) := by
  apply BitVec.eq_of_toNat_eq
  rw [rangeInfo, BitVec.toNat_append, BitVec.toNat_ofNat, BitVec.toNat_ofNat, BitVec.toNat_ofNat,
    Nat.mod_eq_of_lt hregion, Nat.mod_eq_of_lt hindex, ← Nat.shiftLeft_add_eq_or_of_lt hindex,
    Nat.shiftLeft_eq, Nat.mod_eq_of_lt (by omega)]

/-- The scan answers the lowest unreduced index of its range. -/
theorem firstUnreduced_of_lowest {P : Nat} {f : Nat → Nat} {n k b : Nat} (hkb : k ≤ b) (hbn : b < k + n)
    (hbad : P ≤ f b) (hlow : ∀ a, k ≤ a → a < b → f a < P) : firstUnreduced P f n k = some b := by
  cases hscan : firstUnreduced P f n k with
  | none => exact absurd (firstUnreduced_eq_none_iff.mp hscan b hkb hbn) hbad.not_gt
  | some c =>
    obtain ⟨hkc, _, hcbad, hclow⟩ := firstUnreduced_eq_some hscan
    have hcb : ¬ c < b := fun hlt => hcbad.not_gt (hlow c hkc hlt)
    have hbc : ¬ b < c := fun hlt => hbad.not_gt (hclow b hkb hlt)
    rw [show c = b by omega]

theorem checkRange_of_lowest {P region n k b : Nat} {f : Nat → Nat} (hregion : region < 2 ^ 32)
    (hindex : b < 2 ^ 32) (hkb : k ≤ b) (hbn : b < k + n) (hbad : P ≤ f b)
    (hlow : ∀ a, k ≤ a → a < b → f a < P) :
    checkRange P region f n k = some (.range, BitVec.ofNat 64 (region * 2 ^ 32 + b)) := by
  rw [checkRange, firstUnreduced_of_lowest hkb hbn hbad hlow, Option.map_some, rangeInfo_eq hregion hindex]

theorem checkX_of_lowest {s : State} {j : Nat} (hj : j < s.inst.m) (hbad : s.inst.P ≤ s.xVal j)
    (hlow : ∀ a < j, s.xVal a < s.inst.P) : s.checkX = some (.range, BitVec.ofNat 64 j) := by
  have hm := inst_m_le s.inst
  have hfound := checkRange_of_lowest (region := 0) (by omega) (by omega) j.zero_le
    (hj.trans_eq (Nat.zero_add _).symm) hbad fun a _ => hlow a
  rwa [Nat.zero_mul, Nat.zero_add] at hfound

theorem checkMds_of_lowest {s : State} {e : Nat} (he : e < s.inst.m * s.inst.m)
    (hbad : s.inst.P ≤ s.mdsSlot e) (hlow : ∀ a < e, s.mdsSlot a < s.inst.P) :
    s.checkMds = some (.range, BitVec.ofNat 64 (2 ^ 32 + e)) := by
  have hmm : s.inst.m * s.inst.m ≤ 32 * 32 := Nat.mul_le_mul (inst_m_le s.inst) (inst_m_le s.inst)
  have hfound := checkRange_of_lowest (region := 1) (by omega) (by omega) e.zero_le
    (he.trans_eq (Nat.zero_add _).symm) hbad fun a _ => hlow a
  rwa [Nat.one_mul] at hfound

theorem checkRc_of_lowest {s : State} {n k b : Nat} (hdepth : b < s.inst.rcDepth) (hkb : k ≤ b)
    (hbn : b < k + n) (hbad : s.inst.P ≤ s.rcVal b) (hlow : ∀ a, k ≤ a → a < b → s.rcVal a < s.inst.P) :
    s.checkRc n k = some (.range, BitVec.ofNat 64 (2 * 2 ^ 32 + b)) := by
  have hslots := inst_depth_le s.inst
  exact checkRange_of_lowest (by omega) (by omega) hkb hbn hbad hlow

/-! ### The order of the tests (R232): what is left of a command's list once its first tests pass -/

theorem sboxChecks_of_pairOk {s : State} (hpair : s.pairOk) : s.sboxChecks = firstError [s.checkX] := by
  rw [State.sboxChecks, (checkAlpha_eq_none_iff s).mpr hpair, firstError_none]

theorem mdsmulChecks_of_xReduced {s : State} (hx : s.xReduced) : s.mdsmulChecks = firstError [s.checkMds] := by
  rw [State.mdsmulChecks, (checkX_eq_none_iff s).mpr hx, firstError_none]

theorem addrcChecks_of_lengths {s : State} {k : Nat} (hfits : s.rclen.toNat ≤ s.inst.rcDepth)
    (hindex : k + s.inst.m ≤ s.rclen.toNat) :
    s.addrcChecks k = firstError [s.checkX, s.checkRc s.inst.m k] := by
  rw [State.addrcChecks, (checkRclenFits_eq_none_iff s).mpr hfits, (checkIndex_eq_none_iff s _ k).mpr hindex,
    firstError_none, firstError_none]

/-- The tests that `ROUND` and `PERMUTE` share, on the `n` constants from slot `k` on. -/
def State.operandChecks (s : State) (n k : Nat) : Option ErrRecord :=
  firstError [s.checkAlpha, s.checkX, s.checkMds, s.checkRc n k]

theorem roundChecks_of_lengths {s : State} {i : Nat} (hlengths : s.roundLengthsOk i) :
    s.roundChecks i = s.operandChecks (2 * s.inst.m) (injBase s.inst.m i 0) := by
  obtain ⟨hfits, hindex⟩ := hlengths
  rw [State.roundChecks, (checkRclenFits_eq_none_iff s).mpr hfits, (checkIndex_eq_none_iff s _ i).mpr hindex,
    firstError_none, firstError_none, State.operandChecks]

theorem permuteChecks_of_lengths {s : State} (hlengths : s.permuteLengthsOk) :
    s.permuteChecks = s.operandChecks (2 * s.inst.m * s.nrounds.toNat) 0 := by
  obtain ⟨hne, hdepth, hexact⟩ := hlengths
  rw [State.permuteChecks, (checkNrounds_eq_none_iff s).mpr ⟨hne, hdepth⟩,
    (checkRclenExact_eq_none_iff s).mpr hexact, firstError_none, firstError_none, State.operandChecks]

section
variable {s : State} {e : ErrRecord} {n k : Nat}

theorem operandChecks_of_checkAlpha (halpha : s.checkAlpha = some e) : s.operandChecks n k = some e := by
  rw [State.operandChecks, halpha, firstError_some]

theorem operandChecks_of_checkX (hpair : s.pairOk) (hx : s.checkX = some e) :
    s.operandChecks n k = some e := by
  rw [State.operandChecks, (checkAlpha_eq_none_iff s).mpr hpair, hx, firstError_none, firstError_some]

theorem operandChecks_of_checkMds (hpair : s.pairOk) (hx : s.xReduced) (hmds : s.checkMds = some e) :
    s.operandChecks n k = some e := by
  rw [State.operandChecks, (checkAlpha_eq_none_iff s).mpr hpair, (checkX_eq_none_iff s).mpr hx, hmds,
    firstError_none, firstError_none, firstError_some]

theorem operandChecks_of_checkRc (hpair : s.pairOk) (hx : s.xReduced) (hM : s.mdsReduced)
    (hrc : s.checkRc n k = some e) : s.operandChecks n k = some e := by
  rw [State.operandChecks, (checkAlpha_eq_none_iff s).mpr hpair, (checkX_eq_none_iff s).mpr hx,
    (checkMds_eq_none_iff s).mpr hM, hrc, firstError_none, firstError_none, firstError_none, firstError_some]

end

/-! ### The first step of a command (R222, R233) -/

/-- The tests of each command that makes any on the state (R232); those of `MDSGEN` see `P`, `m`, `G` alone (R163). -/
def State.commandChecks (s : State) : Instr → Option ErrRecord
  | .sboxF | .sboxI => s.sboxChecks
  | .mdsmul => s.mdsmulChecks
  | .addrc k => s.addrcChecks k
  | .round i => s.roundChecks i
  | .permute => s.permuteChecks
  | .nop | .mdsgen | .clrstat => none

theorem namesError_commandChecks (s : State) (i : Instr) : NamesError (s.commandChecks i) := by
  cases i with
  | sboxF | sboxI => exact namesError_sboxChecks s
  | mdsmul => exact namesError_mdsmulChecks s
  | addrc k => exact namesError_addrcChecks s k
  | round i => exact namesError_roundChecks s i
  | permute => exact namesError_permuteChecks s
  | nop | mdsgen | clrstat => exact nofun

theorem executing_of_commandChecks {s : State} {i : Instr} {e : ErrRecord} (h : s.commandChecks i = some e) :
    executing i = true ∧ i ≠ .mdsgen := by
  cases i with
  | nop | mdsgen | clrstat => exact absurd h nofun
  | sboxF | sboxI | mdsmul | addrc _ | round _ | permute => exact ⟨rfl, nofun⟩

/-- The first step of a command with tests: all of them, and then work that raises nothing. -/
theorem exec_eq_checkedStep {s : State} {i : Instr} (hexec : executing i = true) (hmdsgen : i ≠ .mdsgen)
    (hunchecked : HasRounds i → s.checked = false) :
    ∃ ok : State, ok.err = s.err ∧ exec i s = .next (s.checkedStep (s.commandChecks i) ok) := by
  cases i with
  | nop | clrstat => simp [executing] at hexec
  | mdsgen => exact absurd rfl hmdsgen
  | sboxF => exact ⟨(s.sboxStep false).complete, rfl, rfl⟩
  | sboxI => exact ⟨(s.sboxStep true).complete, rfl, rfl⟩
  | mdsmul => exact ⟨s.mdsStep.complete, rfl, rfl⟩
  | addrc k => exact ⟨(s.injStep k).complete, rfl, rfl⟩
  | round i =>
    refine ⟨s.startAt (BitVec.ofNat 32 i), rfl, ?_⟩
    rw [exec, execRound, hunchecked (.inl ⟨i, rfl⟩), if_neg Bool.false_ne_true, State.commandChecks]
  | permute =>
    refine ⟨s.startAt 0, rfl, ?_⟩
    rw [exec, execPermute, hunchecked (.inr rfl), if_neg Bool.false_ne_true, State.commandChecks]

/-- A command whose tests fail takes the error entry of the first that does. -/
theorem exec_of_commandChecks {s : State} {i : Instr} {code : ErrCode} {info : Word}
    (hunchecked : HasRounds i → s.checked = false) (hfail : s.commandChecks i = some (code, info)) :
    exec i s = .next (withError s code info) := by
  obtain ⟨hexec, hmdsgen⟩ := executing_of_commandChecks hfail
  obtain ⟨ok, _, heq⟩ := exec_eq_checkedStep hexec hmdsgen hunchecked
  rw [heq, hfail, State.checkedStep, State.raise, withError]

section
variable {s : State} {code : ErrCode} {info : Word}

theorem exec_sbox_of_failing (hfail : s.sboxChecks = some (code, info)) :
    exec .sboxF s = .next (withError s code info) ∧ exec .sboxI s = .next (withError s code info) :=
  ⟨exec_of_commandChecks (by simp [HasRounds]) hfail, exec_of_commandChecks (by simp [HasRounds]) hfail⟩

theorem exec_mdsmul_of_failing (hfail : s.mdsmulChecks = some (code, info)) :
    exec .mdsmul s = .next (withError s code info) := exec_of_commandChecks (by simp [HasRounds]) hfail

theorem exec_addrc_of_failing {k : Nat} (hfail : s.addrcChecks k = some (code, info)) :
    exec (.addrc k) s = .next (withError s code info) := exec_of_commandChecks (by simp [HasRounds]) hfail

theorem exec_round_of_failing {i : Nat} (hunchecked : s.checked = false)
    (hfail : s.roundChecks i = some (code, info)) :
    exec (.round i) s = .next (withError s code info) := exec_of_commandChecks (fun _ => hunchecked) hfail

theorem exec_permute_of_failing (hunchecked : s.checked = false) (hfail : s.permuteChecks = some (code, info)) :
    exec .permute s = .next (withError s code info) := exec_of_commandChecks (fun _ => hunchecked) hfail

end

/-- `MDSGEN` raises the error of a bad point before it writes, or has good points and ends without error, for then no
pivot is zero. -/
theorem exec_mdsgen_cases (s : State) :
    (∃ b, exec .mdsgen s = .next (withError s .gdist (infoNat b))) ∨
      ∃ t, exec .mdsgen s = .next t ∧ t.err = s.err := by
  cases hscan : checkPoints s.inst.P s.inst.G s.inst.m with
  | some b => exact .inl ⟨b, exec_mdsgen_of_badPoint hscan⟩
  | none =>
    have hpoints : GoodPoints s.inst := (checkPoints_eq_none_iff s.inst).mp hscan
    obtain ⟨hpivots, _⟩ := eliminate_of_goodPoints hpoints
    exact .inr ⟨_, exec_mdsgen_of_goodPoints hpoints hpivots, rfl⟩

/-- Settles O49: the first step is error entry on a failing test, or work that leaves `ERR` as it was. -/
theorem errorEntryChangesNothingElse : Obligations.ErrorEntryChangesNothingElse := by
  intro s t i hexec hunchecked hclear ht herr
  by_cases hmdsgen : i = .mdsgen
  · subst hmdsgen
    obtain ⟨b, heq⟩ | ⟨u, heq, hu⟩ := exec_mdsgen_cases s
    · obtain rfl := Host.Outcome.next.inj (heq.symm.trans ht)
      exact ⟨nofun, fun _ => rfl, rfl⟩
    · obtain rfl := Host.Outcome.next.inj (heq.symm.trans ht)
      simp [hu, hclear] at herr
  · obtain ⟨ok, hok, heq⟩ := exec_eq_checkedStep hexec hmdsgen fun _ => hunchecked
    obtain rfl := Host.Outcome.next.inj (heq.symm.trans ht)
    obtain ⟨e, he, hstep⟩ | ⟨_, hstep⟩ := checkedStep_cases s (s.commandChecks i) ok
    · rw [hstep]
      exact ⟨namesError_commandChecks s i e he, fun _ => rfl, rfl⟩
    · simp [hstep, hok, hclear] at herr

/-! ### Which error a command raises (R225 to R229, R232) -/

/-- Settles O50: the product test is the first of the S-box commands and the first after the lengths of `ROUND` and
`PERMUTE`. -/
theorem alphaErrorComesBeforeRange : Obligations.AlphaErrorComesBeforeRange := by
  intro s hpair
  have halpha : s.checkAlpha = some (.alpha, 0) := checkAlpha_of_not_pairOk hpair
  have hsbox : s.sboxChecks = some (.alpha, 0) := by rw [State.sboxChecks, halpha, firstError_some]
  obtain ⟨hF, hI⟩ := exec_sbox_of_failing hsbox
  refine ⟨hF, hI, fun i hunchecked hfits hindex => ?round, fun hunchecked hne hdepth hexact => ?permute⟩
  case round =>
    exact exec_round_of_failing hunchecked
      ((roundChecks_of_lengths ⟨hfits, hindex⟩).trans (operandChecks_of_checkAlpha halpha))
  case permute =>
    exact exec_permute_of_failing hunchecked
      ((permuteChecks_of_lengths ⟨hne, hdepth, hexact⟩).trans (operandChecks_of_checkAlpha halpha))

/-- Settles O51: each region's scan finds its lowest unreduced slot, and the tests before it pass. -/
theorem rangeErrorNamesTheLowestSlot : Obligations.RangeErrorNamesTheLowestSlot := by
  intro s
  refine ⟨fun j hj hbad hlow => ?x, fun hx e he hbad hlow => ?mds,
    fun hx k j hj hfits hindex hbad hlow => ?rc⟩
  case x =>
    have hfail : s.checkX = some (.range, BitVec.ofNat 64 j) := checkX_of_lowest hj hbad hlow
    refine ⟨fun hpair => ?pair, exec_mdsmul_of_failing ?mdsmul,
      fun k hfits hindex => exec_addrc_of_failing ?addrc⟩
    case pair =>
      have hsbox : s.sboxChecks = some (.range, BitVec.ofNat 64 j) := by
        rw [sboxChecks_of_pairOk hpair, hfail, firstError_some]
      obtain ⟨hF, hI⟩ := exec_sbox_of_failing hsbox
      exact ⟨hF, hI, fun hunchecked =>
        ⟨fun i hlengths => exec_round_of_failing hunchecked
          ((roundChecks_of_lengths hlengths).trans (operandChecks_of_checkX hpair hfail)),
        fun hlengths => exec_permute_of_failing hunchecked
          ((permuteChecks_of_lengths hlengths).trans (operandChecks_of_checkX hpair hfail))⟩⟩
    case mdsmul => rw [State.mdsmulChecks, hfail, firstError_some]
    case addrc => rw [addrcChecks_of_lengths hfits hindex, hfail, firstError_some]
  case mds =>
    have hfail : s.checkMds = some (.range, BitVec.ofNat 64 (2 ^ 32 + e)) := checkMds_of_lowest he hbad hlow
    refine ⟨exec_mdsmul_of_failing ?mdsmul, fun hpair hunchecked =>
      ⟨fun i hlengths => exec_round_of_failing hunchecked
        ((roundChecks_of_lengths hlengths).trans (operandChecks_of_checkMds hpair hx hfail)),
      fun hlengths => exec_permute_of_failing hunchecked
        ((permuteChecks_of_lengths hlengths).trans (operandChecks_of_checkMds hpair hx hfail))⟩⟩
    case mdsmul => rw [mdsmulChecks_of_xReduced hx, hfail, firstError_some]
  case rc =>
    have hlow' : ∀ a, k ≤ a → a < k + j → s.rcVal a < s.inst.P := by
      intro a hka ha
      obtain ⟨d, rfl⟩ := Nat.exists_eq_add_of_le hka
      exact hlow d (Nat.lt_of_add_lt_add_left ha)
    have hfail : s.checkRc s.inst.m k = some (.range, BitVec.ofNat 64 (2 * 2 ^ 32 + (k + j))) :=
      checkRc_of_lowest (by omega) (by omega) (by omega) hbad hlow'
    refine exec_addrc_of_failing ?_
    rw [addrcChecks_of_lengths hfits hindex, (checkX_eq_none_iff s).mpr hx, hfail, firstError_none,
      firstError_some]

/-- The end of the two chunks of round `i` is what its index test compares with the declared length (R132, R227). -/
theorem roundConstants_end_eq (m i : Nat) : 2 * i * m + 2 * m = 2 * m * (i + 1) := by ring

/-- Settles O52: with all else passing, the scan of the constants is the test that fails. -/
theorem roundsTestEveryConstantFirst : Obligations.RoundsTestEveryConstantFirst := by
  intro s hunchecked hpair hx hM
  refine ⟨fun i k hfits hindex hfrom hto hbad hlow => ?round, fun k hne hdepth hexact hto hbad hlow => ?permute⟩
  case round =>
    have hbase : injBase s.inst.m i 0 = 2 * i * s.inst.m := by rw [injBase, Nat.zero_mul, Nat.add_zero]
    have hend := roundConstants_end_eq s.inst.m i
    have hfail : s.checkRc (2 * s.inst.m) (injBase s.inst.m i 0) =
        some (.range, BitVec.ofNat 64 (2 * 2 ^ 32 + k)) :=
      hbase ▸ checkRc_of_lowest (by omega) hfrom hto hbad hlow
    exact exec_round_of_failing hunchecked
      ((roundChecks_of_lengths ⟨hfits, hindex⟩).trans (operandChecks_of_checkRc hpair hx hM hfail))
  case permute =>
    have hfail : s.checkRc (2 * s.inst.m * s.nrounds.toNat) 0 =
        some (.range, BitVec.ofNat 64 (2 * 2 ^ 32 + k)) :=
      checkRc_of_lowest (by omega) k.zero_le (by omega) hbad fun a _ => hlow a
    exact exec_permute_of_failing hunchecked
      ((permuteChecks_of_lengths ⟨hne, hdepth, hexact⟩).trans (operandChecks_of_checkRc hpair hx hM hfail))

/-- Settles O53: the tests on the lengths are the first two of each list. -/
theorem lengthErrorsComeFirst : Obligations.LengthErrorsComeFirst := by
  intro s
  refine ⟨fun hunchecked => ⟨fun hbad => exec_permute_of_failing hunchecked ?nrounds,
    fun hne hdepth hexact => exec_permute_of_failing hunchecked ?rclenExact,
    fun i => ⟨fun hlong => exec_round_of_failing hunchecked ?roundRclen,
      fun hfits hfew => exec_round_of_failing hunchecked ?roundIndex⟩⟩,
    fun k => ⟨fun hlong => exec_addrc_of_failing ?addrcRclen,
      fun hfits hfew => exec_addrc_of_failing ?addrcIndex⟩⟩
  case nrounds =>
    rw [State.permuteChecks, checkNrounds_of_bad hbad, firstError_some, infoNat]
  case rclenExact =>
    rw [State.permuteChecks, (checkNrounds_eq_none_iff s).mpr ⟨hne, hdepth⟩, checkRclenExact_of_ne hexact,
      firstError_none, firstError_some, infoNat]
  case roundRclen =>
    rw [State.roundChecks, checkRclenFits_of_lt hlong, firstError_some, infoNat]
  case roundIndex =>
    rw [State.roundChecks, (checkRclenFits_eq_none_iff s).mpr hfits, checkIndex_of_lt i hfew, firstError_none,
      firstError_some, infoNat]
  case addrcRclen =>
    rw [State.addrcChecks, checkRclenFits_of_lt hlong, firstError_some, infoNat]
  case addrcIndex =>
    rw [State.addrcChecks, (checkRclenFits_eq_none_iff s).mpr hfits, checkIndex_of_lt k hfew, firstError_none,
      firstError_some, infoNat]

end Sys2Proof.Machine
end

