-- ==== Sys2Proof/Proofs/Termination.lean ====
section
/-! PROOFS. The end of a command (spec/70_reset_and_hazards.md R260, R261, R277): the reset input abandons it, and
without one a number that every sequencer step lowers bounds the steps it still takes. -/

namespace Sys2Proof.Machine

/-! ### The reset input (R260, R261) -/

/-- Settles O14: the event is performed as `hostReset`, which keeps of `s` only what the statement names. -/
theorem resetInputAbandonsEverything : Obligations.ResetInputAbandonsEverything := by
  intro s rest hreset
  rw [step, hreset]
  rfl

/-! ### The steps a command still takes (R277) -/

/-- The bound of R277 on the steps of a command. -/
def State.stepBound (s : State) : Instr → Nat
  | .nop | .clrstat => 0
  | .sboxF | .sboxI | .mdsmul | .addrc _ | .mdsgen => 1
  | .round _ => 7
  | .permute => 1 + 6 * s.nrounds.toNat

/-- The rounds of a command after the one at the position (R141, R147). -/
def State.roundsAfter (s : State) : Instr → Nat
  | .permute => s.nrounds.toNat - (s.round.toNat + 1)
  | .nop | .sboxF | .sboxI | .mdsmul | .addrc _ | .round _ | .mdsgen | .clrstat => 0

/-- The phase steps that a round at this phase still takes (R44). -/
def Phase.stepsLeft : Phase → Nat
  | .sboxF => 6
  | .mdsA => 5
  | .injA => 4
  | .sboxI => 3
  | .mdsB => 2
  | .injB => 1

/-- The most steps a command still takes: the bound of R277 before its first step, and past the check step the
phases left in the rounds left. -/
def State.stepsLeft (s : State) (i : Instr) : Nat :=
  if s.checked then 6 * s.roundsAfter i + s.phase.stepsLeft else s.stepBound i

theorem stepsLeft_of_unchecked {s : State} (h : s.checked = false) (i : Instr) :
    s.stepsLeft i = s.stepBound i := by
  rw [State.stepsLeft, h, if_neg Bool.false_ne_true]

theorem stepsLeft_of_checked {s : State} (h : s.checked = true) (i : Instr) :
    s.stepsLeft i = 6 * s.roundsAfter i + s.phase.stepsLeft := by
  rw [State.stepsLeft, h, if_pos rfl]

theorem roundsAfter_setPosition_round (s : State) (ph : Phase) (i : Instr) :
    (s.setPosition s.round ph).roundsAfter i = s.roundsAfter i := by
  cases i <;> rfl

theorem stepsLeft_setX_setPosition {s : State} (h : s.checked = true) (f : Nat → Nat) (r : BitVec 32) (ph : Phase)
    (i : Instr) :
    ((s.setX f).setPosition r ph).stepsLeft i = 6 * (s.setPosition r ph).roundsAfter i + ph.stepsLeft :=
  (stepsLeft_of_checked (s := (s.setX f).setPosition r ph) h i).trans (by cases i <;> rfl)

theorem stepBound_pos (s : State) {i : Instr} (h : executing i = true) : 0 < s.stepBound i := by
  cases i with
  | nop | clrstat => simp [executing] at h
  | sboxF | sboxI | mdsmul | addrc _ | mdsgen | round _ => simp [State.stepBound]
  | permute => exact Nat.add_pos_left one_pos _

theorem Phase.stepsLeft_pos (ph : Phase) : 0 < ph.stepsLeft := by
  cases ph <;> decide

theorem Phase.stepsLeft_le (ph : Phase) : ph.stepsLeft ≤ 6 := by
  cases ph <;> decide

theorem Phase.stepsLeft_next {ph : Phase} (h : ph ≠ .injB) : ph.next.stepsLeft + 1 = ph.stepsLeft := by
  cases ph with
  | injB => exact absurd rfl h
  | sboxF | mdsA | injA | sboxI | mdsB => rfl

/-- A round that is not the command's last has one round more after it than the next round has. -/
theorem roundsAfter_next {s : State} {i : Instr} (hruns : s.runs i = true) (hlast : s.endsWithRound i = false) :
    (s.setPosition (s.round + 1) .sboxF).roundsAfter i + 1 = s.roundsAfter i := by
  obtain ⟨r, rfl⟩ | rfl := runs_cases hruns
  · exact absurd hlast nofun
  · obtain ⟨hround, _⟩ := (runs_permute_iff s).mp hruns
    obtain ⟨hnext, _⟩ := (runs_permute_iff _).mp (runs_permute_next hruns hlast)
    rw [State.setPosition_round, State.setPosition_nrounds] at hnext
    have hsucc : (s.round + 1).toNat = s.round.toNat + 1 := by bv_omega
    simp only [State.roundsAfter, State.setPosition_round, State.setPosition_nrounds, hsucc]
    omega

/-- The check step is one of the steps that R277 counts, so past it there are fewer left than the bound. -/
theorem State.InRounds.stepsLeft_lt {s : State} {i : Instr} (h : s.InRounds i) : s.stepsLeft i < s.stepBound i := by
  have hphase := s.phase.stepsLeft_le
  rw [stepsLeft_of_checked h.checked]
  obtain ⟨r, rfl⟩ | rfl := runs_cases h.runs
  · simp only [State.roundsAfter, State.stepBound]
    omega
  · obtain ⟨hround, _⟩ := (runs_permute_iff s).mp h.runs
    simp only [State.roundsAfter, State.stepBound]
    omega

/-! ### How a command ends (R36, R37, R222) -/

/-- A command has ended, without error or with one. -/
def State.Ended (s : State) : Prop := s.busy = false ∧ (s.done = true ∨ s.err = true)

theorem ended_raise (s : State) (e : ErrRecord) : (s.raise e).Ended := ⟨rfl, .inr rfl⟩

theorem ended_complete (s : State) : s.complete.Ended := ⟨rfl, .inl rfl⟩

theorem ended_checkedStep (s t : State) (test : Option ErrRecord) : (s.checkedStep test t.complete).Ended := by
  obtain ⟨e, _, heq⟩ | ⟨_, heq⟩ := checkedStep_cases s test t.complete
  · rw [heq]
    exact ended_raise s e
  · rw [heq]
    exact ended_complete t

theorem ended_mdsgenMatrix (s : State) (r : Matrix × Option Nat) : (s.mdsgenMatrix r).Ended := by
  obtain ⟨V, pivot⟩ := r
  cases pivot with
  | none => exact ended_complete _
  | some k => exact ended_raise _ _

theorem execMdsgen_ended (s : State) : ∃ t, execMdsgen s = .next t ∧ t.Ended := by
  refine ⟨_, rfl, ?_⟩
  cases checkPoints s.inst.P s.inst.G s.inst.m with
  | some b => exact ended_raise _ _
  | none => exact ended_mdsgenMatrix _ _

theorem checkedStep_startAt_cases (s : State) (test : Option ErrRecord) (r : BitVec 32) :
    (s.checkedStep test (s.startAt r)).Ended ∨ s.checkedStep test (s.startAt r) = s.startAt r := by
  obtain ⟨e, _, heq⟩ | ⟨_, heq⟩ := checkedStep_cases s test (s.startAt r)
  · exact .inl (heq ▸ ended_raise s e)
  · exact .inr heq

/-- The first step of a command ends it, or is a check step that has passed (R141, R147). -/
theorem exec_ends_or_starts {s : State} {i : Instr} (hexec : executing i = true) (hunchecked : s.checked = false) :
    ∃ t, exec i s = .next t ∧ (t.Ended ∨ ∃ r, t = s.startAt r) := by
  cases i with
  | nop | clrstat => simp [executing] at hexec
  | sboxF | sboxI | mdsmul | addrc _ => exact ⟨_, rfl, .inl (ended_checkedStep s _ _)⟩
  | mdsgen =>
    obtain ⟨t, ht, hended⟩ := execMdsgen_ended s
    exact ⟨t, ht, .inl hended⟩
  | round _ | permute =>
    refine ⟨_, rfl, ?_⟩
    rw [hunchecked]
    exact (checkedStep_startAt_cases s _ _).imp_right fun heq => ⟨_, heq⟩

/-- A phase step ends the command, or goes on to its next round or to the next phase (R143). -/
theorem phaseStep_cases (s : State) (last : Bool) : ∃ f,
    (s.phaseStep last).Ended ∨
      (s.phase = .injB ∧ last = false ∧ s.phaseStep last = (s.setX f).setPosition (s.round + 1) .sboxF) ∨
      (s.phase ≠ .injB ∧ s.phaseStep last = (s.setX f).setPosition s.round s.phase.next) := by
  obtain ⟨f, hwork, _⟩ := phaseWork_eq_setX s
  refine ⟨f, ?_⟩
  rw [State.phaseStep, hwork]
  obtain ⟨_, _, heq⟩ | hround | hphase := advance_cases (s.setX f) last
  · exact .inl (heq ▸ ended_complete _)
  · exact .inr (.inl hround)
  · exact .inr (.inr hphase)

/-! ### Every step ends the command or lowers the number of steps left (R277) -/

/-- The engine is busy with command `i`, within the invariant, and the host is silent. -/
structure State.Performing (s : State) (i : Instr) : Prop where
  inv : s.Inv
  busy : s.busy = true
  silent : s.inputs = []
  opl : decode s.opl = .ok i

/-- The next step ends command `i`, or leaves it fewer steps. -/
def State.Progresses (s : State) (i : Instr) : Prop :=
  ∃ t, step s = .next t ∧ (t.Ended ∨ t.Performing i ∧ t.stepsLeft i < s.stepsLeft i)

namespace State.Performing

variable {s : State} {i : Instr}

theorem executing_eq_true (h : s.Performing i) : executing i = true := by
  obtain ⟨_, _, _, _, hseq⟩ := h.inv
  obtain ⟨j, hopl, hexec, _⟩ := (sequencerOk_busy_iff h.busy).mp hseq
  obtain rfl : j = i := Except.ok.inj (hopl.symm.trans h.opl)
  exact hexec

theorem step_eq_exec (h : s.Performing i) : Machine.step s = exec i s := by
  obtain ⟨hstep, _⟩ := stepRunsTheCommandInOpl s i h.busy h.opl h.executing_eq_true
  exact hstep h.silent

theorem inRounds (h : s.Performing i) (hchecked : s.checked = true) : s.InRounds i := by
  obtain hcheck | hrounds := atCheck_or_inRounds h.inv h.busy h.opl
  · exact absurd (hcheck.unchecked.symm.trans hchecked) nofun
  · exact hrounds

theorem stepsLeft_le (h : s.Performing i) : s.stepsLeft i ≤ s.stepBound i := by
  cases hchecked : s.checked with
  | false => exact (stepsLeft_of_unchecked hchecked i).le
  | true => exact (h.inRounds hchecked).stepsLeft_lt.le

theorem stepsLeft_pos (h : s.Performing i) : 0 < s.stepsLeft i := by
  cases hchecked : s.checked with
  | false =>
    rw [stepsLeft_of_unchecked hchecked]
    exact stepBound_pos s h.executing_eq_true
  | true =>
    rw [stepsLeft_of_checked hchecked]
    exact Nat.add_pos_right _ s.phase.stepsLeft_pos

theorem startAt (h : s.Performing i) {r : BitVec 32} (hinv : (s.startAt r).Inv) : (s.startAt r).Performing i :=
  ⟨hinv, h.busy, h.silent, h.opl⟩

theorem setX_setPosition (h : s.Performing i) {f : Nat → Nat} {r : BitVec 32} {ph : Phase}
    (hinv : ((s.setX f).setPosition r ph).Inv) : ((s.setX f).setPosition r ph).Performing i :=
  ⟨hinv, h.busy, h.silent, h.opl⟩

/-- The first step of a command. -/
theorem progresses_of_unchecked (h : s.Performing i) (hunchecked : s.checked = false) : s.Progresses i := by
  obtain ⟨t, ht, hend⟩ := exec_ends_or_starts h.executing_eq_true hunchecked
  have hstep : Machine.step s = .next t := h.step_eq_exec.trans ht
  refine ⟨t, hstep, hend.imp_right ?_⟩
  rintro ⟨r, rfl⟩
  have hnext : (s.startAt r).Performing i := h.startAt (everyStepKeepsInv s _ h.inv hstep)
  refine ⟨hnext, ?_⟩
  calc (s.startAt r).stepsLeft i < (s.startAt r).stepBound i := (hnext.inRounds rfl).stepsLeft_lt
    _ = s.stepBound i := by cases i <;> rfl
    _ = s.stepsLeft i := (stepsLeft_of_unchecked hunchecked i).symm

/-- A phase step of a command of rounds. -/
theorem progresses_of_checked (h : s.Performing i) (hchecked : s.checked = true) : s.Progresses i := by
  have hruns : s.runs i = true := (h.inRounds hchecked).runs
  have hstep : Machine.step s = .next (s.phaseStep (s.endsWithRound i)) :=
    h.step_eq_exec.trans (exec_of_checked (runs_cases hruns) hchecked)
  have hinv : (s.phaseStep (s.endsWithRound i)).Inv := everyStepKeepsInv s _ h.inv hstep
  refine ⟨_, hstep, ?_⟩
  obtain ⟨f, hended | ⟨hphase, hlast, heq⟩ | ⟨hphase, heq⟩⟩ := phaseStep_cases s (s.endsWithRound i)
  · exact .inl hended
  · rw [heq] at hinv ⊢
    refine .inr ⟨h.setX_setPosition hinv, ?_⟩
    have hafter := roundsAfter_next hruns hlast
    rw [stepsLeft_setX_setPosition hchecked, stepsLeft_of_checked hchecked, hphase, Phase.stepsLeft, Phase.stepsLeft]
    omega
  · rw [heq] at hinv ⊢
    refine .inr ⟨h.setX_setPosition hinv, ?_⟩
    have hleft := Phase.stepsLeft_next hphase
    rw [stepsLeft_setX_setPosition hchecked, stepsLeft_of_checked hchecked, roundsAfter_setPosition_round]
    omega

theorem progresses (h : s.Performing i) : s.Progresses i := by
  cases hchecked : s.checked with
  | false => exact h.progresses_of_unchecked hchecked
  | true => exact h.progresses_of_checked hchecked

/-- A command ends within the number of steps left. -/
theorem ends (h : s.Performing i) : ∃ n t, n ≤ s.stepsLeft i ∧ stepN n s = .next t ∧ t.Ended := by
  induction hk : s.stepsLeft i using Nat.strong_induction_on generalizing s with
  | _ k ih =>
    obtain ⟨u, hu, hended | ⟨hnext, hlt⟩⟩ := h.progresses
    · have hpos := h.stepsLeft_pos
      exact ⟨1, u, by omega, stepN_succ_of_next hu, hended⟩
    · obtain ⟨n, t, hn, hrun, hended⟩ := ih _ (hk ▸ hlt) hnext rfl
      exact ⟨n + 1, t, by omega, (stepN_succ_of_next hu).trans hrun, hended⟩

end State.Performing

/-- Past its check step, `PERMUTE` has no more rounds than the constants store has room for (R225). -/
theorem nrounds_le_of_runs {s : State} (h : s.runs .permute = true) :
    s.nrounds.toNat ≤ s.inst.rcDepth / (2 * s.inst.m) := by
  obtain ⟨_, hchecks⟩ := (runs_permute_iff s).mp h
  obtain ⟨_, hdepth, _⟩ := (permuteChecks_eq_none_iff s).mp hchecks
  have hm : 0 < 2 * s.inst.m := Nat.mul_pos two_pos (inst_m_pos s.inst)
  rw [Nat.le_div_iff_mul_le hm, mul_comm]
  exact hdepth

/-- Settles O54: `ends` within the steps left, of which there are at most the bound's. -/
theorem busyEndsWithinTheBound : Obligations.BusyEndsWithinTheBound := by
  intro s i hinv hbusy hsilent hopl
  have h : s.Performing i := ⟨hinv, hbusy, hsilent, hopl⟩
  refine ⟨?bound, ?rounds⟩
  case bound =>
    obtain ⟨n, t, hn, hrun, hended⟩ := h.ends
    exact ⟨n, t, (hn.trans h.stepsLeft_le).trans_eq (by cases i <;> rfl), hrun, hended⟩
  case rounds =>
    rintro rfl hchecked
    exact nrounds_le_of_runs (h.inRounds hchecked).runs

end Sys2Proof.Machine
end
